-- ==== Sys2Proof/Word.lean ====
section
/-! DEFINITION. The word types of TRIBBLE-DPE and the frame, the unit of everything the block sends.
Spec: 00_scope.md R7 (every value is unsigned), R8 (a frame is a pair of a kind and a byte). -/

namespace Sys2Proof

/-- An 8-bit value: a frame's payload, a text-buffer cell, a ROM byte (R8, R33, R61). -/
abbrev Byte := BitVec 8

/-- A 32-bit host register or request word (R20, R100). -/
abbrev Word := BitVec 32

/-- The 9 bits of a frame as one number, `dc·256 + value` (R109, R116). -/
abbrev FrameWord := BitVec 9

/-- The two-valued tag of a transport write, the source's `WordType` (R8). -/
inductive Kind where
  | command
  | data
  deriving DecidableEq, Repr, Inhabited

/-- One transport write, written `C(v)` or `D(v)` in the spec (R8). -/
structure Frame where
  kind : Kind
  value : Byte
  deriving DecidableEq, Repr, Inhabited

end Sys2Proof
end

