-- ==== Sys2Proof/Config.lean ====
section
/-! DEFINITION. The parameters a model of TRIBBLE-DPE takes (00_scope.md R6, 93_implementation_defined.md section 3).
What the source fixes is a number here. What the spec calls a configuration value (`OPC_*`, `INIT_ROM`) or an OPEN
parameter (`GLYPH_ROM`, `SETTLE_RESET`, `BASE`, `T_CTRL_READY`) is a field of `Params`, which State carries and no step
writes, so that a claim over all states is a claim over all configurations. The OPEN parameters of the default
configuration and the receiver's arbitrary values are constants with no body: nothing can be proved of their values. -/

namespace Sys2Proof

namespace Config

/-- `N_COLS`: the columns of the controller's memory (R6, "source"). -/
def nCols : Nat := 128

/-- `N_PAGES`: its pages (R6, "source"). -/
def nPages : Nat := 8

/-- `CLEAR_BYTES` = 128 × 8, the zero data bytes that end an INIT (R6, R166). -/
def clearBytes : Nat := 1024

/-- `ID_VALUE`, the ASCII bytes "TRB1" with "T" in bits 31:24 (R27). -/
def idValue : Word := 0x54524231#32

/-- OPEN `SETTLE_RESET`, the reset value of SETTLE (R30, R42); assumption 4. -/
opaque settleReset : Word

/-- OPEN `GLYPH_ROM`: byte j of glyph row i (R35, R191); assumption 5. -/
opaque glyphByte : Fin 41 → Fin 6 → Byte

/-- OPEN `BASE`, the host address of the register window (R60); assumption 6. -/
opaque base : Nat

/-- OPEN `T_CTRL_READY`, the wait after power-up before INIT (R255), counted in clk cycles; assumption 7. -/
opaque tCtrlReady : Nat

/-! The receiver's arbitrary values (R80, R81): the n-th draw of each of its fields. Assumption 9. -/

/-- The n-th draw of one cell of the display memory, by cell address. -/
opaque drawCell : Nat → Nat → Byte
/-- The n-th draw of the window's first column `cs`. -/
opaque drawCs : Nat → Fin 128
/-- The n-th draw of the window's last column `ce`. -/
opaque drawCe : Nat → Fin 128
/-- The n-th draw of the window's first page `ps`. -/
opaque drawPs : Nat → Fin 8
/-- The n-th draw of the window's last page `pe`. -/
opaque drawPe : Nat → Fin 8
/-- The n-th draw of the pointer's column. -/
opaque drawCol : Nat → Fin 128
/-- The n-th draw of the pointer's page. -/
opaque drawPage : Nat → Fin 8
/-- The n-th draw of the addressing mode: true for HORIZONTAL. -/
opaque drawHorizontal : Nat → Bool
/-- The n-th draw of the flag `on`. -/
opaque drawOn : Nat → Bool
/-- The n-th draw of the parse state: the bytes of a command in progress. -/
opaque drawPending : Nat → List Byte

end Config

/-- The argument frames of the controller commands: each count is configuration (R160) and is 0, 1 or 2 (R110). The
two window commands are not here: their two arguments each are the source's (R164, 91_not_in_source.md N15). -/
structure ArgCounts where
  dispoff : Fin 3
  dispon : Fin 3
  clkdiv : Fin 3
  chgpump : Fin 3
  addrmode : Fin 3
  segremap : Fin 3
  comscan : Fin 3
  compins : Fin 3
  contrast : Fin 3
  prechg : Fin 3
  vcomdesel : Fin 3
  resume : Fin 3
  deriving DecidableEq, Repr, Inhabited

/-- The default argument counts of R160 [from general knowledge, not in source: 91_not_in_source.md N15]; assumption 10. -/
def ArgCounts.default : ArgCounts where
  dispoff := 0
  dispon := 0
  clkdiv := 1
  chgpump := 1
  addrmode := 1
  segremap := 0
  comscan := 0
  compins := 1
  contrast := 1
  prechg := 1
  vcomdesel := 1
  resume := 0

/-- The configuration constants `OPC_*` (R160): one opcode byte for each of the fourteen controller commands, and their
argument counts. For set-segment-remap and set-scan-direction it is the opcode of the variant r = 0, d = 0. -/
structure Opcodes where
  dispoff : Byte
  dispon : Byte
  clkdiv : Byte
  chgpump : Byte
  addrmode : Byte
  segremap : Byte
  comscan : Byte
  compins : Byte
  contrast : Byte
  prechg : Byte
  vcomdesel : Byte
  resume : Byte
  coladdr : Byte
  pageaddr : Byte
  args : ArgCounts
  deriving DecidableEq, Repr, Inhabited

/-- The default opcode bytes and argument counts of the table of R160, which are those of spec/opcode_table.json [from general knowledge,
not in source: 93_implementation_defined.md G3]; assumptions 2 and 10. -/
def Opcodes.default : Opcodes where
  dispoff := 0xAE#8
  dispon := 0xAF#8
  clkdiv := 0xD5#8
  chgpump := 0x8D#8
  addrmode := 0x20#8
  segremap := 0xA0#8
  comscan := 0xC0#8
  compins := 0xDA#8
  contrast := 0x81#8
  prechg := 0xD9#8
  vcomdesel := 0xDB#8
  resume := 0xA4#8
  coladdr := 0x21#8
  pageaddr := 0x22#8
  args := ArgCounts.default

/-- The default `INIT_ROM` of R161 [from general knowledge, not in source: G4]; assumption 3. -/
def Config.defaultInitRom : List Byte :=
  [0xAE#8, 0xD5#8, 0x80#8, 0x8D#8, 0x14#8, 0x20#8, 0x00#8, 0xA1#8, 0xC8#8, 0xDA#8, 0x12#8,
   0x81#8, 0xCF#8, 0xD9#8, 0xF1#8, 0xDB#8, 0x40#8, 0xA4#8, 0xAF#8]

/-- The parameters of one instance of the block (R6). `glyphRom` holds 41 rows of 6 bytes (R35). -/
structure Params where
  opc : Opcodes
  initRom : List Byte
  glyphRom : Vector (Vector Byte 6) 41
  settleReset : Word
  base : Nat
  tCtrlReady : Nat
  deriving DecidableEq, Repr

/-- A glyph store from its bytes, row i and column j. -/
def glyphStore (byte : Fin 41 → Fin 6 → Byte) : Vector (Vector Byte 6) 41 :=
  Vector.ofFn fun i => Vector.ofFn fun j => byte i j

/-- The configuration of `State.reset`: the spec's defaults where it gives one, the OPEN constants elsewhere. -/
def Params.default : Params where
  opc := Opcodes.default
  initRom := Config.defaultInitRom
  glyphRom := glyphStore Config.glyphByte
  settleReset := Config.settleReset
  base := Config.base
  tCtrlReady := Config.tCtrlReady

end Sys2Proof
end

