-- ==== Sys2Proof/Syntax.lean ====
section
/-! DEFINITION. The instructions of the block: one constructor for each row of spec/opcode_table.json. The first four are
the host's requests, the block's own instructions (30_encoding.md R101); the next fourteen are the controller commands of
the output stream with their argument bytes (41_controller.md R160, 30_encoding.md R110), as many as the configuration
counts, which by default is one, or none where the argument has the default []; the last is the pixel-data frame (R109). -/

namespace Sys2Proof

/-- One instruction: a host request, a controller command of the wire, or a data frame. -/
inductive Instr where
  /-- WRITE_BYTE: send one raw frame (R102, R132). -/
  | writeByte (value : Byte) (kind : Kind)
  /-- INIT: power up, configure and clear the controller (R103, R166). -/
  | init
  /-- SET_WINDOW: send the window held in WIN (R104, R169). -/
  | setWindow
  /-- DRAW_TEXT: draw LEN glyphs of the text buffer at (X, Y) (R105, R196). -/
  | drawText (x y len : Byte)
  /-- display-off (R160). -/
  | dispoff (args : List Byte := [])
  /-- display-on (R160). -/
  | dispon (args : List Byte := [])
  /-- set-clock-divider (R160). -/
  | clkdiv (args : List Byte)
  /-- enable-charge-pump (R160). -/
  | chgpump (args : List Byte)
  /-- set-addressing-mode (R160). -/
  | addrmode (args : List Byte)
  /-- set-segment-remap, variant r in the opcode (R160). -/
  | segremap (r : Bool) (args : List Byte := [])
  /-- set-scan-direction, variant d in the opcode (R160). -/
  | comscan (d : Bool) (args : List Byte := [])
  /-- set-common-pin-config (R160). -/
  | compins (args : List Byte)
  /-- set-contrast (R160). -/
  | contrast (args : List Byte)
  /-- set-precharge-period (R160). -/
  | prechg (args : List Byte)
  /-- set-deselect-level (R160). -/
  | vcomdesel (args : List Byte)
  /-- resume-display (R160). -/
  | resume (args : List Byte := [])
  /-- set-column-address: start column, end column (R160). -/
  | coladdr (start stop : Byte)
  /-- set-page-address: start page, end page (R160). -/
  | pageaddr (start stop : Byte)
  /-- A data frame: eight vertical pixels (R109). -/
  | data (value : Byte)
  deriving DecidableEq, Repr, Inhabited

end Sys2Proof
end

