-- ==== Sys2Proof/WellFormed.lean ====
section
/-! DEFINITION. What the spec calls legal of an instruction's operands and of a configuration. The decoder does not
consult these checks: a DRAW_TEXT of illegal length is decoded and then refused with ERR_LEN (30_encoding.md R106), and a
configuration is checked where it is used (41_controller.md R162). -/

namespace Sys2Proof

/-- A command holds as many argument bytes as the configuration counts for it (R110, R160). Requests, window commands and
data frames hold their operands by their form. -/
def Instr.fits (o : Opcodes) : Instr → Bool
  | .writeByte _ _ => true
  | .init => true
  | .setWindow => true
  | .drawText _ _ _ => true
  | .dispoff args => args.length == o.args.dispoff.val
  | .dispon args => args.length == o.args.dispon.val
  | .clkdiv args => args.length == o.args.clkdiv.val
  | .chgpump args => args.length == o.args.chgpump.val
  | .addrmode args => args.length == o.args.addrmode.val
  | .segremap _ args => args.length == o.args.segremap.val
  | .comscan _ args => args.length == o.args.comscan.val
  | .compins args => args.length == o.args.compins.val
  | .contrast args => args.length == o.args.contrast.val
  | .prechg args => args.length == o.args.prechg.val
  | .vcomdesel args => args.length == o.args.vcomdesel.val
  | .resume args => args.length == o.args.resume.val
  | .coladdr _ _ => true
  | .pageaddr _ _ => true
  | .data _ => true

/-- DRAW_TEXT's LEN is "legal 1 to 32" (R105). -/
def legalLength (len : Byte) : Bool := decide (1 ≤ len.toNat) && decide (len.toNat ≤ 32)

/-- The operands are ones the spec calls legal: the argument count, and DRAW_TEXT's LEN. Every other operand takes every
value of its field (R29, R107, R132, R168). -/
def Instr.wellFormed (o : Opcodes) (i : Instr) : Bool :=
  match i with
  | .drawText _ _ len => legalLength len
  | .writeByte _ _ => true
  | .init => true
  | .setWindow => true
  | .dispoff _ => i.fits o
  | .dispon _ => i.fits o
  | .clkdiv _ => i.fits o
  | .chgpump _ => i.fits o
  | .addrmode _ => i.fits o
  | .segremap _ _ => i.fits o
  | .comscan _ _ => i.fits o
  | .compins _ => i.fits o
  | .contrast _ => i.fits o
  | .prechg _ => i.fits o
  | .vcomdesel _ => i.fits o
  | .resume _ => i.fits o
  | .coladdr _ _ => true
  | .pageaddr _ _ => true
  | .data _ => true

/-- Every opcode byte a configuration gives a meaning, both variants of the two-variant commands among them (R160). -/
def Opcodes.bytes (o : Opcodes) : List Byte :=
  [o.dispoff, o.dispon, o.clkdiv, o.chgpump, o.addrmode, o.segremap, o.segremap + 1#8,
   o.comscan, o.comscan + 8#8, o.compins, o.contrast, o.prechg, o.vcomdesel, o.resume,
   o.coladdr, o.pageaddr]

/-- No two commands share an opcode byte, so that the first byte alone tells the command (R110). -/
def Opcodes.wellFormed (o : Opcodes) : Bool := decide o.bytes.Nodup

/-- The commands of the eleven steps of R161, in order: the opcodes each may have and its argument count. Step 5 is two
commands (90_conflicts.md C4), each in either of its variants. -/
def Opcodes.powerUpSteps (o : Opcodes) : List (List Byte × Nat) :=
  [([o.dispoff], o.args.dispoff.val), ([o.clkdiv], o.args.clkdiv.val), ([o.chgpump], o.args.chgpump.val),
   ([o.addrmode], o.args.addrmode.val), ([o.segremap, o.segremap + 1#8], o.args.segremap.val),
   ([o.comscan, o.comscan + 8#8], o.args.comscan.val), ([o.compins], o.args.compins.val), ([o.contrast], o.args.contrast.val),
   ([o.prechg], o.args.prechg.val), ([o.vcomdesel], o.args.vcomdesel.val), ([o.resume], o.args.resume.val),
   ([o.dispon], o.args.dispon.val)]

/-- A list of bytes is these steps in order, each an opcode and as many argument bytes as it counts. -/
def followsSteps : List (List Byte × Nat) → List Byte → Bool
  | [], rom => rom.isEmpty
  | _ :: _, [] => false
  | (opcodes, n) :: steps, v :: rest =>
    opcodes.contains v && decide (n ≤ rest.length) && followsSteps steps (rest.drop n)

/-- `INIT_ROM` holds the eleven steps of R161 in order, each its command's opcode followed by as many argument bytes as
R160 counts, no step omitted, repeated or added (R162). Its length follows from the configured counts. -/
def Params.initRomOk (p : Params) : Bool := followsSteps p.opc.powerUpSteps p.initRom

/-- A configuration of this hardware: distinct opcodes and a legal power-up sequence (R110, R162). -/
def Params.wellFormed (p : Params) : Bool := p.opc.wellFormed && p.initRomOk

end Sys2Proof
end

