-- ==== Sys2Proof/Decode.lean ====
section
/-! DEFINITION. The decoder and the encoder. Two encodings carry instructions (30_encoding.md): the 32-bit request word
the host writes to REQ (R100 to R106), and the controller command stream on the wire, whose unit is the 9-bit frame
(R109, R110, R116). Both decoders are total and reject by name. The bit-field and byte-lane helpers stand here too. -/

namespace Sys2Proof

/-- Byte lane b of a word, bits `[8·b+7 : 8·b]` (R62). -/
def byteLane (w : Word) (b : Nat) : Byte := w.extractLsb' (8 * b) 8

/-- The word `{b3, b2, b1, b0}` (R7, R62). -/
def ofLanes (b3 b2 b1 b0 : Byte) : Word := b3 ++ b2 ++ b1 ++ b0

/-- The `dc` level of a kind: 0 for Command, 1 for Data (R109, R141). -/
def Kind.isData : Kind → Bool
  | .command => false
  | .data => true

/-- Why a word or a run of frames is no instruction. -/
inductive DecodeError where
  /-- a request word of R108: the host port answers it with ERR_OP -/
  | illegalRequest
  /-- a Command frame whose value is no opcode of the table (R82) -/
  | unknownOpcode
  /-- a Data frame where an argument byte is expected (R82) -/
  | dataInArguments
  /-- the frames end before the command's last argument, or there are none -/
  | truncated
  /-- frames follow the command's last argument -/
  | trailingFrames
  deriving DecidableEq, Repr

/-- An encoded instruction: a request word, or the frame words of one wire instruction, first sent first. -/
inductive Code where
  | request (w : Word)
  | wire (fs : List FrameWord)
  deriving DecidableEq, Repr

/-! ### Request words -/

/-- R106, total on every 32-bit word. -/
def decodeRequest (w : Word) : Except DecodeError Instr :=
  if w.extractLsb' 4 4 ≠ 0#4 then .error .illegalRequest
  else match (w.extractLsb' 0 4).toNat with
    | 0x1 =>
      if w.extractLsb' 24 8 = 0#8 ∧ w.extractLsb' 17 7 = 0#7 then
        .ok (.writeByte (byteLane w 1) (if w.getLsbD 16 then .data else .command))
      else .error .illegalRequest
    | 0x2 => if w.extractLsb' 8 24 = 0#24 then .ok .init else .error .illegalRequest
    | 0x3 => if w.extractLsb' 8 24 = 0#24 then .ok .setWindow else .error .illegalRequest
    | 0x4 => .ok (.drawText (byteLane w 1) (byteLane w 2) (byteLane w 3))
    | _ => .error .illegalRequest

/-! ### The wire -/

/-- The frame of a frame word: bit 8 is the kind, bits 7:0 the value (R109). -/
def Frame.ofWord (w : FrameWord) : Frame :=
  ⟨if w.getLsbD 8 then .data else .command, w.extractLsb' 0 8⟩

/-- The frame word `dc·256 + value` (R116). -/
def Frame.toWord (f : Frame) : FrameWord :=
  BitVec.ofBool f.kind.isData ++ f.value

/-- What an opcode byte begins: a command of 0, 1 or 2 argument bytes, which together make the instruction (R110, R160). -/
structure CommandShape where
  args : Fin 3
  make : List Byte → Instr

/-- A command of two arguments: the window commands (R164). -/
def CommandShape.window (make : Byte → Byte → Instr) : CommandShape :=
  ⟨2, fun args => make (args.getD 0 0x00#8) (args.getD 1 0x00#8)⟩

/-- The command table of R160 under a configuration's opcodes and argument counts: what a Command frame with value v begins.
The second variants `OPC_SEGREMAP + 1` and `OPC_COMSCAN + 8` are byte sums, modulo 256: DESIGN CHOICE, assumption 24. -/
def commandOf (o : Opcodes) (v : Byte) : Option CommandShape :=
  if v = o.dispoff then some ⟨o.args.dispoff, (.dispoff ·)⟩
  else if v = o.dispon then some ⟨o.args.dispon, (.dispon ·)⟩
  else if v = o.clkdiv then some ⟨o.args.clkdiv, .clkdiv⟩
  else if v = o.chgpump then some ⟨o.args.chgpump, .chgpump⟩
  else if v = o.addrmode then some ⟨o.args.addrmode, .addrmode⟩
  else if v = o.segremap then some ⟨o.args.segremap, (.segremap false ·)⟩
  else if v = o.segremap + 1#8 then some ⟨o.args.segremap, (.segremap true ·)⟩
  else if v = o.comscan then some ⟨o.args.comscan, (.comscan false ·)⟩
  else if v = o.comscan + 8#8 then some ⟨o.args.comscan, (.comscan true ·)⟩
  else if v = o.compins then some ⟨o.args.compins, .compins⟩
  else if v = o.contrast then some ⟨o.args.contrast, .contrast⟩
  else if v = o.prechg then some ⟨o.args.prechg, .prechg⟩
  else if v = o.vcomdesel then some ⟨o.args.vcomdesel, .vcomdesel⟩
  else if v = o.resume then some ⟨o.args.resume, (.resume ·)⟩
  else if v = o.coladdr then some (.window .coladdr)
  else if v = o.pageaddr then some (.window .pageaddr)
  else none

/-- The argument bytes at the front of a run of frames. -/
inductive ArgParse where
  /-- all of them, and the frames after them -/
  | all (args : List Byte) (rest : List Frame)
  /-- the run ends with this many still expected -/
  | more (need : Nat)
  /-- a Data frame stands among them (R82) -/
  | data
  deriving DecidableEq, Repr

/-- Takes n argument bytes, each a Command frame (R110, R163, R165). -/
def takeArgs : Nat → List Frame → ArgParse
  | 0, rest => .all [] rest
  | n + 1, [] => .more (n + 1)
  | _ + 1, ⟨.data, _⟩ :: _ => .data
  | n + 1, ⟨.command, a⟩ :: rest =>
    match takeArgs n rest with
    | .all args rest => .all (a :: args) rest
    | .more need => .more need
    | .data => .data

/-- What a run of frames, beginning at an instruction boundary, holds. -/
inductive WireParse where
  /-- one whole instruction and the frames after it -/
  | complete (i : Instr) (rest : List Frame)
  /-- the beginning of an instruction, with this many argument frames still expected (R82's `need`) -/
  | more (need : Nat)
  | reject (e : DecodeError)
  deriving DecidableEq, Repr

/-- Reads the instruction at the front of a run of frames (R110: a command's length is known from its first byte; a Data
frame is pixel data and never parsed as a command). -/
def decodeFrames (o : Opcodes) : List Frame → WireParse
  | [] => .more 0
  | ⟨.data, v⟩ :: rest => .complete (.data v) rest
  | ⟨.command, v⟩ :: rest =>
    match commandOf o v with
    | none => .reject .unknownOpcode
    | some c =>
      match takeArgs c.args.val rest with
      | .all args rest => .complete (c.make args) rest
      | .more need => .more need
      | .data => .reject .dataInArguments

/-- The decoder, total on every code. -/
def decode (o : Opcodes) : Code → Except DecodeError Instr
  | .request w => decodeRequest w
  | .wire ws =>
    match decodeFrames o (ws.map Frame.ofWord) with
    | .complete i [] => .ok i
    | .complete _ (_ :: _) => .error .trailingFrames
    | .more _ => .error .truncated
    | .reject e => .error e

/-! ### The encoder -/

/-- A command on the wire: its opcode and its argument bytes, all Command frames (R110, R163, R165). -/
def commandCode (bytes : List Byte) : Code := .wire (bytes.map fun v => Frame.toWord ⟨.command, v⟩)

/-- The encoder, under a configuration's opcodes: request words by R100, R102 to R105 and R112; commands by R110 and
R160; the data frame by R109. -/
def encode (o : Opcodes) : Instr → Code
  | .writeByte v k => .request (ofLanes 0x00#8 (match k with | .command => 0x00#8 | .data => 0x01#8) v 0x01#8)
  | .init => .request 0x00000002#32
  | .setWindow => .request 0x00000003#32
  | .drawText x y len => .request (ofLanes len y x 0x04#8)
  | .dispoff args => commandCode (o.dispoff :: args)
  | .dispon args => commandCode (o.dispon :: args)
  | .clkdiv args => commandCode (o.clkdiv :: args)
  | .chgpump args => commandCode (o.chgpump :: args)
  | .addrmode args => commandCode (o.addrmode :: args)
  | .segremap r args => commandCode ((if r then o.segremap + 1#8 else o.segremap) :: args)
  | .comscan d args => commandCode ((if d then o.comscan + 8#8 else o.comscan) :: args)
  | .compins args => commandCode (o.compins :: args)
  | .contrast args => commandCode (o.contrast :: args)
  | .prechg args => commandCode (o.prechg :: args)
  | .vcomdesel args => commandCode (o.vcomdesel :: args)
  | .resume args => commandCode (o.resume :: args)
  | .coladdr a b => commandCode [o.coladdr, a, b]
  | .pageaddr a b => commandCode [o.pageaddr, a, b]
  | .data v => .wire [Frame.toWord ⟨.data, v⟩]

/-- The word by which the host asks for a request; none for an instruction of the wire. -/
def requestWord (o : Opcodes) (i : Instr) : Option Word :=
  match encode o i with
  | .request w => some w
  | .wire _ => none

/-! ### Words of the opcode table -/

/-- The argument frames the command takes whose first frame this is; none for a Data frame and for an unknown opcode. -/
def argFrames (o : Opcodes) (f : Frame) : Nat :=
  match f.kind with
  | .data => 0
  | .command => ((commandOf o f.value).map fun c => c.args.val).getD 0

/-- The frames a table word of the wire stands for: the word itself as a frame, and its argument frames as zeros. None where
a bit above bit 8 is set. -/
def tableFrames (o : Opcodes) (w : Nat) : List Frame :=
  if w < 512 then
    let f := Frame.ofWord (BitVec.ofNat 9 w)
    f :: List.replicate (argFrames o f) ⟨.command, 0x00#8⟩
  else []

/-- The instruction the decoder reads from a table word. A row of at most 16 bits is a wire row (R116): its word is the
first frame and the argument frames are zeros. A wider row is a request word. -/
def decodeTableWord (nbits w : Nat) : Option Instr :=
  if nbits ≤ 16 then
    match decode Opcodes.default (.wire ((tableFrames Opcodes.default w).map Frame.toWord)) with
    | .ok i => some i
    | .error _ => none
  else if w < 2 ^ 32 then
    match decodeRequest (BitVec.ofNat 32 w) with
    | .ok i => some i
    | .error _ => none
  else none

end Sys2Proof
end

