-- ==== Sys2Proof/Machine/State.lean ====
section
/-! DEFINITION. The state of the machine: the host registers, the engine, the transport and the pins of the block
(10_state.md), the trace that observes it (00_scope.md R11), the external controller of the reference receiver model
(20_memory.md R80 to R89), and the host's pending accesses (R10, R40, R113). Plain data throughout. -/

namespace Sys2Proof.Machine

/-! ### Host registers -/

/-- The names of the sticky error bits (R222). -/
inductive Err where
  | op
  | len
  | idx
  | busy
  | addr
  deriving DecidableEq, Repr

/-- STATUS bits 12 to 8 (R26). -/
structure ErrBits where
  op : Bool
  len : Bool
  idx : Bool
  busy : Bool
  addr : Bool
  deriving DecidableEq, Repr

/-- The host-visible registers with storage (R20). BUSY is not here: it is 1 exactly while a request runs (R37), so
`State.busy` computes it. ID is a constant and REQ holds no storage (R27, R28). -/
structure Regs where
  winValid : Bool
  initDone : Bool
  err : ErrBits
  win : Word
  curwin : Word
  settle : Word
  txcount : Word
  tb : Vector Byte 32
  deriving DecidableEq, Repr

/-! ### Engine and transport -/

/-- `cur_op` of a running request (R37). -/
inductive Op where
  | writeByte
  | init
  | setWindow
  | drawText
  deriving DecidableEq, Repr

/-- The engine (R37). `curOp = none` is `seq = IDLE` (R43). `pos` counts the frames handed to the transport (R148). -/
structure Engine where
  curOp : Option Op
  frames : List Frame
  pos : Nat
  deriving DecidableEq, Repr

/-- `tstate` (R38). -/
inductive TState where
  | idle
  | dc
  | shift
  | settle
  | rel
  deriving DecidableEq, Repr

/-- `ph` (R38). -/
inductive Phase where
  | lo
  | hi
  deriving DecidableEq, Repr

/-- The transport's hidden registers (R38). -/
structure Transport where
  tstate : TState
  sh : Byte
  nb : Fin 8
  ph : Phase
  fk : Kind
  sc : Word
  deriving DecidableEq, Repr

/-- The serial output pins, each a flip-flop (R39, R40). -/
structure Pins where
  csN : Bool
  dc : Bool
  sclk : Bool
  mosi : Bool
  deriving DecidableEq, Repr

/-! ### The receiver -/

/-- A receiver field: a value the frames have settled, or the n-th draw, an arbitrary value (R80, R81: "every receiver
field becomes an arbitrary value (a draw)"; R83 and R84 speak of a known and an unknown window). -/
inductive Drawn (α : Type) where
  | known (v : α)
  | draw (n : Nat)
  deriving DecidableEq, Repr

/-- `am` (R81). -/
inductive AddrMode where
  | horizontal
  | other
  deriving DecidableEq, Repr

/-- The external controller (R81). `gd` lists the cells of the display memory written since the last havoc, cell
`(p, c)` at address `128·p + c`; a cell not listed holds its byte of draw `gdDraw`. `pending` holds the bytes of the
command being received, opcode first; it is empty exactly when `need = 0` (R82). `draws` counts the draws taken. -/
structure Receiver where
  gd : List Host.Cell
  gdDraw : Nat
  cs : Drawn (Fin 128)
  ce : Drawn (Fin 128)
  ps : Drawn (Fin 8)
  pe : Drawn (Fin 8)
  col : Drawn (Fin 128)
  page : Drawn (Fin 8)
  am : Drawn AddrMode
  on : Drawn Bool
  pending : Drawn (List Byte)
  draws : Nat
  deriving DecidableEq, Repr

/-! ### The host -/

/-- The inputs of the block in one clock cycle (R40): `rst` and the host register port. -/
structure PortCycle where
  rst : Bool
  sel : Bool
  we : Bool
  addr : BitVec 6
  size : BitVec 2
  wdata : Word
  deriving DecidableEq, Repr

/-- What the host does next: a cycle of raw port inputs, or an instruction of the host notation (R113), which is a word
access. `lw` puts the word read into the host variable numbered r; `poll` repeats its read until the masked value is the
one wanted. -/
inductive HostOp where
  | port (p : PortCycle)
  | sw (off : BitVec 6) (v : Word)
  | lw (r : Nat) (off : BitVec 6)
  | poll (off : BitVec 6) (mask val : Word)
  deriving DecidableEq, Repr

/-- The host side: the accesses still to come, oldest first; the host variables loaded so far, by rising number; and the
`rdata` of the cycle just taken, none where it held no read. -/
structure HostSide where
  program : List HostOp
  vars : List (Nat × Word)
  rdata : Option Word
  deriving DecidableEq, Repr

/-- By which instructions the panel can be known: the model's own note of what R251, R256 and R257 say of the receiver, kept
across resets of the block, which clear INIT_DONE. Assumption 25. -/
inductive PanelNote where
  /-- No INIT has completed since power-up (R256), or a reset of the block has found something of the panel unknown (R257). -/
  | uninit
  /-- A reset has cut a frame off and no INIT has completed since: "any value" (R251; 93_implementation_defined.md U11). -/
  | cutOff
  /-- An INIT has completed. -/
  | ready
  deriving DecidableEq, Repr

/-- The whole machine. `cfg` is the configuration, which no step writes. -/
structure State where
  cfg : Params
  regs : Regs
  eng : Engine
  tx : Transport
  pins : Pins
  trace : List Frame
  rx : Receiver
  panel : PanelNote
  host : HostSide
  deriving DecidableEq, Repr

/-- Why a step stops with a fault. There is no constructor: "TRIBBLE-DPE never traps, stalls or signals the host" (R220),
and every access it refuses is recorded in a STATUS bit and the machine goes on. -/
inductive Fault where
  deriving DecidableEq, Repr

/-- Why a step has no meaning. -/
inductive Refusal where
  /-- Raised by an arm of `exec` whose instruction has no meaning yet; safe. No arm raises it. -/
  | notModelled (mnemonic : String)
  /-- Raised by an INIT accepted under an `INIT_ROM` that breaks R162: "A configuration that breaks this is not a
  configuration of this hardware; a model refuses it." Safe. The default configuration never raises it. -/
  | notThisHardware
  deriving DecidableEq, Repr

/-! ### Reset -/

/-- The registers after reset (R42). SETTLE takes the parameter `SETTLE_RESET` (R30). -/
def Regs.reset (settle : Word) : Regs where
  winValid := false
  initDone := false
  err := ⟨false, false, false, false, false⟩
  win := 0x00000000#32
  curwin := 0x00000000#32
  settle := settle
  txcount := 0x00000000#32
  tb := Vector.replicate 32 0x00#8

/-- The engine after reset (R37, R42). -/
def Engine.reset : Engine where
  curOp := none
  frames := []
  pos := 0

/-- The transport after reset (R38, R42). -/
def Transport.reset : Transport where
  tstate := .idle
  sh := 0x00#8
  nb := 7
  ph := .lo
  fk := .command
  sc := 0x00000000#32

/-- The pins after reset (R39, R42). -/
def Pins.reset : Pins where
  csN := true
  dc := false
  sclk := false
  mosi := false

/-- A receiver of which nothing is known: every field holds draw n (R80, R81). -/
def Receiver.unknown (n : Nat) : Receiver where
  gd := []
  gdDraw := n
  cs := .draw n
  ce := .draw n
  ps := .draw n
  pe := .draw n
  col := .draw n
  page := .draw n
  am := .draw n
  on := .draw n
  pending := .draw n
  draws := n + 1

/-- The host before its first access. -/
def HostSide.start : HostSide where
  program := []
  vars := []
  rdata := none

/-- The machine right after reset (R42, R252), under the default configuration: the block idle, the receiver as at
power-up, no host access pending. -/
def State.reset : State where
  cfg := Params.default
  regs := Regs.reset Params.default.settleReset
  eng := Engine.reset
  tx := Transport.reset
  pins := Pins.reset
  trace := []
  rx := Receiver.unknown 0
  panel := .uninit
  host := HostSide.start

end Sys2Proof.Machine
end

