-- ==== Sys2Proof/Machine/Memory.lean ====
section
/-! DEFINITION. The one byte memory of the model, the receiver's display memory GD (20_memory.md R81), as a list of cells
in one canonical form: addresses strictly rising, each below 128 · 8. A cell not listed has not been written since the
receiver's last havoc; it holds an arbitrary byte, so no listed byte can equal what it reads as. The block itself owns no
data memory (20_memory.md, opening). -/

namespace Sys2Proof.Machine

/-- The address of column c of page p. -/
def cellAddr (p : Fin 8) (c : Fin 128) : Nat := 128 * p.val + c.val

/-- The byte a cell is known to hold; none for a cell not written. -/
def Memory.read (m : List Host.Cell) (a : Nat) : Option Byte :=
  match m with
  | [] => none
  | (b, v) :: rest => if b = a then some v else Memory.read rest a

/-- Writes one byte, keeping the addresses rising. -/
def Memory.write (m : List Host.Cell) (a : Nat) (v : Byte) : List Host.Cell :=
  match m with
  | [] => [(a, v)]
  | (b, w) :: rest =>
    if a < b then (a, v) :: (b, w) :: rest
    else if a = b then (a, v) :: rest
    else (b, w) :: Memory.write rest a v

/-- Every address is at least `lo`, they rise strictly, and each is below `hi`. -/
def Memory.wfFrom (lo hi : Nat) (m : List Host.Cell) : Bool :=
  match m with
  | [] => true
  | (b, _) :: rest => decide (lo ≤ b) && decide (b < hi) && Memory.wfFrom (b + 1) hi rest

/-- The canonical form. -/
def Memory.wf (m : List Host.Cell) : Bool := Memory.wfFrom 0 (Config.nCols * Config.nPages) m

/-- The value a receiver field holds: the settled one, or the arbitrary value of its draw. -/
def Drawn.value {α : Type} (free : Nat → α) : Drawn α → α
  | .known v => v
  | .draw n => free n

/-! What each receiver field holds, known or arbitrary (R81): a value in every case, so that no read of one is a fault. -/

/-- `cs` (R81). -/
def Receiver.csValue (r : Receiver) : Fin 128 := r.cs.value Config.drawCs
/-- `ce` (R81). -/
def Receiver.ceValue (r : Receiver) : Fin 128 := r.ce.value Config.drawCe
/-- `ps` (R81). -/
def Receiver.psValue (r : Receiver) : Fin 8 := r.ps.value Config.drawPs
/-- `pe` (R81). -/
def Receiver.peValue (r : Receiver) : Fin 8 := r.pe.value Config.drawPe
/-- `col` (R81). -/
def Receiver.colValue (r : Receiver) : Fin 128 := r.col.value Config.drawCol
/-- `page` (R81). -/
def Receiver.pageValue (r : Receiver) : Fin 8 := r.page.value Config.drawPage
/-- `am` (R81). -/
def Receiver.amValue (r : Receiver) : AddrMode :=
  r.am.value fun n => if Config.drawHorizontal n then .horizontal else .other
/-- `on` (R81). -/
def Receiver.onValue (r : Receiver) : Bool := r.on.value Config.drawOn

/-- The byte `GD[p][c]` holds (R81): the byte written, or the arbitrary byte of the last havoc. -/
def Receiver.cell (r : Receiver) (p : Fin 8) (c : Fin 128) : Byte :=
  (Memory.read r.gd (cellAddr p c)).getD (Config.drawCell r.gdDraw (cellAddr p c))

/-- The pixel in column c and row y of the panel's memory: bit `y mod 8` of its page's byte, bit 0 the top row (R86). -/
def Receiver.pixel (r : Receiver) (y : Fin 64) (c : Fin 128) : Bool :=
  (r.cell ⟨y.val / 8, by omega⟩ c).getLsbD (y.val % 8)

end Sys2Proof.Machine
end

