-- ==== Sys2Proof/Machine/Flags.lean ====
section
/-! DEFINITION. The STATUS register: its bits, its reading and its write-one-to-clear (10_state.md R23 to R26, R41). The
block has no condition codes; these are all its flags. -/

namespace Sys2Proof.Machine

/-- `STATUS.BUSY`, 1 exactly when `seq = RUN` (R23, R37). -/
def State.busy (s : State) : Bool := s.eng.curOp.isSome

/-- The STATUS word: bit 0 BUSY, bit 1 WIN_VALID, bit 2 INIT_DONE, bits 8 to 12 the error bits, the rest 0 (R23 to R26). -/
def statusWord (busy : Bool) (r : Regs) : Word :=
  0#19 ++ BitVec.ofBool r.err.addr ++ BitVec.ofBool r.err.busy ++ BitVec.ofBool r.err.idx ++ BitVec.ofBool r.err.len
    ++ BitVec.ofBool r.err.op ++ 0#5 ++ BitVec.ofBool r.initDone ++ BitVec.ofBool r.winValid ++ BitVec.ofBool busy

/-- The STATUS bit of an error (R222). -/
def Err.bit : Err → Nat
  | .op => 8
  | .len => 9
  | .idx => 10
  | .busy => 11
  | .addr => 12

/-- One error bit. -/
def ErrBits.get (b : ErrBits) : Err → Bool
  | .op => b.op
  | .len => b.len
  | .idx => b.idx
  | .busy => b.busy
  | .addr => b.addr

/-- Sets one sticky error bit; one already 1 stays 1 (R221). -/
def ErrBits.set (b : ErrBits) : Err → ErrBits
  | .op => { b with op := true }
  | .len => { b with len := true }
  | .idx => { b with idx := true }
  | .busy => { b with busy := true }
  | .addr => { b with addr := true }

/-- Write one to clear: `STATUS[12:8] <- STATUS[12:8] AND NOT v[12:8]` (R26, R64). -/
def ErrBits.clear (b : ErrBits) (v : Word) : ErrBits where
  op := b.op && !v.getLsbD Err.op.bit
  len := b.len && !v.getLsbD Err.len.bit
  idx := b.idx && !v.getLsbD Err.idx.bit
  busy := b.busy && !v.getLsbD Err.busy.bit
  addr := b.addr && !v.getLsbD Err.addr.bit

end Sys2Proof.Machine
end

