-- ==== Sys2Proof/Machine/Operands.lean ====
section
/-! DEFINITION. The operands of the requests and the frame lists they make: the fields of WIN, the text buffer, the glyph
lookup, the window command, and the frames of each request as a pure function of the request word and of the registers at
acceptance (10_state.md R37, 20_memory.md R75). Every operand is an unsigned byte taken as it stands (30_encoding.md R107). -/

namespace Sys2Proof.Machine

/-- A Command frame, the spec's `C(v)` (R8). -/
def cmdFrame (v : Byte) : Frame := ⟨.command, v⟩

/-- A Data frame, the spec's `D(v)` (R8). -/
def dataFrame (v : Byte) : Frame := ⟨.data, v⟩

/-- TEXTBUFw = `{TB[4w+3], TB[4w+2], TB[4w+1], TB[4w]}` (R33, R63). -/
def textWord (tb : Vector Byte 32) (w : Fin 8) : Word :=
  ofLanes tb[4 * w.val + 3] tb[4 * w.val + 2] tb[4 * w.val + 1] tb[4 * w.val]

/-- A write of TEXTBUFw: cell `4w + b` takes byte lane b (R33, R64). -/
def setTextWord (tb : Vector Byte 32) (w : Fin 8) (v : Word) : Vector Byte 32 :=
  (((tb.set (4 * w.val) (byteLane v 0)).set (4 * w.val + 1) (byteLane v 1)).set (4 * w.val + 2) (byteLane v 2)).set
    (4 * w.val + 3) (byteLane v 3)

/-- `window_frames(a, b, c, d)` (R164): the column-address command and its arguments, then the page-address command and
its arguments, all Command frames (R165), uninterpreted (R168). -/
def windowFrames (o : Opcodes) (a b c d : Byte) : List Frame :=
  [cmdFrame o.coladdr, cmdFrame a, cmdFrame b, cmdFrame o.pageaddr, cmdFrame c, cmdFrame d]

/-- A window in the layout of WIN and CURWIN: X1, X2, Y1, Y2 from lane 0 up (R29, R31). -/
def windowWord (x1 x2 y1 y2 : Byte) : Word := ofLanes y2 y1 x2 x1

/-- The end column of a text run, `X2 = (X + 6·LEN − 1) mod 256` (R195). -/
def endColumn (x len : Byte) : Byte := BitVec.ofNat 8 (x.toNat + 6 * len.toNat - 1)

/-- `GlyphRead(i, j)` (R77, R193). -/
def glyphRead (cfg : Params) (i : Fin 41) (j : Fin 6) : Byte := cfg.glyphRom[i][j]

/-- The byte of the glyph store at address `6·i + j`; "addresses 246 and above do not exist" (R61, R77). -/
def glyphByteAt (cfg : Params) (a : Nat) : Option Byte :=
  if h : a < 246 then some (glyphRead cfg ⟨a / 6, by omega⟩ ⟨a % 6, by omega⟩) else none

/-- The glyph rows of a list of cells, where every cell is an index from 0 to 40; none where some cell exceeds 40 (R194). -/
def glyphRun : List Byte → Option (List (Fin 41))
  | [] => some []
  | b :: rest =>
    if h : b.toNat < 41 then
      match glyphRun rest with
      | some is => some (⟨b.toNat, h⟩ :: is)
      | none => none
    else none

/-- The rows a DRAW_TEXT of LEN characters draws: cells `TB[0]` to `TB[LEN−1]`; later cells are not examined (R194). -/
def textRun (tb : Vector Byte 32) (len : Byte) : Option (List (Fin 41)) := glyphRun (tb.toList.take len.toNat)

/-- The six Data frames of a glyph, column 0 first (R196). -/
def glyphFrames (cfg : Params) (i : Fin 41) : List Frame :=
  (List.finRange 6).map fun j => dataFrame (glyphRead cfg i j)

/-- `frames(WRITE_BYTE v k)` (R132). -/
def writeByteFrames (v : Byte) (k : Kind) : List Frame := [⟨k, v⟩]

/-- `frames(INIT)` (R166): the power-up bytes as Command frames (R163), the full window, 1024 zero data bytes. -/
def initFrames (cfg : Params) : List Frame :=
  cfg.initRom.map cmdFrame ++ windowFrames cfg.opc 0x00#8 0x7F#8 0x00#8 0x07#8
    ++ List.replicate Config.clearBytes (dataFrame 0x00#8)

/-- `frames(SET_WINDOW)` (R169): the window of the four fields of WIN (R29). -/
def setWindowFrames (cfg : Params) (win : Word) : List Frame :=
  windowFrames cfg.opc (byteLane win 0) (byteLane win 1) (byteLane win 2) (byteLane win 3)

/-- `frames(DRAW_TEXT X Y LEN)` (R196): the bounding window of one page (R195), then the glyph bytes in order. -/
def drawTextFrames (cfg : Params) (x y len : Byte) (run : List (Fin 41)) : List Frame :=
  windowFrames cfg.opc x (endColumn x len) y y ++ run.flatMap (glyphFrames cfg)

/-! ### The plan of a request -/

/-- What acceptance does to WIN_VALID and CURWIN: nothing, WIN_VALID cleared, or the window recorded and WIN_VALID set
(R24, R31). -/
inductive WindowNote where
  | keep
  | forget
  | record (w : Word)
  deriving DecidableEq, Repr

/-- What acceptance of a request starts (R224). -/
structure Launch where
  op : Op
  frames : List Frame
  note : WindowNote
  deriving DecidableEq, Repr

/-- The outcome of a request's own operand checks: refused with an error, or started. -/
inductive Plan where
  | reject (e : Err)
  | start (l : Launch)
  deriving DecidableEq, Repr

/-- WRITE_BYTE (R132): one frame; a Command frame makes the window unknown to the engine (R24). -/
def planWriteByte (v : Byte) (k : Kind) : Plan :=
  .start ⟨.writeByte, writeByteFrames v k, match k with | .command => .forget | .data => .keep⟩

/-- INIT (R166): CURWIN becomes 0x0700_7F00. -/
def planInit (cfg : Params) : Plan :=
  .start ⟨.init, initFrames cfg, .record (windowWord 0x00#8 0x7F#8 0x00#8 0x07#8)⟩

/-- SET_WINDOW (R169): CURWIN becomes WIN. -/
def planSetWindow (cfg : Params) (win : Word) : Plan := .start ⟨.setWindow, setWindowFrames cfg win, .record win⟩

/-- DRAW_TEXT (R194, R196): first the length check, then the index check, then the start. -/
def planDrawText (cfg : Params) (tb : Vector Byte 32) (x y len : Byte) : Plan :=
  if len.toNat = 0 ∨ 32 < len.toNat then .reject .len
  else match textRun tb len with
    | none => .reject .idx
    | some run => .start ⟨.drawText, drawTextFrames cfg x y len run, .record (windowWord x (endColumn x len) y y)⟩

/-- The registers once acceptance has noted the window and, for an INIT, cleared INIT_DONE (R24, R25, R31). -/
def Regs.noteLaunch (r : Regs) (l : Launch) : Regs :=
  let r := match l.note with
    | .keep => r
    | .forget => { r with winValid := false }
    | .record w => { r with winValid := true, curwin := w }
  if l.op = .init then { r with initDone := false } else r

end Sys2Proof.Machine
end

