-- ==== Sys2Proof/Machine/Ops.lean ====
section
/-! DEFINITION. The named operations on the state that the meanings share: raising an error and its return, acceptance of
a request, the completion of a frame, the reset of the block, the havoc of the receiver. -/

namespace Sys2Proof.Machine

/-! ### Errors

The block has no trap. What it has in the place of an exception is `raise Err(NAME)`; its only return is the host's
clearing of the bit (R220, R230, R231). -/

/-- `raise Err(NAME)` (R221): sets the sticky bit; nothing else changes, and no control is transferred (R230). -/
def raiseErr (e : Err) (s : State) : State := { s with regs := { s.regs with err := s.regs.err.set e } }

/-- The return (R231): a word write to STATUS clears each error bit whose written bit is 1 (R26). -/
def clearErrs (v : Word) (s : State) : State := { s with regs := { s.regs with err := s.regs.err.clear v } }

/-! ### Requests -/

/-- `offer(f)`: a frame starts in this cycle, T of R141; `cs_n`, `sclk` and `mosi` are unchanged (R148). -/
def offer (f : Frame) (s : State) : State :=
  { s with
    tx := { s.tx with tstate := .dc, fk := f.kind, sh := f.value, nb := 7, ph := .lo }
    pins := { s.pins with dc := f.kind.isData } }

/-- The engine takes a request: `seq <- RUN` with its frame list, and the first frame is offered in the same cycle
(R148, R224). -/
def launch (op : Op) (frames : List Frame) (s : State) : State :=
  match frames with
  | [] => { s with eng := ⟨some op, [], 0⟩ }
  | f :: rest => offer f { s with eng := ⟨some op, f :: rest, 1⟩ }

/-- Acceptance (R224): the request's own notes in the registers, and its launch. -/
def accept (l : Launch) (s : State) : State :=
  launch l.op l.frames { s with regs := s.regs.noteLaunch l }

/-- What a request word does once decoded (R229, checks 4 and 7 to 9): refused while BUSY, refused by its operand check,
or accepted. -/
def perform (plan : Plan) (s : State) : State :=
  if s.busy then raiseErr .busy s
  else match plan with
    | .reject e => raiseErr e s
    | .start l => accept l s

/-! ### Frames -/

/-- `emit(f)`: the completion of a frame (R131). -/
def emit (f : Frame) (s : State) : State :=
  { s with
    trace := s.trace ++ [f]
    regs := { s.regs with txcount := s.regs.txcount + 1#32 }
    pins := { s.pins with dc := f.kind.isData } }

/-! ### The receiver -/

/-- Havoc: every receiver field becomes an arbitrary value, a new draw (R80). -/
def Receiver.havoc (r : Receiver) : Receiver := Receiver.unknown r.draws

/-- Gives the state another receiver. -/
def State.withRx (s : State) (r : Receiver) : State := { s with rx := r }

/-! ### Reset -/

/-- A frame has started and has not been released: its select cycle, its shift or its settle interval (R141 to R144). -/
def State.frameOnWire (s : State) : Bool :=
  match s.tx.tstate with
  | .idle => false
  | .dc => true
  | .shift => true
  | .settle => true
  | .rel => false

/-- The field is known, whatever its value. -/
def Drawn.isKnown {α : Type} : Drawn α → Bool
  | .known _ => true
  | .draw _ => false

/-- The whole panel state is known, every field of R81, as a completed INIT leaves it (R89). -/
def Receiver.settled (r : Receiver) : Bool :=
  decide (r.gd.length = Config.nCols * Config.nPages) && r.cs.isKnown && r.ce.isKnown && r.ps.isKnown && r.pe.isKnown
    && r.col.isKnown && r.page.isKnown && r.am.isKnown && r.on.isKnown && r.pending.isKnown

/-- The note after a reset of the block: a frame is cut off (R251), or something of the panel is unknown, and then only a
completed INIT re-establishes it (R257), or all of it is known and stays so (R81). -/
def State.noteAfterReset (s : State) : PanelNote :=
  if s.frameOnWire then .cutOff
  else if s.panel = .ready ∧ s.rx.settled = false then .uninit
  else s.panel

/-- A clock edge with `rst = 1` (R250): every register of the block takes its reset value and nothing else happens. A
frame on the wire is cut short and the receiver goes to havoc until a completed INIT (R251, U11); otherwise the receiver is
untouched, since the block has no reset pin to it (R81, R257). The host's own side goes on. -/
def resetBlock (s : State) : State :=
  { s with
    regs := Regs.reset s.cfg.settleReset
    eng := Engine.reset
    tx := Transport.reset
    pins := Pins.reset
    trace := []
    rx := if s.frameOnWire then s.rx.havoc else s.rx
    panel := s.noteAfterReset }

/-! ### Events -/

/-- What one agent's share of a clock edge comes to: it is done, or an instruction is there to run. -/
inductive Event where
  | done (s : State)
  | run (i : Instr) (s : State)
  deriving DecidableEq, Repr

end Sys2Proof.Machine
end

