-- ==== Sys2Proof/Machine/Bus.lean ====
section
/-! DEFINITION. The meanings of the controller commands and of the data frame: what the reference receiver does when the
last frame of one has reached it (20_memory.md R80 to R87). The block reads none of this (R80). -/

namespace Sys2Proof.Machine

/-- Column-address command (R84): a legal window sets the columns and moves the pointer to the first; any other is
controller-defined, so havoc. -/
def Receiver.setColumns (r : Receiver) (a b : Byte) : Receiver :=
  if h : a.toNat ≤ b.toNat ∧ b.toNat ≤ 127 then
    { r with
      cs := .known ⟨a.toNat, by omega⟩
      ce := .known ⟨b.toNat, by omega⟩
      col := .known ⟨a.toNat, by omega⟩ }
  else r.havoc

/-- Page-address command (R85). -/
def Receiver.setPages (r : Receiver) (a b : Byte) : Receiver :=
  if h : a.toNat ≤ b.toNat ∧ b.toNat ≤ 7 then
    { r with
      ps := .known ⟨a.toNat, by omega⟩
      pe := .known ⟨b.toNat, by omega⟩
      page := .known ⟨a.toNat, by omega⟩ }
  else r.havoc

/-- Addressing-mode command (R87): the argument 0x00 is horizontal, any other is not. R87 speaks of one argument; under a
configuration that counts another number what the command does is unknown, so havoc (R80, assumption 10). -/
def Receiver.setMode (r : Receiver) (args : List Byte) : Receiver :=
  match args with
  | [a] => { r with am := .known (if a = 0x00#8 then .horizontal else .other) }
  | _ => r.havoc

/-- Display-off and display-on (R87). -/
def Receiver.setOn (r : Receiver) (on : Bool) : Receiver := { r with on := .known on }

/-- A command that "acts on receiver state this model does not hold" (R87). -/
def Receiver.unheld (r : Receiver) : Receiver := r

/-- The pointer's next place, "column-then-page" (R83): the next column of the window, or its first column on the next
page, or the window's first cell. -/
def advance (cs ce : Fin 128) (ps pe : Fin 8) (col : Fin 128) (page : Fin 8) : Fin 128 × Fin 8 :=
  if h : col.val + 1 ≤ ce.val then (⟨col.val + 1, by omega⟩, page)
  else if h : page.val + 1 ≤ pe.val then (cs, ⟨page.val + 1, by omega⟩)
  else (cs, ps)

/-- A data byte (R83): stored at the pointer, which then advances, where the mode is horizontal and the window and the
pointer are known; havoc otherwise. -/
def Receiver.putData (r : Receiver) (v : Byte) : Receiver :=
  match r.am, r.cs, r.ce, r.ps, r.pe, r.col, r.page with
  | .known .horizontal, .known cs, .known ce, .known ps, .known pe, .known col, .known page =>
    { r with
      gd := Memory.write r.gd (cellAddr page col) v
      col := .known (advance cs ce ps pe col page).1
      page := .known (advance cs ce ps pe col page).2 }
  | _, _, _, _, _, _, _ => r.havoc

/-- An INIT runs, whose frames are what leaves the panel known (R89). -/
def State.initRuns (s : State) : Bool := s.eng.curOp == some .init

/-- Window commands and data frames act: an INIT has completed, and no reset has lost the panel since (R256, R257, R251); or
one runs. -/
def State.initReached (s : State) : Bool := s.panel == .ready || s.initRuns

/-- The commands that set one field by R87 act: at all times but from a frame cut off by a reset until a completed INIT, when
every field has any value (R251; 93_implementation_defined.md U11). -/
def State.fieldsAct (s : State) : Bool := s.panel != .cutOff || s.initRuns

/-- What a window command or a data frame does to the receiver, and havoc where it does not act (R256). -/
def State.panelDo (s : State) (r : Receiver) : State := s.withRx (if s.initReached then r else s.rx.havoc)

/-- What a command of R87 that sets one field does to the receiver, and havoc where it does not act (R251). -/
def State.fieldDo (s : State) (r : Receiver) : State := s.withRx (if s.fieldsAct then r else s.rx.havoc)

/-- display-off (R87), whatever arguments a configuration gives it. -/
def execDispoff (s : State) : Host.Outcome State Fault Refusal := .next (s.fieldDo (s.rx.setOn false))

/-- display-on (R87), whatever arguments a configuration gives it. -/
def execDispon (s : State) : Host.Outcome State Fault Refusal := .next (s.fieldDo (s.rx.setOn true))

/-- set-clock-divider (R87). -/
def execClkdiv (_divider : List Byte) (s : State) : Host.Outcome State Fault Refusal := .next (s.withRx s.rx.unheld)

/-- enable-charge-pump (R87). -/
def execChgpump (_setting : List Byte) (s : State) : Host.Outcome State Fault Refusal := .next (s.withRx s.rx.unheld)

/-- set-addressing-mode (R87). -/
def execAddrmode (args : List Byte) (s : State) : Host.Outcome State Fault Refusal := .next (s.fieldDo (s.rx.setMode args))

/-- set-segment-remap (R87): it changes how memory maps to the glass, not the memory (R86). -/
def execSegremap (_r : Bool) (s : State) : Host.Outcome State Fault Refusal := .next (s.withRx s.rx.unheld)

/-- set-scan-direction (R87): it changes how memory maps to the glass, not the memory (R86). -/
def execComscan (_d : Bool) (s : State) : Host.Outcome State Fault Refusal := .next (s.withRx s.rx.unheld)

/-- set-common-pin-config (R87). -/
def execCompins (_layout : List Byte) (s : State) : Host.Outcome State Fault Refusal := .next (s.withRx s.rx.unheld)

/-- set-contrast (R87). -/
def execContrast (_level : List Byte) (s : State) : Host.Outcome State Fault Refusal := .next (s.withRx s.rx.unheld)

/-- set-precharge-period (R87). -/
def execPrechg (_periods : List Byte) (s : State) : Host.Outcome State Fault Refusal := .next (s.withRx s.rx.unheld)

/-- set-deselect-level (R87). -/
def execVcomdesel (_level : List Byte) (s : State) : Host.Outcome State Fault Refusal := .next (s.withRx s.rx.unheld)

/-- resume-display (R87). -/
def execResume (s : State) : Host.Outcome State Fault Refusal := .next (s.withRx s.rx.unheld)

/-- set-column-address (R84). -/
def execColaddr (start stop : Byte) (s : State) : Host.Outcome State Fault Refusal :=
  .next (s.panelDo (s.rx.setColumns start stop))

/-- set-page-address (R85). -/
def execPageaddr (start stop : Byte) (s : State) : Host.Outcome State Fault Refusal :=
  .next (s.panelDo (s.rx.setPages start stop))

/-- A data frame (R83). -/
def execData (value : Byte) (s : State) : Host.Outcome State Fault Refusal := .next (s.panelDo (s.rx.putData value))

end Sys2Proof.Machine
end

