-- ==== Sys2Proof/Machine/Requests.lean ====
section
/-! DEFINITION. The meanings of the four host requests: what a word write of the request word to REQ does, at the edge it
takes effect (60_exceptions.md R224, R229). The frames themselves leave in the cycles that follow (Transport.lean). -/

namespace Sys2Proof.Machine

/-- WRITE_BYTE: send one raw frame (R132). -/
def execWriteByte (value : Byte) (kind : Kind) (s : State) : Host.Outcome State Fault Refusal :=
  .next (perform (planWriteByte value kind) s)

/-- INIT: power up, configure and clear the controller (R166). An idle block whose `INIT_ROM` breaks R162 is not this
hardware, and the model refuses it. -/
def execInit (s : State) : Host.Outcome State Fault Refusal :=
  if s.busy || s.cfg.initRomOk then .next (perform (planInit s.cfg) s) else .refused .notThisHardware

/-- SET_WINDOW: send the window held in WIN (R169). -/
def execSetWindow (s : State) : Host.Outcome State Fault Refusal :=
  .next (perform (planSetWindow s.cfg s.regs.win) s)

/-- DRAW_TEXT: draw LEN glyphs of the text buffer at column X of page Y (R194, R196). -/
def execDrawText (x y len : Byte) (s : State) : Host.Outcome State Fault Refusal :=
  .next (perform (planDrawText s.cfg s.regs.tb x y len) s)

end Sys2Proof.Machine
end

