-- ==== Sys2Proof/Machine/Dispatch.lean ====
section
/-! DEFINITION. The one match that gives each instruction its meaning. -/

namespace Sys2Proof.Machine

def exec (i : Instr) (s : State) : Host.Outcome State Fault Refusal :=
  match i with
  | .writeByte value kind => Sys2Proof.Machine.execWriteByte value kind s
  | .init => Sys2Proof.Machine.execInit s
  | .setWindow => Sys2Proof.Machine.execSetWindow s
  | .drawText x y len => Sys2Proof.Machine.execDrawText x y len s
  | .dispoff _args => Sys2Proof.Machine.execDispoff s
  | .dispon _args => Sys2Proof.Machine.execDispon s
  | .clkdiv args => Sys2Proof.Machine.execClkdiv args s
  | .chgpump args => Sys2Proof.Machine.execChgpump args s
  | .addrmode args => Sys2Proof.Machine.execAddrmode args s
  | .segremap r _args => Sys2Proof.Machine.execSegremap r s
  | .comscan d _args => Sys2Proof.Machine.execComscan d s
  | .compins args => Sys2Proof.Machine.execCompins args s
  | .contrast args => Sys2Proof.Machine.execContrast args s
  | .prechg args => Sys2Proof.Machine.execPrechg args s
  | .vcomdesel args => Sys2Proof.Machine.execVcomdesel args s
  | .resume _args => Sys2Proof.Machine.execResume s
  | .coladdr start stop => Sys2Proof.Machine.execColaddr start stop s
  | .pageaddr start stop => Sys2Proof.Machine.execPageaddr start stop s
  | .data value => Sys2Proof.Machine.execData value s

end Sys2Proof.Machine
end

