-- ==== Sys2Proof/Machine/HostPort.lean ====
section
/-! DEFINITION. The host register port: reads (20_memory.md R63, R65, R66), writes and their checks (R64, R67,
60_exceptions.md R229), and the host that issues them (00_scope.md R10, 30_encoding.md R113). -/

namespace Sys2Proof.Machine

/-! ### The port -/

/-- An aligned word access: `size = 2` and `addr[1:0] = 0` (R65). -/
def aligned (addr : BitVec 6) (size : BitVec 2) : Bool := size == 2#2 && addr.extractLsb' 0 2 == 0#2

/-- The TEXTBUF word an offset from 0x20 up names (R33). -/
def textIndex (addr : BitVec 6) : Fin 8 := ⟨(addr.extractLsb' 2 3).toNat, (addr.extractLsb' 2 3).isLt⟩

/-- `HostRead` (R63): the register at an aligned offset; 0 for REQ, for the reserved offset and for a refused access (R65). -/
def readRegs (busy : Bool) (r : Regs) (addr : BitVec 6) (size : BitVec 2) : Word :=
  if aligned addr size then
    match addr.toNat with
    | 0x00 => Config.idValue
    | 0x04 => statusWord busy r
    | 0x08 => 0x00000000#32
    | 0x0C => r.win
    | 0x10 => r.curwin
    | 0x14 => r.settle
    | 0x18 => r.txcount
    | 0x1C => 0x00000000#32
    | _ => textWord r.tb (textIndex addr)
  else 0x00000000#32

/-- A host read of the state as it stands at the start of the cycle (R63, R67). It changes nothing (R66). -/
def hostRead (s : State) (addr : BitVec 6) (size : BitVec 2) : Word := readRegs s.busy s.regs addr size

/-- What a host write comes to once checked. -/
inductive HostAction where
  | nothing
  | raise (e : Err)
  | clear (v : Word)
  | setWin (v : Word)
  | setSettle (v : Word)
  | setText (w : Fin 8) (v : Word)
  | request (i : Instr)
  deriving DecidableEq, Repr

/-- The checks of a host write in their order (R229, 1 to 6); 7 and 8 are DRAW_TEXT's own. BUSY is its value at the start
of the cycle (R67). -/
def hostWrite (busy : Bool) (addr : BitVec 6) (size : BitVec 2) (v : Word) : HostAction :=
  if !aligned addr size then .raise .addr
  else match addr.toNat with
    | 0x00 => .raise .addr
    | 0x10 => .raise .addr
    | 0x18 => .raise .addr
    | 0x1C => .raise .addr
    | 0x04 => .clear v
    | off =>
      if busy then .raise .busy
      else match off with
        | 0x0C => .setWin v
        | 0x14 => .setSettle v
        | 0x08 =>
          match decodeRequest v with
          | .ok i => .request i
          | .error _ => .raise .op
        | _ => .setText (textIndex addr) v

/-- The host's share of a cycle: a write where the port is selected for one, else nothing (R40). -/
def hostAction (busy : Bool) (p : PortCycle) : HostAction :=
  if p.sel && p.we then hostWrite busy p.addr p.size p.wdata else .nothing

/-- A store to WIN, SETTLE or the text buffer, or an error or clear, in the registers (R64). -/
def HostAction.onRegs (a : HostAction) (r : Regs) : Regs :=
  match a with
  | .nothing => r
  | .raise e => { r with err := r.err.set e }
  | .clear v => { r with err := r.err.clear v }
  | .setWin v => { r with win := v }
  | .setSettle v => { r with settle := v }
  | .setText w v => { r with tb := setTextWord r.tb w v }
  | .request _ => r

/-- The action taken: a request is there to run, everything else is done. -/
def HostAction.event (a : HostAction) (s : State) : Event :=
  match a with
  | .nothing => .done s
  | .raise e => .done (raiseErr e s)
  | .clear v => .done (clearErrs v s)
  | .setWin v => .done { s with regs := { s.regs with win := v } }
  | .setSettle v => .done { s with regs := { s.regs with settle := v } }
  | .setText w v => .done { s with regs := { s.regs with tb := setTextWord s.regs.tb w v } }
  | .request i => .run i s

/-! ### The host -/

/-- A cycle without an access and without reset. -/
def PortCycle.idle : PortCycle := ⟨false, false, false, 0#6, 0#2, 0x00000000#32⟩

/-- The port inputs of a word read. -/
def PortCycle.readWord (off : BitVec 6) : PortCycle := ⟨false, true, false, off, 2#2, 0x00000000#32⟩

/-- The port inputs of a word write. -/
def PortCycle.writeWord (off : BitVec 6) (v : Word) : PortCycle := ⟨false, true, true, off, 2#2, v⟩

/-- A cycle with `rst = 1` and no access. -/
def PortCycle.reset : PortCycle := ⟨true, false, false, 0#6, 0#2, 0x00000000#32⟩

/-- The port inputs a host operation presents in one cycle (R40, R113). -/
def HostOp.inputs : HostOp → PortCycle
  | .port p => p
  | .sw off v => .writeWord off v
  | .lw _ off => .readWord off
  | .poll off _ _ => .readWord off

/-- The port inputs of this cycle; no access where the host has nothing to do. -/
def State.inputs (s : State) : PortCycle :=
  match s.host.program with
  | [] => .idle
  | op :: _ => op.inputs

/-- A read takes place: the port is selected, not for a write, and the block is not held in reset (R40, R250). -/
def PortCycle.reads (p : PortCycle) : Bool := p.sel && !p.we && !p.rst

/-- Sets a host variable, keeping the variables by rising number. -/
def setVar (vars : List (Nat × Word)) (r : Nat) (v : Word) : List (Nat × Word) :=
  match vars with
  | [] => [(r, v)]
  | (q, w) :: rest =>
    if r < q then (r, v) :: (q, w) :: rest
    else if r = q then (r, v) :: rest
    else (q, w) :: setVar rest r v

/-- The host after this cycle (R113): one operation done, or a `poll` that has not yet seen its value and repeats. -/
def State.retire (s : State) : HostSide :=
  let p := s.inputs
  let v := hostRead s p.addr p.size
  let rdata := if p.reads then some v else none
  match s.host.program with
  | [] => { s.host with rdata := rdata }
  | op :: rest =>
    match op with
    | .port _ => ⟨rest, s.host.vars, rdata⟩
    | .sw _ _ => ⟨rest, s.host.vars, rdata⟩
    | .lw r _ => ⟨rest, setVar s.host.vars r v, rdata⟩
    | .poll _ mask val => ⟨if v &&& mask = val then rest else op :: rest, s.host.vars, rdata⟩

/-- The window offset of a host bus address (R60): `addr − BASE` inside the 64 bytes from `BASE`; an access outside them
is the platform's. -/
def windowOffset (cfg : Params) (hostAddr : Nat) : Option (BitVec 6) :=
  if cfg.base ≤ hostAddr ∧ hostAddr < cfg.base + 64 then some (BitVec.ofNat 6 (hostAddr - cfg.base)) else none

end Sys2Proof.Machine
end

