-- ==== Sys2Proof/Machine/Transport.lean ====
section
/-! DEFINITION. The transport's state machine, clock edge by clock edge (40_transport.md R148, the pin waveform of R141 to
R146), and what the receiver makes of each frame it releases (20_memory.md R82). -/

namespace Sys2Proof.Machine

/-- The edge into T_REL: `cs_n` is released and the frame completes (R145, R148). -/
def release (s : State) : State × Option Frame :=
  (emit ⟨s.tx.fk, s.tx.sh⟩
    { s with tx := { s.tx with tstate := .rel }, pins := { s.pins with csN := true } },
   some ⟨s.tx.fk, s.tx.sh⟩)

/-- The edge out of T_DC (R148): the bus is asserted with bit 7 on `mosi`. -/
def startShift (s : State) : State :=
  { s with
    tx := { s.tx with tstate := .shift, ph := .lo }
    pins := { s.pins with csN := false, mosi := s.tx.sh.getLsbD 7, sclk := false } }

/-- The edge from a LO phase to its HI phase (R142, R148). -/
def clockHigh (s : State) : State :=
  { s with tx := { s.tx with ph := .hi }, pins := { s.pins with sclk := true } }

/-- The edge from a HI phase to the next bit's LO phase (R142, R148). -/
def nextBit (s : State) : State :=
  { s with
    tx := { s.tx with nb := ⟨s.tx.nb.val - 1, by omega⟩, ph := .lo }
    pins := { s.pins with sclk := false, mosi := s.tx.sh.getLsbD (s.tx.nb.val - 1) } }

/-- The edge after bit 0's HI phase (R144, R148): to T_REL where SETTLE is 0, else to T_SETTLE with `sc` loaded. -/
def endShift (s : State) : State × Option Frame :=
  let s := { s with pins := { s.pins with sclk := false } }
  if s.regs.settle = 0#32 then release s
  else ({ s with tx := { s.tx with tstate := .settle, sc := s.regs.settle } }, none)

/-- An edge in T_SETTLE (R144, R148). -/
def settleEdge (s : State) : State × Option Frame :=
  if s.tx.sc = 1#32 then release s
  else ({ s with tx := { s.tx with sc := s.tx.sc - 1#32 } }, none)

/-- The edge out of T_REL (R145, R148): the request's next frame starts, or the request ends. INIT_DONE is set as an INIT
ends (R167), and an INIT has then completed (R256). -/
def afterRelease (s : State) : State :=
  match s.eng.frames[s.eng.pos]? with
  | some f => offer f { s with eng := { s.eng with pos := s.eng.pos + 1 } }
  | none =>
    { s with
      tx := { s.tx with tstate := .idle }
      eng := { s.eng with curOp := none }
      panel := if s.eng.curOp = some .init then .ready else s.panel
      regs := { s.regs with initDone := if s.eng.curOp = some .init then true else s.regs.initDone } }

/-- One clock edge of the transport with `rst = 0`, and the frame it completes, if any (R148). -/
def transportEdge (s : State) : State × Option Frame :=
  match s.tx.tstate with
  | .idle => (s, none)
  | .dc => (startShift s, none)
  | .shift =>
    match s.tx.ph with
    | .lo => (clockHigh s, none)
    | .hi => if 0 < s.tx.nb.val then (nextBit s, none) else endShift s
  | .settle => settleEdge s
  | .rel => (afterRelease s, none)

/-! ### The receiver takes a frame -/

/-- The bytes of the command being received: those taken since it began, or the arbitrary ones of a draw (R81). -/
def Receiver.bytes (r : Receiver) : List Byte := r.pending.value Config.drawPending

/-- `need`, the argument frames still expected (R82). -/
def Receiver.need (o : Opcodes) (r : Receiver) : Nat :=
  match decodeFrames o (r.bytes.map cmdFrame) with
  | .more n => n
  | .complete _ _ => 0
  | .reject _ => 0

/-- The receiver's parse of one frame (R82): the frame completes an instruction, which is there to run with `need = 0`;
or it is one byte more of a command; or it is an unknown opcode or a data byte among arguments, and the receiver goes to
havoc. -/
def takeFrame (f : Frame) (s : State) : Event :=
  match decodeFrames s.cfg.opc (s.rx.bytes.map cmdFrame ++ [f]) with
  | .complete i [] => .run i (s.withRx { s.rx with pending := .known [] })
  | .complete _ (_ :: _) => .done (s.withRx s.rx.havoc)
  | .more _ => .done (s.withRx { s.rx with pending := .known (s.rx.bytes ++ [f.value]) })
  | .reject _ => .done (s.withRx s.rx.havoc)

/-- The transport's and the receiver's share of a clock edge: the receiver takes each frame as it completes (R88). -/
def wireEvent (s : State) : Event :=
  match transportEdge s with
  | (s, none) => .done s
  | (s, some f) => takeFrame f s

end Sys2Proof.Machine
end

