-- ==== Sys2Proof/Machine/Step.lean ====
section
/-! DEFINITION. One step of the machine: one rising edge of `clk` (10_state.md R40). The state before is the cycle that
ends at the edge, with the port inputs the host presents in it; the state after is the cycle that begins. -/

namespace Sys2Proof.Machine

/-- An event carried out: an instruction that is there to run is executed. -/
def Event.finish : Event → Host.Outcome State Fault Refusal
  | .done s => .next s
  | .run i s => exec i s

/-- The rest of an edge, where the first share went on. -/
def andThen (o : Host.Outcome State Fault Refusal) (k : State → Host.Outcome State Fault Refusal) :
    Host.Outcome State Fault Refusal :=
  match o with
  | .next s => k s
  | .fault r => .fault r
  | .refused r => .refused r

/-- One clock edge. Reset overrides everything (R250). Otherwise the transport and the receiver take their edge and the
host's access takes effect, judged on the state at the start of the cycle (R67). -/
def step (s : State) : Host.Outcome State Fault Refusal :=
  let s0 := { s with host := s.retire }
  if s.inputs.rst then .next (resetBlock s0)
  else andThen (wireEvent s0).finish fun s1 => ((hostAction s.busy s.inputs).event s1).finish

/-- The state about to complete, in its last settle cycle, the last of the given frames, the receiver having taken the
others and the host having nothing to do: where `step` fetches a wire instruction. -/
def State.withWire (s : State) (frames : List Frame) : State :=
  match frames.getLast? with
  | none => s
  | some f =>
    { s with
      eng := ⟨some .writeByte, frames, frames.length⟩
      tx := { s.tx with tstate := .settle, fk := f.kind, sh := f.value, nb := 0, ph := .hi, sc := 0x00000001#32 }
      pins := ⟨false, f.kind.isData, false, f.value.getLsbD 0⟩
      rx := { s.rx with pending := .known (frames.dropLast.map Frame.value) }
      host := { s.host with program := [] } }

/-- The instruction of a table word where the next step fetches it: a request word as the host's next write, to REQ; a wire
word as the frames that reach the receiver next (assumption 8). -/
def State.withFetchWord (s : State) (nbits w : Nat) : State :=
  if nbits ≤ 16 then s.withWire (tableFrames s.cfg.opc w)
  else { s with host := { s.host with program := .sw 0x08#6 (BitVec.ofNat 32 w) :: s.host.program } }

end Sys2Proof.Machine
end

