-- ==== Sys2Proof/Machine/Assembler.lean ====
section
/-! DEFINITION. The assembler and the host notation (30_encoding.md R112 to R115): the mnemonics of the requests, the
pseudo-instructions and their expansions, the character index function, and the bring-up order (70_reset_and_hazards.md
R255) as a host program. -/

namespace Sys2Proof.Machine

/-- The register offsets by name (R20). -/
def Offset.id : BitVec 6 := 0x00#6
def Offset.status : BitVec 6 := 0x04#6
def Offset.req : BitVec 6 := 0x08#6
def Offset.win : BitVec 6 := 0x0C#6
def Offset.curwin : BitVec 6 := 0x10#6
def Offset.settle : BitVec 6 := 0x14#6
def Offset.txcount : BitVec 6 := 0x18#6
/-- TEXTBUFw, `0x20 + 4·w` (R33). -/
def Offset.textbuf (w : Nat) : BitVec 6 := BitVec.ofNat 6 (0x20 + 4 * w)

/-- Why the assembler rejects a line. -/
inductive AsmError where
  /-- a character outside the supported alphabet (R115) -/
  | badCharacter
  /-- a text that is empty or longer than 32 characters (R114) -/
  | badLength
  /-- an instruction of the wire in the place of a request mnemonic (R114) -/
  | notARequest
  deriving DecidableEq, Repr

/-- The pseudo-instructions (R114). -/
inductive Pseudo where
  | wait
  | clrErr
  | req (r : Instr)
  | setWin (x1 x2 y1 y2 : Byte)
  | text (s : String) (x y : Byte)
  | indexed (is : List Byte) (x y : Byte)
  deriving DecidableEq, Repr

/-- `idx(c)` (R115); no character maps to 40 (R192). -/
def charIndex (c : Char) : Option Byte :=
  if '0'.toNat ≤ c.toNat ∧ c.toNat ≤ '9'.toNat then some (BitVec.ofNat 8 (c.toNat - '0'.toNat))
  else if 'A'.toNat ≤ c.toNat ∧ c.toNat ≤ 'Z'.toNat then some (BitVec.ofNat 8 (10 + (c.toNat - 'A'.toNat)))
  else if c = '.' then some 36#8
  else if c = ':' then some 37#8
  else if c = ' ' then some 38#8
  else if c = '%' then some 39#8
  else none

/-- The indices of a text, where every character has one. -/
def textIndices : List Char → Option (List Byte)
  | [] => some []
  | c :: rest =>
    match charIndex c, textIndices rest with
    | some i, some is => some (i :: is)
    | _, _ => none

/-- The TEXTBUF writes of a run, missing characters as 0x00, and its DRAW_TEXT (R114). -/
def drawRun (is : List Byte) (x y : Byte) : Except AsmError (List HostOp) :=
  if is.length = 0 ∨ 32 < is.length then .error .badLength
  else
    .ok (((List.range ((is.length + 3) / 4)).map fun w =>
        HostOp.sw (Offset.textbuf w)
          (ofLanes (is.getD (4 * w + 3) 0x00#8) (is.getD (4 * w + 2) 0x00#8) (is.getD (4 * w + 1) 0x00#8)
            (is.getD (4 * w) 0x00#8)))
      ++ [HostOp.sw Offset.req (ofLanes (BitVec.ofNat 8 is.length) y x 0x04#8)])

/-- The expansion of a pseudo-instruction into host operations (R114). A request word does not depend on the opcodes of
the wire, so any opcode table serves. -/
def Pseudo.expand : Pseudo → Except AsmError (List HostOp)
  | .wait => .ok [.poll Offset.status 0x00000001#32 0x00000000#32]
  | .clrErr => .ok [.sw Offset.status 0x00001F00#32]
  | .req r =>
    match requestWord Opcodes.default r with
    | some w => .ok [.sw Offset.req w]
    | none => .error .notARequest
  | .setWin x1 x2 y1 y2 => .ok [.sw Offset.win (ofLanes y2 y1 x2 x1), .sw Offset.req 0x00000003#32]
  | .text s x y =>
    match textIndices s.toList with
    | some is => drawRun is x y
    | none => .error .badCharacter
  | .indexed is x y => drawRun is x y

/-- A program of pseudo-instructions. -/
def assemble : List Pseudo → Except AsmError (List HostOp)
  | [] => .ok []
  | p :: rest =>
    match p.expand, assemble rest with
    | .ok ops, .ok more => .ok (ops ++ more)
    | .error e, _ => .error e
    | .ok _, .error e => .error e

/-- Steps 1 to 4 of the bring-up order (R255): hold and release `rst`, wait `T_CTRL_READY`, write the wanted settle
interval, INIT, and WAIT. -/
def bringUp (cfg : Params) (settle : Word) : List HostOp :=
  [.port .reset] ++ List.replicate cfg.tCtrlReady (.port .idle)
    ++ [.sw Offset.settle settle, .sw Offset.req 0x00000002#32, .poll Offset.status 0x00000001#32 0x00000000#32]

/-- The text runs of step 5, and of a refresh (step 6): each a fill of the text buffer, a DRAW_TEXT and a WAIT (R255). -/
def drawRuns : List (String × Byte × Byte) → List Pseudo
  | [] => []
  | (s, x, y) :: rest => .text s x y :: .wait :: drawRuns rest

end Sys2Proof.Machine
end

