-- ==== Sys2Proof/Machine/Transaction.lean ====
section
/-! DEFINITION. The block at transaction level (00_scope.md R11, 10_state.md R43): a frame is one event, and the host's
access and the engine's step are two separate atomic steps (20_memory.md R67, 40_transport.md R133). The machine of
Step.lean is the pin level; `State.txn` is its view at this level, and the two are compared in the obligations. -/

namespace Sys2Proof.Machine

/-- The transaction-level state (R43): the host registers, the engine with `pos` counting completed frames, the level of
`dc` after the last frame, and the trace. -/
structure Dpe where
  regs : Regs
  eng : Engine
  dc : Bool
  trace : List Frame
  deriving DecidableEq, Repr

/-- `STATUS.BUSY` (R37). -/
def Dpe.busy (d : Dpe) : Bool := d.eng.curOp.isSome

/-- `raise Err(NAME)` (R221). -/
def Dpe.raise (e : Err) (d : Dpe) : Dpe := { d with regs := { d.regs with err := d.regs.err.set e } }

/-- `emit(f)` (R131). -/
def Dpe.emit (f : Frame) (d : Dpe) : Dpe :=
  { d with
    trace := d.trace ++ [f]
    regs := { d.regs with txcount := d.regs.txcount + 1#32 }
    dc := f.kind.isData }

/-- The engine step (R133): enabled exactly when a request runs and a frame is left; the last frame ends the request. -/
def Dpe.engineStep (d : Dpe) : Option Dpe :=
  if d.busy then
    match d.eng.frames[d.eng.pos]? with
    | none => none
    | some f =>
      let d := d.emit f
      let d := { d with eng := { d.eng with pos := d.eng.pos + 1 } }
      if d.eng.pos = d.eng.frames.length then
        some { d with
          regs := { d.regs with initDone := if d.eng.curOp = some .init then true else d.regs.initDone }
          eng := { d.eng with curOp := none } }
      else some d
  else none

/-- Acceptance (R224), with `pos` 0. -/
def Dpe.accept (l : Launch) (d : Dpe) : Dpe :=
  { d with regs := d.regs.noteLaunch l, eng := ⟨some l.op, l.frames, 0⟩ }

/-- The plan of a request under a configuration and the registers; none for an instruction that is no request, or for an
INIT of a configuration that R162 excludes. -/
def requestPlan (cfg : Params) (r : Regs) : Instr → Option Plan
  | .writeByte v k => some (planWriteByte v k)
  | .init => if cfg.initRomOk then some (planInit cfg) else none
  | .setWindow => some (planSetWindow cfg r.win)
  | .drawText x y len => some (planDrawText cfg r.tb x y len)
  | .dispoff _ => none
  | .dispon _ => none
  | .clkdiv _ => none
  | .chgpump _ => none
  | .addrmode _ => none
  | .segremap _ _ => none
  | .comscan _ _ => none
  | .compins _ => none
  | .contrast _ => none
  | .prechg _ => none
  | .vcomdesel _ => none
  | .resume _ => none
  | .coladdr _ _ => none
  | .pageaddr _ _ => none
  | .data _ => none

/-- A decoded request at an idle block: refused by its operand check or accepted. -/
def Dpe.perform (plan : Plan) (d : Dpe) : Dpe :=
  match plan with
  | .reject e => d.raise e
  | .start l => d.accept l

/-- The host step (R64, R229); none where the model refuses the configuration (R162). -/
def Dpe.hostWrite (cfg : Params) (addr : BitVec 6) (size : BitVec 2) (v : Word) (d : Dpe) : Option Dpe :=
  match Sys2Proof.Machine.hostWrite d.busy addr size v with
  | .request i => (requestPlan cfg d.regs i).map fun plan => d.perform plan
  | a => some { d with regs := a.onRegs d.regs }

/-- A host read (R63). -/
def Dpe.hostRead (addr : BitVec 6) (size : BitVec 2) (d : Dpe) : Word := readRegs d.busy d.regs addr size

/-- The `dc` level after a trace: that of its last frame, 0 before any (R39, R146). -/
def dcAfter (trace : List Frame) : Bool :=
  match trace.getLast? with
  | none => false
  | some f => f.kind.isData

/-- The completed frames of the running request: a frame on the wire has been handed over and is not complete (R148). -/
def State.completed (s : State) : Nat := if s.frameOnWire then s.eng.pos - 1 else s.eng.pos

/-- The transaction-level view of a machine. -/
def State.txn (s : State) : Dpe where
  regs := s.regs
  eng := { s.eng with pos := s.completed }
  dc := dcAfter s.trace
  trace := s.trace

end Sys2Proof.Machine
end

