-- ==== Sys2Proof/Safety.lean ====
section
/-! DEFINITION. The terms in which claims about the machine are stated: what holds in every reachable state, what the
pins and the receiver do over several cycles, and two runs compared. -/

namespace Sys2Proof.Machine

/-! ### The invariant -/

/-- The engine and the transport agree (R22, R37, R43): the engine is idle exactly when the transport is, and while a
request runs the frame on the transport is the last one handed to it. INIT_DONE is 0 while an INIT runs, and 1 only where an
INIT has completed (R25). -/
structure EngineOk (s : State) : Prop where
  idle : s.eng.curOp = none ↔ s.tx.tstate = .idle
  pos : s.busy = true → 1 ≤ s.eng.pos ∧ s.eng.pos ≤ s.eng.frames.length
  current : s.busy = true → s.eng.frames[s.eng.pos - 1]? = some ⟨s.tx.fk, s.tx.sh⟩
  initDone : s.eng.curOp = some .init → s.regs.initDone = false
  panel : s.regs.initDone = true → s.panel = .ready

/-- The level of `mosi` after a trace: bit 0 of its last frame, 0 before any (R146). -/
def mosiAfter (trace : List Frame) : Bool :=
  match trace.getLast? with
  | none => false
  | some f => f.value.getLsbD 0

/-- The pins are those of the transport's state (R141 to R146). -/
structure PinsOk (s : State) : Prop where
  csN : s.pins.csN = true ↔ s.tx.tstate ≠ .shift ∧ s.tx.tstate ≠ .settle
  sclk : s.pins.sclk = true ↔ s.tx.tstate = .shift ∧ s.tx.ph = .hi
  dcFrame : s.tx.tstate ≠ .idle → s.pins.dc = s.tx.fk.isData
  dcBetween : s.tx.tstate = .idle ∨ s.tx.tstate = .rel → s.pins.dc = dcAfter s.trace
  mosiShift : s.tx.tstate = .shift → s.pins.mosi = s.tx.sh.getLsbD s.tx.nb.val
  mosiSettle : s.tx.tstate = .settle → s.pins.mosi = s.tx.sh.getLsbD 0
  mosiBetween : s.tx.tstate = .idle ∨ s.tx.tstate = .rel ∨ s.tx.tstate = .dc → s.pins.mosi = mosiAfter s.trace

/-- The counters (R32, R38, R142, R144). -/
structure CountersOk (s : State) : Prop where
  txcount : s.regs.txcount = BitVec.ofNat 32 s.trace.length
  settle : s.tx.tstate = .settle → 1 ≤ s.tx.sc.toNat ∧ s.tx.sc.toNat ≤ s.regs.settle.toNat
  select : s.tx.tstate = .dc → s.tx.nb = 7 ∧ s.tx.ph = .lo
  released : s.tx.tstate = .rel → s.trace.getLast? = some ⟨s.tx.fk, s.tx.sh⟩

/-- The receiver: the display memory is in canonical form, and the bytes of a command in progress are a proper beginning
of one (R81, R82). -/
structure ReceiverOk (s : State) : Prop where
  memory : Memory.wf s.rx.gd = true
  parse : ∀ bytes, s.rx.pending = .known bytes → ∃ n, decodeFrames s.cfg.opc (bytes.map cmdFrame) = .more n

/-- What holds in every state the machine reaches from reset. -/
structure Inv (s : State) : Prop where
  engine : EngineOk s
  pins : PinsOk s
  counters : CountersOk s
  receiver : ReceiverOk s

/-! ### Before the first INIT -/

/-- Nothing is known of the window, the pointer and the display memory (R256). -/
structure Receiver.panelUnknown (r : Receiver) : Prop where
  gd : r.gd = []
  cs : ∃ n, r.cs = .draw n
  ce : ∃ n, r.ce = .draw n
  ps : ∃ n, r.ps = .draw n
  pe : ∃ n, r.pe = .draw n
  col : ∃ n, r.col = .draw n
  page : ∃ n, r.page = .draw n

/-- Nothing is known of the addressing mode and of `on` (R251; 93_implementation_defined.md U11). -/
structure Receiver.fieldsUnknown (r : Receiver) : Prop where
  am : ∃ n, r.am = .draw n
  on : ∃ n, r.on = .draw n

/-! ### Instructions by where they come from -/

/-- A host request (R101); every other instruction is one of the wire. -/
def isRequest : Instr → Bool
  | .writeByte _ _ => true
  | .init => true
  | .setWindow => true
  | .drawText _ _ _ => true
  | .dispoff _ => false
  | .dispon _ => false
  | .clkdiv _ => false
  | .chgpump _ => false
  | .addrmode _ => false
  | .segremap _ _ => false
  | .comscan _ _ => false
  | .compins _ => false
  | .contrast _ => false
  | .prechg _ => false
  | .vcomdesel _ => false
  | .resume _ => false
  | .coladdr _ _ => false
  | .pageaddr _ _ => false
  | .data _ => false

/-- A word of R108: reserved bits set, an OP without a request, or a spare operand bit set. -/
def illegalWord (w : Word) : Prop :=
  w.extractLsb' 4 4 ≠ 0#4
    ∨ w.extractLsb' 0 4 = 0x0#4 ∨ 0x5#4 ≤ w.extractLsb' 0 4
    ∨ (w.extractLsb' 0 4 = 0x1#4 ∧ (¬(byteLane w 2 = 0x00#8 ∨ byteLane w 2 = 0x01#8) ∨ byteLane w 3 ≠ 0x00#8))
    ∨ ((w.extractLsb' 0 4 = 0x2#4 ∨ w.extractLsb' 0 4 = 0x3#4) ∧ w.extractLsb' 8 24 ≠ 0#24)

/-! ### Runs -/

/-- The block is idle: no request runs and the transport is at rest. -/
def State.atRest (s : State) : Prop := s.busy = false ∧ s.tx.tstate = .idle

/-- The host has no reset among its operations to come; it may read, write and poll. -/
def State.noResetAhead (s : State) : Prop := ∀ op ∈ s.host.program, op.inputs.rst = false

/-- The state a cycle's edge begins from: the host's operation presented, and its answer read. -/
def State.presented (s : State) : State := { s with host := s.retire }

/-- The same state with a cycle of no access in the place of the host's next operation. -/
def State.withoutAccess (s : State) : State :=
  { s with host := { s.host with program := .port .idle :: s.host.program.tail } }

/-- An outcome with the host's side replaced, so that two runs can be compared in everything else. -/
def forgetHost (o : Host.Outcome State Fault Refusal) : Host.Outcome State Fault Refusal :=
  andThen o fun s => .next { s with host := HostSide.start }

/-- The state with the error bits replaced. -/
def withErrs (b : ErrBits) (s : State) : State := { s with regs := { s.regs with err := b } }

/-- The pins in each of the next n cycles, while the machine goes on. -/
def pinsOver : Nat → State → List Pins
  | 0, _ => []
  | n + 1, s =>
    match step s with
    | .next t => t.pins :: pinsOver n t
    | .fault _ => []
    | .refused _ => []

/-- The pins of the shift of a frame, bits n−1 down to 0, two cycles a bit (R142). -/
def shiftPins (dc : Bool) (v : Byte) : Nat → List Pins
  | 0 => []
  | n + 1 => ⟨false, dc, false, v.getLsbD n⟩ :: ⟨false, dc, true, v.getLsbD n⟩ :: shiftPins dc v n

/-- The receiver takes a list of frames, one after the other (R71, R82). -/
def feed : List Frame → State → Host.Outcome State Fault Refusal
  | [], s => .next s
  | f :: rest, s => andThen (takeFrame f s).finish (feed rest)

/-- How many Data frames a list holds (R197). -/
def dataCount (fs : List Frame) : Nat := fs.countP fun f => f.kind.isData

end Sys2Proof.Machine
end

