-- ==== Sys2Proof/Certificates/Slice0/Obligations.lean ====
section
/-! DEFINITION. The statements for the provers, from the numbered rules of spec/. -/

open Sys2Proof Sys2Proof.Machine

/-! ### Encoding -/

/-- Words written out from the spec's encodings: the examples of R102, the words of R103 and R104, the example of R105,
and one command of each argument count and a data frame by R109 and R160. -/
def Obligations.DecodesSpecWords : Prop :=
  decode Opcodes.default (.request 0x0001A501#32) = .ok (.writeByte 0xA5#8 .data)
    ∧ decode Opcodes.default (.request 0x0000AE01#32) = .ok (.writeByte 0xAE#8 .command)
    ∧ decode Opcodes.default (.request 0x00000002#32) = .ok .init
    ∧ decode Opcodes.default (.request 0x00000003#32) = .ok .setWindow
    ∧ decode Opcodes.default (.request 0x03020A04#32) = .ok (.drawText 10#8 2#8 3#8)
    ∧ decode Opcodes.default (.wire [0x0AE#9]) = .ok (.dispoff [])
    ∧ decode Opcodes.default (.wire [0x081#9, 0x0CF#9]) = .ok (.contrast [0xCF#8])
    ∧ decode Opcodes.default (.wire [0x021#9, 0x010#9, 0x050#9]) = .ok (.coladdr 0x10#8 0x50#8)
    ∧ decode Opcodes.default (.wire [0x1A5#9]) = .ok (.data 0xA5#8)

/-- Decoding an encoded instruction gives it back, for every instruction that has the arguments its configuration counts,
every operand, every opcode table in which no two commands share an opcode, and every argument count (R100 to R106, R109,
R110, R160). -/
def Obligations.DecodeEncode : Prop :=
  ∀ o : Opcodes, o.wellFormed = true → ∀ i : Instr, i.fits o = true → decode o (encode o i) = .ok i

/-- The wire is self-delimiting (R110): an instruction's frames decode to it and leave whatever follows. -/
def Obligations.WireSelfDelimiting : Prop :=
  ∀ (o : Opcodes) (i : Instr) (ws : List FrameWord) (rest : List Frame), o.wellFormed = true → i.fits o = true →
    encode o i = .wire ws → decodeFrames o (ws.map Frame.ofWord ++ rest) = .complete i rest

/-- A run of frames has one meaning and a wire instruction one encoding (R109, R110, R160): what decodes has as many
arguments as the configuration counts for its command, which is at most two, and the frames taken are its encoding. -/
def Obligations.WireHasOneEncoding : Prop :=
  ∀ (o : Opcodes) (fs rest : List Frame) (i : Instr), decodeFrames o fs = .complete i rest →
    i.fits o = true ∧ ∃ ws, encode o i = .wire ws ∧ 1 ≤ ws.length ∧ ws.length ≤ 3 ∧ fs = ws.map Frame.ofWord ++ rest

/-- A request word has one meaning and a request one word: what decodes to a request is its encoding (R100 to R106, R112). -/
def Obligations.RequestWordsUnique : Prop :=
  ∀ (o : Opcodes) (w : Word) (i : Instr), decodeRequest w = .ok i → isRequest i = true ∧ encode o i = .request w

/-- R108: the illegal words, written to REQ of an idle block, raise ERR_OP with no other effect, and every other word is
one of the four legal forms, which the step runs. -/
def Obligations.IllegalWordsRaiseErrOp : Prop :=
  ∀ (s : State) (w : Word), s.atRest → s.inputs = .writeWord 0x08#6 w →
    (illegalWord w → step s = .next (raiseErr .op s.presented))
      ∧ (¬ illegalWord w → ∃ i, isRequest i = true ∧ decodeRequest w = .ok i ∧ step s = exec i s.presented)

/-! ### The step -/

/-- A step runs the decoded request: an idle block whose host writes a request word to REQ, by `sw` or by raw port inputs,
executes the instruction the word decodes to, the host's operation being done (R64, R224). That `rdata` is none after a
cycle without a read is the model's choice, assumption 17. -/
def Obligations.StepRunsRequest : Prop :=
  ∀ (s : State) (w : Word) (i : Instr) (op : HostOp) (rest : List HostOp), s.atRest → s.host.program = op :: rest →
    op.inputs = .writeWord 0x08#6 w → decodeRequest w = .ok i →
    step s = exec i { s with host := { program := rest, vars := s.host.vars, rdata := none } }

/-- A step runs the decoded wire instruction: at the edge where the transport completes a frame that completes a command,
or a data frame, by R82's parse, the receiver executes it, its parse state being empty again, on the state the transport
leaves. That it does so at that very edge is the model's choice, assumption 12. A frame that completes in a cycle with a
host access is the subject of WritePriority, BusyRefusesHostWrites and ReadsHaveNoSideEffect, which compare the edge with
one that has none. -/
def Obligations.StepRunsWire : Prop :=
  ∀ (s t : State) (f : Frame) (i : Instr), s.inputs = .idle → transportEdge s.presented = (t, some f) →
    decodeFrames s.cfg.opc (s.rx.bytes.map cmdFrame ++ [f]) = .complete i [] →
    step s = exec i (t.withRx { s.rx with pending := .known [] })

/-- The machine never faults, and refuses one thing only: an INIT, written to REQ of an idle block by an aligned word write,
under an `INIT_ROM` that is not this hardware's (R162, R220; that the refusal stands at INIT's acceptance is the model's
choice, assumption 15). -/
def Obligations.StepStopsOnlyForOtherHardware : Prop :=
  ∀ s : State, (∃ t, step s = .next t)
    ∨ (step s = .refused .notThisHardware ∧ s.cfg.initRomOk = false ∧ s.busy = false
        ∧ s.inputs.rst = false ∧ s.inputs.sel = true ∧ s.inputs.we = true ∧ s.inputs.addr = 0x08#6 ∧ s.inputs.size = 2#2
        ∧ decodeRequest s.inputs.wdata = .ok .init)

/-! ### The requests -/

/-- WRITE_BYTE on an idle block is accepted, for every byte and both kinds: the engine runs the one frame, the transport
selects its kind, and a Command frame clears WIN_VALID (R24, R132, R148). -/
def Obligations.WriteByteAccepted : Prop :=
  ∀ (v : Byte) (k : Kind) (s : State), s.busy = false →
    exec (.writeByte v k) s = .next { s with
      regs := { s.regs with winValid := if k = .command then false else s.regs.winValid }
      eng := { curOp := some .writeByte, frames := [⟨k, v⟩], pos := 1 }
      tx := { s.tx with tstate := .dc, fk := k, sh := v, nb := 7, ph := .lo }
      pins := { s.pins with dc := k.isData } }

/-- INIT on an idle block with a legal `INIT_ROM` is accepted (R161 to R163, R166): its frames are the power-up bytes as
Command frames, the full window and 1024 zero data bytes; INIT_DONE is cleared, WIN_VALID set and CURWIN 0x0700_7F00. -/
def Obligations.InitAccepted : Prop :=
  ∀ s : State, s.busy = false → s.cfg.initRomOk = true →
    exec .init s = .next { s with
      regs := { s.regs with initDone := false, winValid := true, curwin := 0x07007F00#32 }
      eng :=
        { curOp := some .init
          frames := s.cfg.initRom.map (Frame.mk .command)
            ++ [⟨.command, s.cfg.opc.coladdr⟩, ⟨.command, 0x00#8⟩, ⟨.command, 0x7F#8⟩,
                ⟨.command, s.cfg.opc.pageaddr⟩, ⟨.command, 0x00#8⟩, ⟨.command, 0x07#8⟩]
            ++ List.replicate 1024 ⟨.data, 0x00#8⟩
          pos := 1 }
      tx := { s.tx with tstate := .dc, fk := .command, sh := s.cfg.opc.dispoff, nb := 7, ph := .lo }
      pins := { s.pins with dc := false } }

/-- INIT on an idle block whose `INIT_ROM` omits, repeats or reorders a step is refused by the model (R162). That the
refusal stands at INIT's acceptance is the model's choice, assumption 15. -/
def Obligations.InitRefusesOtherHardware : Prop :=
  ∀ s : State, s.busy = false → s.cfg.initRomOk = false → exec .init s = .refused .notThisHardware

/-- SET_WINDOW on an idle block is accepted for every WIN (R164, R168, R169): its frames are the column command and X1, X2,
then the page command and Y1, Y2, as stored; WIN_VALID is set and CURWIN is WIN. -/
def Obligations.SetWindowAccepted : Prop :=
  ∀ s : State, s.busy = false →
    exec .setWindow s = .next { s with
      regs := { s.regs with winValid := true, curwin := s.regs.win }
      eng :=
        { curOp := some .setWindow
          frames := [⟨.command, s.cfg.opc.coladdr⟩, ⟨.command, s.regs.win.extractLsb' 0 8⟩,
            ⟨.command, s.regs.win.extractLsb' 8 8⟩, ⟨.command, s.cfg.opc.pageaddr⟩,
            ⟨.command, s.regs.win.extractLsb' 16 8⟩, ⟨.command, s.regs.win.extractLsb' 24 8⟩]
          pos := 1 }
      tx := { s.tx with tstate := .dc, fk := .command, sh := s.cfg.opc.coladdr, nb := 7, ph := .lo }
      pins := { s.pins with dc := false } }

/-- DRAW_TEXT on an idle block, with LEN from 1 to 32 and every examined cell an index up to 40, is accepted (R77, R195,
R196): the window of columns X to (X + 6·LEN − 1) mod 256 on page Y, then for each cell the six bytes of its glyph from
the store's address 6·index on; WIN_VALID is set and CURWIN is that window. -/
def Obligations.DrawTextAccepted : Prop :=
  ∀ (x y len : Byte) (s : State), s.busy = false → 1 ≤ len.toNat → len.toNat ≤ 32 →
    (∀ k, k < len.toNat → (s.regs.tb.toList.getD k 0#8).toNat ≤ 40) →
    exec (.drawText x y len) s = .next { s with
      regs := { s.regs with
        winValid := true
        curwin := y ++ y ++ BitVec.ofNat 8 ((x.toNat + 6 * len.toNat - 1) % 256) ++ x }
      eng :=
        { curOp := some .drawText
          frames := [⟨.command, s.cfg.opc.coladdr⟩, ⟨.command, x⟩,
              ⟨.command, BitVec.ofNat 8 ((x.toNat + 6 * len.toNat - 1) % 256)⟩,
              ⟨.command, s.cfg.opc.pageaddr⟩, ⟨.command, y⟩, ⟨.command, y⟩]
            ++ (List.range len.toNat).flatMap fun k => (List.range 6).map fun j =>
                ⟨.data, (glyphByteAt s.cfg (6 * (s.regs.tb.toList.getD k 0#8).toNat + j)).getD 0#8⟩
          pos := 1 }
      tx := { s.tx with tstate := .dc, fk := .command, sh := s.cfg.opc.coladdr, nb := 7, ph := .lo }
      pins := { s.pins with dc := false } }

/-- R194: DRAW_TEXT's checks in their order, after the check for BUSY common to all requests. A LEN of 0 or above 32 raises
ERR_LEN; else an examined cell above 40 raises ERR_IDX; neither does anything else. The cells from TB[LEN] on are not
examined: with the examined ones legal the request is accepted whatever the others hold. -/
def Obligations.DrawTextChecks : Prop :=
  ∀ (x y len : Byte) (s : State),
    (s.busy = true → exec (.drawText x y len) s = .next (raiseErr .busy s)) ∧ (s.busy = false →
    (len.toNat = 0 ∨ 32 < len.toNat → exec (.drawText x y len) s = .next (raiseErr .len s))
      ∧ (1 ≤ len.toNat → len.toNat ≤ 32 → (∃ k, k < len.toNat ∧ 40 < (s.regs.tb.toList.getD k 0#8).toNat) →
          exec (.drawText x y len) s = .next (raiseErr .idx s))
      ∧ (1 ≤ len.toNat → len.toNat ≤ 32 → (∀ k, k < len.toNat → (s.regs.tb.toList.getD k 0#8).toNat ≤ 40) →
          ∃ t, exec (.drawText x y len) s = .next t ∧ t.busy = true ∧ t.regs.err = s.regs.err))

/-- A request written while a request runs raises ERR_BUSY and does nothing else (R132, R166, R169, R196: "ERR_BUSY if
written while BUSY"). -/
def Obligations.BusyDiscardsRequests : Prop :=
  ∀ (i : Instr) (s : State), isRequest i = true → s.busy = true → exec i s = .next (raiseErr .busy s)

/-- What a request leaves unchanged, accepted or refused: the configuration, the trace, the receiver and every byte of its
memory, the host, WIN, SETTLE, TXCOUNT, the text buffer; the pins but `dc`; and where it is accepted the error bits
(R132, R166, R169, R196, R200). -/
def Obligations.RequestsFrame : Prop :=
  ∀ (i : Instr) (s t : State), isRequest i = true → exec i s = .next t →
    t.cfg = s.cfg ∧ t.trace = s.trace ∧ t.rx = s.rx ∧ t.panel = s.panel ∧ t.host = s.host
      ∧ t.regs.win = s.regs.win ∧ t.regs.settle = s.regs.settle ∧ t.regs.txcount = s.regs.txcount
      ∧ t.regs.tb = s.regs.tb
      ∧ t.pins.csN = s.pins.csN ∧ t.pins.sclk = s.pins.sclk ∧ t.pins.mosi = s.pins.mosi ∧ t.tx.sc = s.tx.sc
      ∧ (∀ p c, t.rx.cell p c = s.rx.cell p c)
      ∧ (t.eng ≠ s.eng → t.regs.err = s.regs.err)
      ∧ (i ≠ .init → t.regs.initDone = s.regs.initDone)

/-- R170: the frames of SET_WINDOW depend on the four WIN fields and on the two window opcodes alone. Two idle states that
agree on these run the same frames, whatever else they hold. -/
def Obligations.SetWindowPure : Prop :=
  ∀ s s' : State, s.busy = false → s'.busy = false → s.regs.win = s'.regs.win →
    s.cfg.opc.coladdr = s'.cfg.opc.coladdr → s.cfg.opc.pageaddr = s'.cfg.opc.pageaddr →
    ∃ t t', exec .setWindow s = .next t ∧ exec .setWindow s' = .next t' ∧ t.eng.frames = t'.eng.frames

/-- R197: an accepted DRAW_TEXT has exactly 6·LEN Data frames, and where the run does not pass column 255 that is the width
of its window, X2 − X + 1. -/
def Obligations.DrawTextCounts : Prop :=
  ∀ (x y len : Byte) (s t : State), s.busy = false → exec (.drawText x y len) s = .next t → t.busy = true →
    dataCount t.eng.frames = 6 * len.toNat
      ∧ (x.toNat + 6 * len.toNat - 1 ≤ 255 →
          6 * len.toNat = (byteLane t.regs.curwin 1).toNat - (byteLane t.regs.curwin 0).toNat + 1)

/-- R199: a single character i at an origin with X ≤ 250 emits the window [X, X+5] on page Y and then the six bytes of
row i in order. -/
def Obligations.SingleGlyph : Prop :=
  ∀ (i : Fin 41) (x y : Byte) (s : State), s.busy = false → x.toNat ≤ 250 →
    s.regs.tb.toList.getD 0 0#8 = BitVec.ofNat 8 i.val →
    ∃ t, exec (.drawText x y 1#8) s = .next t
      ∧ t.eng.frames = windowFrames s.cfg.opc x (x + 5#8) y y
          ++ [⟨.data, glyphRead s.cfg i 0⟩, ⟨.data, glyphRead s.cfg i 1⟩, ⟨.data, glyphRead s.cfg i 2⟩,
              ⟨.data, glyphRead s.cfg i 3⟩, ⟨.data, glyphRead s.cfg i 4⟩, ⟨.data, glyphRead s.cfg i 5⟩]

/-- R171: but for WRITE_BYTE, the only command bytes a request sends are those of `INIT_ROM`, in an INIT, and the window
command of the window it records in CURWIN. -/
def Obligations.CommandBytesSent : Prop :=
  ∀ (i : Instr) (s t : State), isRequest i = true → (∀ v k, i ≠ .writeByte v k) → s.busy = false →
    exec i s = .next t → t.busy = true →
    ∀ f ∈ t.eng.frames, f.kind = .command →
      (i = .init ∧ f.value ∈ s.cfg.initRom)
        ∨ f ∈ windowFrames s.cfg.opc (byteLane t.regs.curwin 0) (byteLane t.regs.curwin 1)
            (byteLane t.regs.curwin 2) (byteLane t.regs.curwin 3)

/-! ### Errors and flags -/

/-- R221: raising an error sets its STATUS bit, which stays 1 if it was 1, and changes no other bit of STATUS, no other
register, no engine, transport or pin state, and no trace. -/
def Obligations.RaiseErrSetsOneBit : Prop :=
  ∀ (e : Err) (s : State),
    statusWord s.busy (raiseErr e s).regs = statusWord s.busy s.regs ||| (1#32 <<< e.bit)
      ∧ raiseErr e s = { s with regs := { s.regs with err := (raiseErr e s).regs.err } }

/-- The write-one-to-clear of STATUS (R26, R64): the bits 12:8 written as 1 are cleared, and no other bit of STATUS
changes. -/
def Obligations.StatusWriteClears : Prop :=
  ∀ (v : Word) (s : State),
    statusWord s.busy (clearErrs v s).regs = statusWord s.busy s.regs &&& ~~~(v &&& 0x00001F00#32)
      ∧ clearErrs v s = { s with regs := { s.regs with err := (clearErrs v s).regs.err } }

/-- A set error bit blocks nothing (R228): whatever the error bits hold, every instruction comes out the same in all
else. -/
def Obligations.ErrorBitsBlockNothing : Prop :=
  ∀ (i : Instr) (s : State) (b : ErrBits),
    andThen (exec i (withErrs b s)) (fun t => .next (withErrs b t))
      = andThen (exec i s) (fun t => .next (withErrs b t))

/-- INIT_DONE (R25, R167): out of reset it falls only as an INIT is accepted and rises only as an INIT ends. The model's note of
the panel, assumption 25: `ready` begins only as an INIT ends, out of reset; it ends only at a reset that cuts a frame off
(R251; in its select cycle as well, assumption 11) or finds something of the panel unknown (R257). `cutOff` begins only as a
reset cuts a frame off, and only `ready` ends it. -/
def Obligations.InitDoneChanges : Prop :=
  (∀ s t : State, s.inputs.rst = false → step s = .next t → t.regs.initDone ≠ s.regs.initDone →
    (t.regs.initDone = false ∧ s.busy = false ∧ t.eng.curOp = some .init)
      ∨ (t.regs.initDone = true ∧ s.eng.curOp = some .init ∧ t.busy = false))
      ∧ ∀ s t : State, step s = .next t →
        (t.panel = .ready → s.panel ≠ .ready →
          s.inputs.rst = false ∧ s.eng.curOp = some .init ∧ t.busy = false ∧ t.regs.initDone = true)
        ∧ (s.panel = .ready → t.panel ≠ .ready → s.inputs.rst = true
          ∧ (s.tx.tstate = .dc ∨ s.tx.tstate = .shift ∨ s.tx.tstate = .settle ∨ s.rx.settled = false))
        ∧ (t.panel = .cutOff → s.panel ≠ .cutOff → s.inputs.rst = true
          ∧ (s.tx.tstate = .dc ∨ s.tx.tstate = .shift ∨ s.tx.tstate = .settle))
        ∧ (s.panel = .cutOff → t.panel = .cutOff ∨ t.panel = .ready)

/-- WIN_VALID and CURWIN (R24, R31): out of reset WIN_VALID falls only as a WRITE_BYTE of kind Command is accepted, and
WIN_VALID rises or CURWIN changes only as an INIT, a SET_WINDOW or a DRAW_TEXT is accepted, which leaves WIN_VALID 1. -/
def Obligations.WindowNoteChanges : Prop :=
  ∀ s t : State, s.inputs.rst = false → step s = .next t →
    (t.regs.winValid = false → s.regs.winValid = true →
      s.busy = false ∧ t.eng.curOp = some .writeByte ∧ ∃ v, t.eng.frames = [⟨.command, v⟩])
      ∧ ((t.regs.winValid = true ∧ s.regs.winValid = false) ∨ t.regs.curwin ≠ s.regs.curwin →
          s.busy = false ∧ t.regs.winValid = true
            ∧ (t.eng.curOp = some .init ∨ t.eng.curOp = some .setWindow ∨ t.eng.curOp = some .drawText))

/-! ### The host port -/

/-- R229, and with it R226 and R227: reset overrides everything in its cycle; otherwise the checks of a host write in their
order, on the state at the start of the cycle, each against the same edge with no access in its place, for a write by `sw`
or by raw port inputs. Checks 7 and 8 are DRAW_TEXT's, made as the request runs. -/
def Obligations.WritePriority : Prop :=
  ∀ s : State,
    let p := s.inputs
    p.sel = true → p.we = true → (p.rst = true → step s = .next (resetBlock s.presented)) ∧ (p.rst = false →
    let off := p.addr.toNat
    let word := p.size = 2#2 ∧ off % 4 = 0
    let readOnly := off = 0x00 ∨ off = 0x10 ∨ off = 0x18 ∨ off = 0x1C
    let after := fun k => andThen (step s.withoutAccess) k
    (¬ word → step s = after fun t => .next (raiseErr .addr t))
      ∧ (word → readOnly → step s = after fun t => .next (raiseErr .addr t))
      ∧ (word → off = 0x04 → step s = after fun t => .next (clearErrs p.wdata t))
      ∧ (word → ¬ readOnly → off ≠ 0x04 → s.busy = true → step s = after fun t => .next (raiseErr .busy t))
      ∧ (word → s.busy = false → off = 0x0C →
          step s = after fun t => .next { t with regs := { t.regs with win := p.wdata } })
      ∧ (word → s.busy = false → off = 0x14 →
          step s = after fun t => .next { t with regs := { t.regs with settle := p.wdata } })
      ∧ (∀ w : Fin 8, word → s.busy = false → off = 0x20 + 4 * w.val →
          step s = after fun t => .next { t with regs := { t.regs with tb := setTextWord t.regs.tb w p.wdata } })
      ∧ (word → s.busy = false → off = 0x08 → illegalWord p.wdata →
          step s = after fun t => .next (raiseErr .op t))
      ∧ (∀ i, word → s.busy = false → off = 0x08 → decodeRequest p.wdata = .ok i → step s = after (exec i))
      ∧ (∀ (x y len : Byte) (t : State), t.busy = false →
          (len.toNat = 0 ∨ 32 < len.toNat → exec (.drawText x y len) t = .next (raiseErr .len t))
            ∧ (¬(len.toNat = 0 ∨ 32 < len.toNat) →
                (∃ k, k < len.toNat ∧ 40 < (t.regs.tb.toList.getD k 0#8).toNat) →
                exec (.drawText x y len) t = .next (raiseErr .idx t))))

/-- R227: an aligned word write to REQ, WIN, SETTLE or a TEXTBUF while BUSY raises ERR_BUSY and is otherwise as if the host
had made no access, and a write to STATUS is accepted. -/
def Obligations.BusyRefusesHostWrites : Prop :=
  ∀ s : State, s.busy = true → s.inputs.rst = false → s.inputs.sel = true → s.inputs.we = true → s.inputs.size = 2#2 →
    let off := s.inputs.addr
    (off = 0x08#6 ∨ off = 0x0C#6 ∨ off = 0x14#6 ∨ (0x20 ≤ off.toNat ∧ off.toNat % 4 = 0) →
      step s = andThen (step s.withoutAccess) fun t => .next (raiseErr .busy t))
      ∧ (off = 0x04#6 → step s = andThen (step s.withoutAccess) fun t => .next (clearErrs s.inputs.wdata t))

/-- R63: an aligned word read, by `lw`, by `poll` or by raw port inputs, answers with the register at its offset as it stands
at the start of the cycle, and `lw` puts the answer into its variable. -/
def Obligations.ReadsReturnRegisters : Prop :=
  ∀ s : State, s.inputs.rst = false → s.inputs.sel = true → s.inputs.we = false → s.inputs.size = 2#2 →
    s.inputs.addr.toNat % 4 = 0 →
    let off := s.inputs.addr
    ∃ (t : State) (v : Word), step s = .next t ∧ t.host.rdata = some v
      ∧ (∀ r o rest, s.host.program = .lw r o :: rest →
          t.host.vars = setVar s.host.vars r v ∧ t.host.program = rest)
      ∧ (off = 0x00#6 → v = 0x54524231#32)
      ∧ (off = 0x04#6 → v = statusWord s.busy s.regs)
      ∧ (off = 0x08#6 → v = 0#32)
      ∧ (off = 0x0C#6 → v = s.regs.win)
      ∧ (off = 0x10#6 → v = s.regs.curwin)
      ∧ (off = 0x14#6 → v = s.regs.settle)
      ∧ (off = 0x18#6 → v = s.regs.txcount)
      ∧ (off = 0x1C#6 → v = 0#32)
      ∧ (∀ w : Fin 8, off.toNat = 0x20 + 4 * w.val → ∀ b, b < 4 →
          byteLane v b = s.regs.tb.toList.getD (4 * w.val + b) 0#8)

/-- No host read has a side effect (R66): a cycle with a read of any offset and any size, by `lw`, by `poll` or by raw port
inputs, leaves everything but the host as a cycle with no access does. -/
def Obligations.ReadsHaveNoSideEffect : Prop :=
  ∀ s : State, s.inputs.rst = false → s.inputs.we = false → forgetHost (step s) = forgetHost (step s.withoutAccess)

/-- R65: an access that is not an aligned word access is refused, whatever the host operation. A write changes no register
and sets ERR_ADDR; a read returns 0, changes nothing and does not set it. -/
def Obligations.OnlyAlignedWords : Prop :=
  ∀ s : State, s.inputs.rst = false → s.inputs.sel = true → (s.inputs.size ≠ 2#2 ∨ s.inputs.addr.toNat % 4 ≠ 0) →
    (s.inputs.we = true → step s = andThen (step s.withoutAccess) fun t => .next (raiseErr .addr t))
      ∧ (s.inputs.we = false → forgetHost (step s) = forgetHost (step s.withoutAccess)
          ∧ ∃ t, step s = .next t ∧ t.host.rdata = some 0#32
              ∧ ∀ r off rest, s.host.program = .lw r off :: rest → t.host.vars = setVar s.host.vars r 0#32)

/-- A write of TEXTBUFw to an idle block (R33): cell 4·w + b takes byte lane b of the word, and every other cell keeps its
value. -/
def Obligations.TextBufferStore : Prop :=
  ∀ (s : State) (w : Fin 8) (v : Word), s.atRest → s.inputs = .writeWord (BitVec.ofNat 6 (0x20 + 4 * w.val)) v →
    ∃ t, step s = .next t
      ∧ (∀ b, b < 4 → t.regs.tb.toList.getD (4 * w.val + b) 0#8 = byteLane v b)
      ∧ (∀ k, k < 4 * w.val ∨ 4 * w.val + 4 ≤ k → t.regs.tb.toList.getD k 0#8 = s.regs.tb.toList.getD k 0#8)

/-- `poll` (R113): the host repeats its read until the masked value is the one wanted, and then goes on; every other
operation takes one cycle. -/
def Obligations.HostGoesOn : Prop :=
  ∀ (s t : State) (op : HostOp) (rest : List HostOp), s.host.program = op :: rest → step s = .next t →
    (∀ off mask val, op = .poll off mask val →
      t.host.program = if hostRead s off 2#2 &&& mask = val then rest else op :: rest)
      ∧ ((∀ off mask val, op ≠ .poll off mask val) → t.host.program = rest)

/-! ### The receiver -/

/-- R84, once an INIT has completed or while one runs (R256, read as in assumption 25): the column-address command with a ≤ b ≤ 127 sets the columns
of the window and moves the pointer to column a. Any other operands are controller-defined, and the receiver goes to havoc,
before an INIT too. Nothing else changes. -/
def Obligations.ColumnAddress : Prop :=
  ∀ (a b : Byte) (s : State),
    (∀ h : a.toNat ≤ b.toNat ∧ b.toNat ≤ 127, s.initReached = true →
      exec (.coladdr a b) s = .next { s with rx := { s.rx with
        cs := .known ⟨a.toNat, by omega⟩, ce := .known ⟨b.toNat, by omega⟩, col := .known ⟨a.toNat, by omega⟩ } })
      ∧ (127 < a.toNat ∨ 127 < b.toNat ∨ b.toNat < a.toNat →
          exec (.coladdr a b) s = .next { s with rx := Receiver.unknown s.rx.draws })

/-- R85, read as in assumption 25: the page-address command, in the same way, with a ≤ b ≤ 7. -/
def Obligations.PageAddress : Prop :=
  ∀ (a b : Byte) (s : State),
    (∀ h : a.toNat ≤ b.toNat ∧ b.toNat ≤ 7, s.initReached = true →
      exec (.pageaddr a b) s = .next { s with rx := { s.rx with
        ps := .known ⟨a.toNat, by omega⟩, pe := .known ⟨b.toNat, by omega⟩, page := .known ⟨a.toNat, by omega⟩ } })
      ∧ (7 < a.toNat ∨ 7 < b.toNat ∨ b.toNat < a.toNat →
          exec (.pageaddr a b) s = .next { s with rx := Receiver.unknown s.rx.draws })

/-- R83, once an INIT has completed or while one runs (R256, read as in assumption 25): a data byte, in horizontal mode with the window and the pointer
known, is stored at the pointer and at no other cell, and the pointer advances column, then page, then back to the window's
first cell. In any other mode, and with the window or the pointer unknown, the receiver goes to havoc, before an INIT too. -/
def Obligations.DataByte : Prop :=
  ∀ (v : Byte) (s : State),
    (∀ (cs ce col : Fin 128) (ps pe page : Fin 8), s.initReached = true → s.rx.am = .known .horizontal →
      s.rx.cs = .known cs → s.rx.ce = .known ce → s.rx.ps = .known ps → s.rx.pe = .known pe →
      s.rx.col = .known col → s.rx.page = .known page →
      ∃ (t : State) (col' : Fin 128) (page' : Fin 8), exec (.data v) s = .next t
        ∧ t = { s with rx := { s.rx with gd := t.rx.gd, col := .known col', page := .known page' } }
        ∧ t.rx.cell page col = v
        ∧ (∀ p c, ¬(p = page ∧ c = col) → t.rx.cell p c = s.rx.cell p c)
        ∧ (col.val + 1 ≤ ce.val → col'.val = col.val + 1 ∧ page' = page)
        ∧ (ce.val < col.val + 1 → page.val + 1 ≤ pe.val → col' = cs ∧ page'.val = page.val + 1)
        ∧ (ce.val < col.val + 1 → pe.val < page.val + 1 → col' = cs ∧ page' = ps))
      ∧ ((s.rx.am ≠ .known .horizontal ∨ (∃ n, s.rx.cs = .draw n ∨ s.rx.ce = .draw n ∨ s.rx.ps = .draw n
            ∨ s.rx.pe = .draw n ∨ s.rx.col = .draw n ∨ s.rx.page = .draw n)) →
          exec (.data v) s = .next { s with rx := Receiver.unknown s.rx.draws })

/-- R87, but from a cut-off frame until a completed INIT: the addressing-mode command with argument 0x00 makes the mode
horizontal, with any other OTHER; display-off and display-on set `on`. Every other command of the table leaves the receiver
as it is, at all times. Nothing else changes. Two parts are the model's choice: that mode and `on` are set before an INIT too,
where R256 calls the mode unknown (assumption 25), and that a mode command of another argument count is havoc (10). -/
def Obligations.OtherCommands : Prop :=
  ∀ (a : Byte) (args : List Byte) (b : Bool) (s : State),
    (s.fieldsAct = true →
        exec (.addrmode [0x00#8]) s = .next { s with rx := { s.rx with am := .known .horizontal } }
          ∧ (a ≠ 0x00#8 → exec (.addrmode [a]) s = .next { s with rx := { s.rx with am := .known .other } })
          ∧ exec (.dispoff args) s = .next { s with rx := { s.rx with on := .known false } }
          ∧ exec (.dispon args) s = .next { s with rx := { s.rx with on := .known true } })
      ∧ (args.length ≠ 1 → exec (.addrmode args) s = .next { s with rx := Receiver.unknown s.rx.draws })
      ∧ exec (.clkdiv args) s = .next s ∧ exec (.chgpump args) s = .next s
      ∧ exec (.segremap b args) s = .next s ∧ exec (.comscan b args) s = .next s
      ∧ exec (.compins args) s = .next s ∧ exec (.contrast args) s = .next s ∧ exec (.prechg args) s = .next s
      ∧ exec (.vcomdesel args) s = .next s ∧ exec (.resume args) s = .next s

/-- Where no INIT has completed since power-up (R256), or none since a reset cut a frame off (R251) or found something of the
panel unknown (R257), and none runs, a data byte and the window commands send the receiver to havoc, whatever it held; after
a cut-off frame the commands that set the mode and `on` do so too (93_implementation_defined.md U11). Nothing else changes.
How the model notes these cases is assumption 25. -/
def Obligations.BeforeFirstInit : Prop :=
  ∀ (s : State) (v a b : Byte) (args : List Byte), s.panel ≠ .ready → s.eng.curOp ≠ some .init →
    exec (.data v) s = .next { s with rx := Receiver.unknown s.rx.draws }
      ∧ exec (.coladdr a b) s = .next { s with rx := Receiver.unknown s.rx.draws }
      ∧ exec (.pageaddr a b) s = .next { s with rx := Receiver.unknown s.rx.draws }
      ∧ (s.panel = .cutOff →
          exec (.addrmode args) s = .next { s with rx := Receiver.unknown s.rx.draws }
            ∧ exec (.dispoff args) s = .next { s with rx := Receiver.unknown s.rx.draws }
            ∧ exec (.dispon args) s = .next { s with rx := Receiver.unknown s.rx.draws })

/-- R256 and R251 of the whole machine: where nothing is known of the window, the pointer and the display memory, as after
power-up, nothing of them becomes known at any step, whatever the host has sent and whether or not it resets the block, until
an INIT runs; and of the mode and `on` nothing becomes known from a cut-off frame until an INIT runs (U11; assumption 25). -/
def Obligations.UnknownUntilInit : Prop :=
  ∀ s t : State, step s = .next t →
    (s.rx.panelUnknown → t.initReached = false → t.rx.panelUnknown)
      ∧ (s.rx.fieldsUnknown → t.fieldsAct = false → t.rx.fieldsUnknown)

/-- What the wire's instructions leave unchanged: all of the block and of the host (R80: "no rule of the block reads it"),
and, but for a data byte and for an instruction that sends the receiver to havoc, every byte of the display memory. -/
def Obligations.WireFrame : Prop :=
  ∀ (i : Instr) (s t : State), isRequest i = false → exec i s = .next t →
    t = { s with rx := t.rx }
      ∧ ((∀ v, i ≠ .data v) → t.rx ≠ Receiver.unknown s.rx.draws →
          t.rx.pending = s.rx.pending ∧ t.rx.draws = s.rx.draws ∧ ∀ p c, t.rx.cell p c = s.rx.cell p c)

/-- R82: how the receiver parses a frame, its parse state known. With `need = 0` a Command frame is an opcode: one with
arguments opens a command of that many, and one not in the table is havoc. With `need > 0` a Command frame is an argument
and a Data frame is havoc. -/
def Obligations.ReceiverParses : Prop :=
  ∀ (s : State) (v : Byte) (bytes : List Byte), s.rx.pending = .known bytes →
    (bytes = [] → commandOf s.cfg.opc v = none →
      (takeFrame ⟨.command, v⟩ s).finish = .next { s with rx := Receiver.unknown s.rx.draws })
      ∧ (∀ c, bytes = [] → commandOf s.cfg.opc v = some c → 0 < c.args.val →
          ∃ t, (takeFrame ⟨.command, v⟩ s).finish = .next t ∧ t.rx.need s.cfg.opc = c.args.val
            ∧ t = { s with rx := { s.rx with pending := .known [v] } })
      ∧ (1 < s.rx.need s.cfg.opc →
          ∃ t, (takeFrame ⟨.command, v⟩ s).finish = .next t ∧ t.rx.need s.cfg.opc + 1 = s.rx.need s.cfg.opc
            ∧ t = { s with rx := { s.rx with pending := .known (bytes ++ [v]) } })
      ∧ (s.rx.need s.cfg.opc = 1 →
          ∃ i, decodeFrames s.cfg.opc (bytes.map cmdFrame ++ [⟨.command, v⟩]) = .complete i []
            ∧ (takeFrame ⟨.command, v⟩ s).finish = exec i { s with rx := { s.rx with pending := .known [] } })
      ∧ (0 < s.rx.need s.cfg.opc →
          (takeFrame ⟨.data, v⟩ s).finish = .next { s with rx := Receiver.unknown s.rx.draws })

/-- R89: the frames of an INIT with the default `INIT_ROM`, taken while an INIT runs or after one has completed by a receiver
that starts with `need = 0` and of which nothing else is known, leave it horizontal, on, with the full window, every byte 0 and the pointer back at column 0 of
page 0. -/
def Obligations.InitClearsPanel : Prop :=
  ∀ s : State, s.cfg.opc = Opcodes.default → s.cfg.initRom = Config.defaultInitRom →
    s.initReached = true → s.rx.pending = .known [] →
    ∃ t, feed (initFrames s.cfg) s = .next t
      ∧ t = { s with rx := t.rx }
      ∧ t.rx.am = .known .horizontal ∧ t.rx.on = .known true
      ∧ t.rx.cs = .known 0 ∧ t.rx.ce = .known 127 ∧ t.rx.ps = .known 0 ∧ t.rx.pe = .known 7
      ∧ (∀ p c, t.rx.cell p c = 0x00#8)
      ∧ t.rx.col = .known 0 ∧ t.rx.page = .known 0 ∧ t.rx.pending = .known []

/-! ### The transport -/

/-- The pins of a frame's shift and of the cycle after it (R140 to R145), for every SETTLE and whatever the host accesses
meanwhile, but for a reset: from the select cycle of any frame, the next 16 cycles hold `cs_n` low with each bit, 7 first,
on `mosi` for a cycle of `sclk` low and a cycle of `sclk` high; in the 17th `sclk` is low again, and `cs_n` is released
exactly where SETTLE is 0. -/
def Obligations.ShiftWaveform : Prop :=
  ∀ s : State, Inv s → s.tx.tstate = .dc → s.noResetAhead →
    pinsOver 17 s = shiftPins s.pins.dc s.tx.sh 8
      ++ [⟨decide (s.regs.settle = 0#32), s.pins.dc, false, s.tx.sh.getLsbD 0⟩]

/-- The settle interval (R144, R145): from a cycle of it with `sc = n`, whatever the host accesses but for a reset, the pins
hold for n − 1 more cycles and then `cs_n` is released. -/
def Obligations.SettleWaveform : Prop :=
  ∀ (s : State) (n : Nat), Inv s → s.tx.tstate = .settle → s.tx.sc.toNat = n → s.noResetAhead →
    pinsOver n s = List.replicate (n - 1) ⟨false, s.pins.dc, false, s.tx.sh.getLsbD 0⟩
      ++ [⟨true, s.pins.dc, false, s.tx.sh.getLsbD 0⟩]

/-- The transport at pin level is the engine step at transaction level (R133, R147, R148): from the select cycle of a frame,
18 + SETTLE cycles without a host access come to the next frame's select cycle or to rest, and in the transaction-level
view they are one engine step. -/
def Obligations.FrameIsEngineStep : Prop :=
  ∀ s : State, Inv s → s.tx.tstate = .dc → s.host.program = [] →
    ∃ t, Sys2Proof.core.run (18 + s.regs.settle.toNat) s = .next t ∧ s.txn.engineStep = some t.txn
      ∧ (t.tx.tstate = .dc ∨ t.tx.tstate = .idle) ∧ t.host.program = []

/-- R147: a request of n frames, counted from the cycle of its acceptance, keeps BUSY = 1 for n·(18 + SETTLE) cycles and is
then at rest, whatever the host reads, writes or polls meanwhile, but for a reset; its frames are then in the trace, all of
them, in order and nothing else, counted in TXCOUNT, and an INIT has set INIT_DONE (R22, R71, R72, R73, R133, R167). -/
def Obligations.RequestSendsItsFrames : Prop :=
  ∀ s : State, Inv s → s.tx.tstate = .dc → s.eng.pos = 1 → s.noResetAhead →
    (∀ m, m < s.eng.frames.length * (18 + s.regs.settle.toNat) →
      ∃ u, Sys2Proof.core.run m s = .next u ∧ State.busy u = true)
      ∧ ∃ t : State, Sys2Proof.core.run (s.eng.frames.length * (18 + s.regs.settle.toNat)) s = .next t ∧ t.atRest
          ∧ t.trace = s.trace ++ s.eng.frames
          ∧ t.regs.txcount = s.regs.txcount + BitVec.ofNat 32 s.eng.frames.length
          ∧ (s.eng.curOp = some .init → t.regs.initDone = true ∧ t.panel = .ready)

/-- The host step at transaction level (R43, R64, R67): a host write to a block at rest, by `sw` or by raw port inputs, is,
in the transaction-level view, `Dpe.hostWrite`. -/
def Obligations.HostWriteIsTransaction : Prop :=
  ∀ s t : State, Inv s → s.atRest → s.inputs.rst = false → s.inputs.sel = true → s.inputs.we = true → step s = .next t →
    s.txn.hostWrite s.cfg s.inputs.addr s.inputs.size s.inputs.wdata = some t.txn

/-! ### Reset -/

/-- R42, R252: the state after reset. Every register (ID the constant), the engine, the transport and the pins hold the values the spec
states, SETTLE the OPEN parameter's, and the trace is empty. -/
def Obligations.ResetState : Prop :=
  let s := State.reset
  hostRead s 0x00#6 2#2 = 0x54524231#32 ∧ statusWord s.busy s.regs = 0#32 ∧ s.regs.win = 0#32 ∧ s.regs.curwin = 0#32
    ∧ s.regs.settle = s.cfg.settleReset ∧ s.regs.txcount = 0#32 ∧ s.regs.tb = Vector.replicate 32 0x00#8
    ∧ s.eng = ⟨none, [], 0⟩ ∧ s.tx = ⟨.idle, 0x00#8, 7, .lo, .command, 0#32⟩
    ∧ s.pins = ⟨true, false, false, false⟩ ∧ s.trace = []

/-- R250: at an edge with `rst = 1` every register of the block takes its reset value whatever it held, and nothing else
happens: a host access presented in the cycle does nothing. -/
def Obligations.ResetEdge : Prop :=
  ∀ (s : State) (p : PortCycle) (rest : List HostOp), s.host.program = .port p :: rest → p.rst = true →
    ∃ t, step s = .next t
      ∧ statusWord t.busy t.regs = 0#32 ∧ t.regs.win = 0#32 ∧ t.regs.curwin = 0#32
      ∧ t.regs.settle = s.cfg.settleReset ∧ t.regs.txcount = 0#32 ∧ t.regs.tb = Vector.replicate 32 0x00#8
      ∧ t.eng = ⟨none, [], 0⟩ ∧ t.tx = ⟨.idle, 0x00#8, 7, .lo, .command, 0#32⟩
      ∧ t.pins = ⟨true, false, false, false⟩ ∧ t.trace = [] ∧ t.cfg = s.cfg

/-- Reset during a frame (R251): the receiver goes to havoc, until a completed INIT (93_implementation_defined.md U11). Between
frames and at rest reset leaves the receiver as it is (R81). If then something of the panel is unknown, only a completed INIT
re-establishes it (R257); that a panel wholly known goes on being known is the model's choice, assumption 25. That a frame's
select cycle counts as on the wire is the model's choice, assumption 11. -/
def Obligations.ResetAndReceiver : Prop :=
  ∀ s t : State, s.inputs.rst = true → step s = .next t →
    (s.tx.tstate = .shift ∨ s.tx.tstate = .settle ∨ s.tx.tstate = .dc →
        t.rx = Receiver.unknown s.rx.draws ∧ t.panel = .cutOff)
      ∧ (s.tx.tstate = .idle ∨ s.tx.tstate = .rel →
          t.rx = s.rx ∧ (s.rx.settled = true → t.panel = s.panel) ∧ (s.rx.settled = false → t.panel ≠ .ready))

/-! ### The whole machine -/

/-- Every step keeps the invariant: engine, transport, pins and counters agree with each other and with the trace, and the
receiver's memory keeps its canonical form (R22, R32, R37 to R39, R43, R142 to R146). -/
def Obligations.StepKeepsInv : Prop := ∀ s t : State, Inv s → step s = .next t → Inv t

/-- The invariant holds after reset. -/
def Obligations.ResetInv : Prop := Inv State.reset

/-- The configuration is constant (R35, R36, R191): no step writes the ROMs, the opcodes or a parameter. -/
def Obligations.StepKeepsConfiguration : Prop := ∀ s t : State, step s = .next t → t.cfg = s.cfg

/-- The operands of a running request stand still (R23, R75): while BUSY and out of reset no step changes WIN, SETTLE, the
text buffer, CURWIN or the request's frames. -/
def Obligations.OperandsHeldWhileBusy : Prop :=
  ∀ s t : State, s.busy = true → s.inputs.rst = false → step s = .next t →
    t.regs.win = s.regs.win ∧ t.regs.settle = s.regs.settle ∧ t.regs.tb = s.regs.tb
      ∧ t.regs.curwin = s.regs.curwin ∧ t.eng.frames = s.eng.frames

/-- The frame position (R22): while a request runs and goes on, `pos` stays or advances by exactly 1; it never moves
backwards and never passes the end of the list. -/
def Obligations.PositionAdvances : Prop :=
  ∀ s t : State, Inv s → s.busy = true → s.inputs.rst = false → step s = .next t →
    (t.eng.pos = s.eng.pos ∨ (t.eng.pos = s.eng.pos + 1 ∧ s.tx.tstate = .rel))
      ∧ t.eng.pos ≤ t.eng.frames.length

/-- R254: the block never sends a frame on its own. At rest, a step emits nothing and leaves the block at rest, but for a
host write to REQ of a word that is a request. -/
def Obligations.NothingUnbidden : Prop :=
  ∀ s t : State, s.atRest → step s = .next t →
    (t.trace = s.trace ∨ (s.inputs.rst = true ∧ t.trace = [])) ∧ (t.busy = false → t.atRest)
      ∧ (t.busy = true → s.inputs.sel = true ∧ s.inputs.we = true ∧ s.inputs.addr = 0x08#6
          ∧ ∃ i, decodeRequest s.inputs.wdata = .ok i)

/-- The serial output is append-only and TXCOUNT counts it (R32, R78, R131): out of reset a step leaves the trace and
TXCOUNT, or appends the transport's frame, with TXCOUNT one more modulo 2^32, and releases `cs_n`. -/
def Obligations.TraceAppends : Prop :=
  ∀ s t : State, Inv s → s.inputs.rst = false → step s = .next t →
    (t.trace = s.trace ∧ t.regs.txcount = s.regs.txcount)
      ∨ (t.trace = s.trace ++ [⟨s.tx.fk, s.tx.sh⟩] ∧ t.regs.txcount = s.regs.txcount + 1#32
          ∧ s.pins.csN = false ∧ t.pins.csN = true)

/-! ### The assembler -/

/-- `idx(c)` (R115): digits 0 to 9, letters 10 to 35, '.', ':', space and '%' 36 to 39, no character 40, and two
characters of the alphabet never share an index. -/
def Obligations.CharacterIndices : Prop :=
  (∀ c : Char, '0'.toNat ≤ c.toNat → c.toNat ≤ '9'.toNat → charIndex c = some (BitVec.ofNat 8 (c.toNat - '0'.toNat)))
    ∧ (∀ c : Char, 'A'.toNat ≤ c.toNat → c.toNat ≤ 'Z'.toNat →
        charIndex c = some (BitVec.ofNat 8 (10 + (c.toNat - 'A'.toNat))))
    ∧ charIndex '.' = some 36#8 ∧ charIndex ':' = some 37#8 ∧ charIndex ' ' = some 38#8 ∧ charIndex '%' = some 39#8
    ∧ (∀ c i, charIndex c = some i → i.toNat < 40)
    ∧ (∀ c d i, charIndex c = some i → charIndex d = some i → c = d)

/-- The request mnemonics (R112, R114): each assembles to one write of REQ whose word decodes to the request. -/
def Obligations.MnemonicsAssemble : Prop :=
  ∀ i : Instr, isRequest i = true →
    ∃ w, Pseudo.expand (.req i) = .ok [.sw 0x08#6 w] ∧ decodeRequest w = .ok i

/-- The text pseudo-instruction (R114): its TEXTBUF writes, run one after another on an idle block, put index k in cell k,
0 in the cells that fill up the last word, and leave the cells after it. -/
def Obligations.TextFillsBuffer : Prop :=
  ∀ (is : List Byte) (x y : Byte) (ops : List HostOp) (s : State), s.atRest → drawRun is x y = .ok ops →
    s.host.program = ops →
    ∃ t : State, Sys2Proof.core.run ((is.length + 3) / 4) s = .next t
      ∧ t.host.program = [.sw 0x08#6 (BitVec.ofNat 8 is.length ++ y ++ x ++ 0x04#8)]
      ∧ ∀ k, k < 32 → t.regs.tb.toList.getD k 0#8 =
          if k < is.length then is.getD k 0#8
          else if k < 4 * ((is.length + 3) / 4) then 0#8 else s.regs.tb.toList.getD k 0#8
end

