-- ==== Sys2Proof/Laws/Decode.lean ====
section
/-! SUPPORT. The small laws of the encodings: the bits and lanes of a word, a frame and its frame word. -/

namespace Sys2Proof

@[simp] theorem Kind.isData_command : Kind.command.isData = false := rfl
@[simp] theorem Kind.isData_data : Kind.data.isData = true := rfl

section Lanes
variable (b3 b2 b1 b0 : Byte)

/-- The bits of a word made of four lanes. -/
theorem getLsbD_ofLanes (i : Nat) : (ofLanes b3 b2 b1 b0).getLsbD i =
    if i < 8 then b0.getLsbD i else if i < 16 then b1.getLsbD (i - 8)
    else if i < 24 then b2.getLsbD (i - 16) else b3.getLsbD (i - 24) := by
  have h : ∀ (x : BitVec (8 + 8 + 8 + 8)), (x : Word).getLsbD i = x.getLsbD i := fun _ => rfl
  rw [ofLanes, h, BitVec.getLsbD_append, BitVec.getLsbD_append, BitVec.getLsbD_append]
  by_cases h0 : i < 8 <;> by_cases h1 : i < 16 <;> by_cases h2 : i < 24 <;>
    simp [h0, h1, h2, Nat.sub_sub] <;> (first | omega | skip)
  all_goals (split <;> first | rfl | omega | skip)
  all_goals (split <;> first | rfl | omega)

@[simp] theorem byteLane_ofLanes_zero : byteLane (ofLanes b3 b2 b1 b0) 0 = b0 := by
  refine BitVec.eq_of_getLsbD_eq fun i hi => ?_
  simp [byteLane, getLsbD_ofLanes, hi]

@[simp] theorem byteLane_ofLanes_one : byteLane (ofLanes b3 b2 b1 b0) 1 = b1 := by
  refine BitVec.eq_of_getLsbD_eq fun i hi => ?_
  simp [byteLane, getLsbD_ofLanes, hi, show ¬ 8 + i < 8 by omega, show 8 + i < 16 by omega]

@[simp] theorem byteLane_ofLanes_two : byteLane (ofLanes b3 b2 b1 b0) 2 = b2 := by
  refine BitVec.eq_of_getLsbD_eq fun i hi => ?_
  simp [byteLane, getLsbD_ofLanes, hi, show ¬ 16 + i < 8 by omega, show ¬ 16 + i < 16 by omega,
    show 16 + i < 24 by omega]

@[simp] theorem byteLane_ofLanes_three : byteLane (ofLanes b3 b2 b1 b0) 3 = b3 := by
  refine BitVec.eq_of_getLsbD_eq fun i hi => ?_
  simp [byteLane, getLsbD_ofLanes, hi, show ¬ 24 + i < 8 by omega, show ¬ 24 + i < 16 by omega,
    show ¬ 24 + i < 24 by omega]

/-- A field of the lowest lane. -/
theorem extract_ofLanes_low {k n : Nat} (h : k + n ≤ 8) :
    (ofLanes b3 b2 b1 b0).extractLsb' k n = b0.extractLsb' k n := by
  refine BitVec.eq_of_getLsbD_eq fun i hi => ?_
  simp [getLsbD_ofLanes, hi, show k + i < 8 by omega]

/-- Bits 7:1 of P1, the bits of a WRITE_BYTE above KIND. -/
theorem extract_ofLanes_p1 : (ofLanes b3 b2 b1 b0).extractLsb' 17 7 = b2.extractLsb' 1 7 := by
  refine BitVec.eq_of_getLsbD_eq fun i hi => ?_
  simp [getLsbD_ofLanes, hi, show ¬ 17 + i < 8 by omega, show ¬ 17 + i < 16 by omega, show 17 + i < 24 by omega,
    show 17 + i - 16 = 1 + i by omega]

end Lanes

@[simp] theorem Frame.ofWord_toWord (f : Frame) : Frame.ofWord f.toWord = f := by
  obtain ⟨k, v⟩ := f
  have h : ∀ (b : BitVec 1) (i : Nat), ((b ++ v : BitVec (1 + 8)) : FrameWord).getLsbD i =
      if i < 8 then v.getLsbD i else b.getLsbD (i - 8) := fun b i => BitVec.getLsbD_append
  have hk : ∀ b : BitVec 1, ((b ++ v : BitVec (1 + 8)) : FrameWord).getLsbD 8 = b.getLsbD 0 := fun b => h b 8
  have hv : ∀ b : BitVec 1, BitVec.extractLsb' 0 8 ((b ++ v : BitVec (1 + 8)) : FrameWord) = v := fun b =>
    BitVec.eq_of_getLsbD_eq fun i hi => by simp [h, hi]
  cases k
  · exact congrArg₂ Frame.mk (by rw [Frame.toWord, hk]; simp) (hv 0#1)
  · exact congrArg₂ Frame.mk (by rw [Frame.toWord, hk]; simp) (hv 1#1)

/-! ### The argument frames of a command -/

/-- As many Command frames as the count are all taken, and what follows is left. -/
@[simp] theorem takeArgs_commands (args : List Byte) (rest : List Frame) :
    takeArgs args.length (args.map (Frame.mk .command) ++ rest) = .all args rest := by
  induction args with
  | nil => cases rest <;> rfl
  | cons a args ih => simp only [List.length_cons, List.map_cons, List.cons_append, takeArgs, ih]

/-- What the argument bytes at the front of a run can come to, once. -/
theorem takeArgs_cases (n : Nat) (fs : List Frame) :
    (∃ args rest, takeArgs n fs = .all args rest ∧ args.length = n ∧ fs = args.map (Frame.mk .command) ++ rest)
    ∨ (∃ (args : List Byte) (k : Nat), takeArgs n fs = .more (k + 1) ∧ n = args.length + (k + 1)
        ∧ fs = args.map (Frame.mk .command))
    ∨ (takeArgs n fs = .data ∧ ∃ f ∈ fs, f.kind = .data) := by
  induction n generalizing fs with
  | zero => exact .inl ⟨[], fs, by cases fs <;> rfl, rfl, rfl⟩
  | succ n ih =>
    match fs with
    | [] => exact .inr (.inl ⟨[], n, rfl, by simp, rfl⟩)
    | ⟨.data, v⟩ :: fs => exact .inr (.inr ⟨rfl, _, List.mem_cons_self .., rfl⟩)
    | ⟨.command, v⟩ :: fs =>
      rcases ih fs with ⟨args, rest, h, hl, hf⟩ | ⟨args, k, h, hl, hf⟩ | ⟨h, f, hm, hk⟩
      · exact .inl ⟨v :: args, rest, by simp only [takeArgs, h], by simp [hl], by simp [hf]⟩
      · exact .inr (.inl ⟨v :: args, k, by simp only [takeArgs, h], by simp [hl]; omega, by simp [hf]⟩)
      · exact .inr (.inr ⟨by simp only [takeArgs, h], f, List.mem_cons_of_mem _ hm, hk⟩)

section Commands
variable {o : Opcodes}

/-- Distinct opcodes, later against earlier in the order of the table. -/
theorem Opcodes.distinct (h : o.wellFormed = true) : o.bytes.reverse.Nodup :=
  List.nodup_reverse.2 (by simpa [Opcodes.wellFormed] using h)

theorem commandOf_dispoff :
    commandOf o o.dispoff = some ⟨o.args.dispoff, (.dispoff ·)⟩ := by
  simp only [commandOf, if_true]

theorem commandOf_dispon (h : o.wellFormed = true) :
    commandOf o o.dispon = some ⟨o.args.dispon, (.dispon ·)⟩ := by
  have hn := Opcodes.distinct h
  simp only [Opcodes.bytes, List.reverse_cons, List.reverse_nil, List.nil_append, List.cons_append, List.nodup_cons,
    List.mem_cons, List.not_mem_nil, or_false, not_or] at hn
  simp only [commandOf, hn, if_true, if_false]

theorem commandOf_clkdiv (h : o.wellFormed = true) : commandOf o o.clkdiv = some ⟨o.args.clkdiv, .clkdiv⟩ := by
  have hn := Opcodes.distinct h
  simp only [Opcodes.bytes, List.reverse_cons, List.reverse_nil, List.nil_append, List.cons_append, List.nodup_cons,
    List.mem_cons, List.not_mem_nil, or_false, not_or] at hn
  simp only [commandOf, hn, if_true, if_false]

theorem commandOf_chgpump (h : o.wellFormed = true) : commandOf o o.chgpump = some ⟨o.args.chgpump, .chgpump⟩ := by
  have hn := Opcodes.distinct h
  simp only [Opcodes.bytes, List.reverse_cons, List.reverse_nil, List.nil_append, List.cons_append, List.nodup_cons,
    List.mem_cons, List.not_mem_nil, or_false, not_or] at hn
  simp only [commandOf, hn, if_true, if_false]

theorem commandOf_addrmode (h : o.wellFormed = true) : commandOf o o.addrmode = some ⟨o.args.addrmode, .addrmode⟩ := by
  have hn := Opcodes.distinct h
  simp only [Opcodes.bytes, List.reverse_cons, List.reverse_nil, List.nil_append, List.cons_append, List.nodup_cons,
    List.mem_cons, List.not_mem_nil, or_false, not_or] at hn
  simp only [commandOf, hn, if_true, if_false]

theorem commandOf_segremap_false (h : o.wellFormed = true) :
    commandOf o o.segremap = some ⟨o.args.segremap, (.segremap false ·)⟩ := by
  have hn := Opcodes.distinct h
  simp only [Opcodes.bytes, List.reverse_cons, List.reverse_nil, List.nil_append, List.cons_append, List.nodup_cons,
    List.mem_cons, List.not_mem_nil, or_false, not_or] at hn
  simp only [commandOf, hn, if_true, if_false]

theorem commandOf_segremap_true (h : o.wellFormed = true) :
    commandOf o (o.segremap + 1#8) = some ⟨o.args.segremap, (.segremap true ·)⟩ := by
  have hn := Opcodes.distinct h
  simp only [Opcodes.bytes, List.reverse_cons, List.reverse_nil, List.nil_append, List.cons_append, List.nodup_cons,
    List.mem_cons, List.not_mem_nil, or_false, not_or] at hn
  simp only [commandOf, hn, if_true, if_false]

theorem commandOf_comscan_false (h : o.wellFormed = true) :
    commandOf o o.comscan = some ⟨o.args.comscan, (.comscan false ·)⟩ := by
  have hn := Opcodes.distinct h
  simp only [Opcodes.bytes, List.reverse_cons, List.reverse_nil, List.nil_append, List.cons_append, List.nodup_cons,
    List.mem_cons, List.not_mem_nil, or_false, not_or] at hn
  simp only [commandOf, hn, if_true, if_false]

theorem commandOf_comscan_true (h : o.wellFormed = true) :
    commandOf o (o.comscan + 8#8) = some ⟨o.args.comscan, (.comscan true ·)⟩ := by
  have hn := Opcodes.distinct h
  simp only [Opcodes.bytes, List.reverse_cons, List.reverse_nil, List.nil_append, List.cons_append, List.nodup_cons,
    List.mem_cons, List.not_mem_nil, or_false, not_or] at hn
  simp only [commandOf, hn, if_true, if_false]

theorem commandOf_compins (h : o.wellFormed = true) : commandOf o o.compins = some ⟨o.args.compins, .compins⟩ := by
  have hn := Opcodes.distinct h
  simp only [Opcodes.bytes, List.reverse_cons, List.reverse_nil, List.nil_append, List.cons_append, List.nodup_cons,
    List.mem_cons, List.not_mem_nil, or_false, not_or] at hn
  simp only [commandOf, hn, if_true, if_false]

theorem commandOf_contrast (h : o.wellFormed = true) : commandOf o o.contrast = some ⟨o.args.contrast, .contrast⟩ := by
  have hn := Opcodes.distinct h
  simp only [Opcodes.bytes, List.reverse_cons, List.reverse_nil, List.nil_append, List.cons_append, List.nodup_cons,
    List.mem_cons, List.not_mem_nil, or_false, not_or] at hn
  simp only [commandOf, hn, if_true, if_false]

theorem commandOf_prechg (h : o.wellFormed = true) : commandOf o o.prechg = some ⟨o.args.prechg, .prechg⟩ := by
  have hn := Opcodes.distinct h
  simp only [Opcodes.bytes, List.reverse_cons, List.reverse_nil, List.nil_append, List.cons_append, List.nodup_cons,
    List.mem_cons, List.not_mem_nil, or_false, not_or] at hn
  simp only [commandOf, hn, if_true, if_false]

theorem commandOf_vcomdesel (h : o.wellFormed = true) : commandOf o o.vcomdesel = some ⟨o.args.vcomdesel, .vcomdesel⟩ := by
  have hn := Opcodes.distinct h
  simp only [Opcodes.bytes, List.reverse_cons, List.reverse_nil, List.nil_append, List.cons_append, List.nodup_cons,
    List.mem_cons, List.not_mem_nil, or_false, not_or] at hn
  simp only [commandOf, hn, if_true, if_false]

theorem commandOf_resume (h : o.wellFormed = true) :
    commandOf o o.resume = some ⟨o.args.resume, (.resume ·)⟩ := by
  have hn := Opcodes.distinct h
  simp only [Opcodes.bytes, List.reverse_cons, List.reverse_nil, List.nil_append, List.cons_append, List.nodup_cons,
    List.mem_cons, List.not_mem_nil, or_false, not_or] at hn
  simp only [commandOf, hn, if_true, if_false]

theorem commandOf_coladdr (h : o.wellFormed = true) : commandOf o o.coladdr = some (.window .coladdr) := by
  have hn := Opcodes.distinct h
  simp only [Opcodes.bytes, List.reverse_cons, List.reverse_nil, List.nil_append, List.cons_append, List.nodup_cons,
    List.mem_cons, List.not_mem_nil, or_false, not_or] at hn
  simp only [commandOf, hn, if_true, if_false]

theorem commandOf_pageaddr (h : o.wellFormed = true) : commandOf o o.pageaddr = some (.window .pageaddr) := by
  have hn := Opcodes.distinct h
  simp only [Opcodes.bytes, List.reverse_cons, List.reverse_nil, List.nil_append, List.cons_append, List.nodup_cons,
    List.mem_cons, List.not_mem_nil, or_false, not_or] at hn
  simp only [commandOf, hn, if_true, if_false]

theorem ite_eq_some {α : Type} {p : Prop} [Decidable p] {a b : Option α} {c : α}
    (h : (if p then a else b) = some c) : a = some c ∨ b = some c := by
  by_cases hp : p <;> simp_all

/-- The receiver never expects more than two argument frames (R110). -/
theorem decodeFrames_more_le {fs : List Frame} {n : Nat} (h : decodeFrames o fs = .more n) : n ≤ 2 := by
  unfold decodeFrames at h
  split at h
  · cases h; omega
  · cases h
  · rename_i v rest
    split at h
    · cases h
    · rename_i c _
      rcases takeArgs_cases c.args.val rest with ⟨_, _, he, -⟩ | ⟨args, k, he, hn, -⟩ | ⟨he, -⟩ <;> rw [he] at h <;> cases h
      omega

/-- What begins a command completes to no request, whatever its arguments. -/
theorem commandOf_not_request {v : Byte} {c : CommandShape} (h : commandOf o v = some c) (args : List Byte) :
    Machine.isRequest (c.make args) = false := by
  unfold commandOf at h
  iterate 16
    rcases ite_eq_some h with h | h
    · cases h; rfl
  cases h

/-- The wire carries no request. -/
theorem decodeFrames_not_request {fs rest : List Frame} {i : Instr} (h : decodeFrames o fs = .complete i rest) :
    Machine.isRequest i = false := by
  unfold decodeFrames at h
  split at h
  · cases h
  · cases h; rfl
  · split at h
    · cases h
    · split at h <;> cases h
      exact commandOf_not_request ‹_› _

end Commands

end Sys2Proof
end

