-- ==== Sys2Proof/Laws/State.lean ====
section
/-! SUPPORT. One lemma per field per update of the state, so that no later proof unfolds a record update. -/

namespace Sys2Proof.Machine

variable (s : State)

/-! ### raiseErr -/

@[simp] theorem raiseErr_cfg (e : Err) : (raiseErr e s).cfg = s.cfg := rfl
@[simp] theorem raiseErr_regs (e : Err) : (raiseErr e s).regs = { s.regs with err := s.regs.err.set e } := rfl
@[simp] theorem raiseErr_eng (e : Err) : (raiseErr e s).eng = s.eng := rfl
@[simp] theorem raiseErr_tx (e : Err) : (raiseErr e s).tx = s.tx := rfl
@[simp] theorem raiseErr_pins (e : Err) : (raiseErr e s).pins = s.pins := rfl
@[simp] theorem raiseErr_trace (e : Err) : (raiseErr e s).trace = s.trace := rfl
@[simp] theorem raiseErr_rx (e : Err) : (raiseErr e s).rx = s.rx := rfl
@[simp] theorem raiseErr_panel (e : Err) : (raiseErr e s).panel = s.panel := rfl
@[simp] theorem raiseErr_host (e : Err) : (raiseErr e s).host = s.host := rfl

/-! ### clearErrs -/

@[simp] theorem clearErrs_cfg (v : Word) : (clearErrs v s).cfg = s.cfg := rfl
@[simp] theorem clearErrs_regs (v : Word) : (clearErrs v s).regs = { s.regs with err := s.regs.err.clear v } := rfl
@[simp] theorem clearErrs_eng (v : Word) : (clearErrs v s).eng = s.eng := rfl
@[simp] theorem clearErrs_tx (v : Word) : (clearErrs v s).tx = s.tx := rfl
@[simp] theorem clearErrs_pins (v : Word) : (clearErrs v s).pins = s.pins := rfl
@[simp] theorem clearErrs_trace (v : Word) : (clearErrs v s).trace = s.trace := rfl
@[simp] theorem clearErrs_rx (v : Word) : (clearErrs v s).rx = s.rx := rfl
@[simp] theorem clearErrs_panel (v : Word) : (clearErrs v s).panel = s.panel := rfl
@[simp] theorem clearErrs_host (v : Word) : (clearErrs v s).host = s.host := rfl

/-! ### offer -/

@[simp] theorem offer_cfg (f : Frame) : (offer f s).cfg = s.cfg := rfl
@[simp] theorem offer_regs (f : Frame) : (offer f s).regs = s.regs := rfl
@[simp] theorem offer_eng (f : Frame) : (offer f s).eng = s.eng := rfl
@[simp] theorem offer_tx (f : Frame) : (offer f s).tx = { s.tx with tstate := .dc, fk := f.kind, sh := f.value, nb := 7, ph := .lo } := rfl
@[simp] theorem offer_pins (f : Frame) : (offer f s).pins = { s.pins with dc := f.kind.isData } := rfl
@[simp] theorem offer_trace (f : Frame) : (offer f s).trace = s.trace := rfl
@[simp] theorem offer_rx (f : Frame) : (offer f s).rx = s.rx := rfl
@[simp] theorem offer_panel (f : Frame) : (offer f s).panel = s.panel := rfl
@[simp] theorem offer_host (f : Frame) : (offer f s).host = s.host := rfl

/-! ### emit -/

@[simp] theorem emit_cfg (f : Frame) : (emit f s).cfg = s.cfg := rfl
@[simp] theorem emit_regs (f : Frame) : (emit f s).regs = { s.regs with txcount := s.regs.txcount + 1#32 } := rfl
@[simp] theorem emit_eng (f : Frame) : (emit f s).eng = s.eng := rfl
@[simp] theorem emit_tx (f : Frame) : (emit f s).tx = s.tx := rfl
@[simp] theorem emit_pins (f : Frame) : (emit f s).pins = { s.pins with dc := f.kind.isData } := rfl
@[simp] theorem emit_trace (f : Frame) : (emit f s).trace = s.trace ++ [f] := rfl
@[simp] theorem emit_rx (f : Frame) : (emit f s).rx = s.rx := rfl
@[simp] theorem emit_panel (f : Frame) : (emit f s).panel = s.panel := rfl
@[simp] theorem emit_host (f : Frame) : (emit f s).host = s.host := rfl

/-! ### startShift -/

@[simp] theorem startShift_cfg : (startShift s).cfg = s.cfg := rfl
@[simp] theorem startShift_regs : (startShift s).regs = s.regs := rfl
@[simp] theorem startShift_eng : (startShift s).eng = s.eng := rfl
@[simp] theorem startShift_tx : (startShift s).tx = { s.tx with tstate := .shift, ph := .lo } := rfl
@[simp] theorem startShift_pins : (startShift s).pins = { s.pins with csN := false, mosi := s.tx.sh.getLsbD 7, sclk := false } := rfl
@[simp] theorem startShift_trace : (startShift s).trace = s.trace := rfl
@[simp] theorem startShift_rx : (startShift s).rx = s.rx := rfl
@[simp] theorem startShift_panel : (startShift s).panel = s.panel := rfl
@[simp] theorem startShift_host : (startShift s).host = s.host := rfl

/-! ### clockHigh -/

@[simp] theorem clockHigh_cfg : (clockHigh s).cfg = s.cfg := rfl
@[simp] theorem clockHigh_regs : (clockHigh s).regs = s.regs := rfl
@[simp] theorem clockHigh_eng : (clockHigh s).eng = s.eng := rfl
@[simp] theorem clockHigh_tx : (clockHigh s).tx = { s.tx with ph := .hi } := rfl
@[simp] theorem clockHigh_pins : (clockHigh s).pins = { s.pins with sclk := true } := rfl
@[simp] theorem clockHigh_trace : (clockHigh s).trace = s.trace := rfl
@[simp] theorem clockHigh_rx : (clockHigh s).rx = s.rx := rfl
@[simp] theorem clockHigh_panel : (clockHigh s).panel = s.panel := rfl
@[simp] theorem clockHigh_host : (clockHigh s).host = s.host := rfl

/-! ### nextBit -/

@[simp] theorem nextBit_cfg : (nextBit s).cfg = s.cfg := rfl
@[simp] theorem nextBit_regs : (nextBit s).regs = s.regs := rfl
@[simp] theorem nextBit_eng : (nextBit s).eng = s.eng := rfl
@[simp] theorem nextBit_tx : (nextBit s).tx = { s.tx with nb := ⟨s.tx.nb.val - 1, by omega⟩, ph := .lo } := rfl
@[simp] theorem nextBit_pins : (nextBit s).pins = { s.pins with sclk := false, mosi := s.tx.sh.getLsbD (s.tx.nb.val - 1) } := rfl
@[simp] theorem nextBit_trace : (nextBit s).trace = s.trace := rfl
@[simp] theorem nextBit_rx : (nextBit s).rx = s.rx := rfl
@[simp] theorem nextBit_panel : (nextBit s).panel = s.panel := rfl
@[simp] theorem nextBit_host : (nextBit s).host = s.host := rfl

/-! ### resetBlock -/

@[simp] theorem resetBlock_cfg : (resetBlock s).cfg = s.cfg := rfl
@[simp] theorem resetBlock_regs : (resetBlock s).regs = Regs.reset s.cfg.settleReset := rfl
@[simp] theorem resetBlock_eng : (resetBlock s).eng = Engine.reset := rfl
@[simp] theorem resetBlock_tx : (resetBlock s).tx = Transport.reset := rfl
@[simp] theorem resetBlock_pins : (resetBlock s).pins = Pins.reset := rfl
@[simp] theorem resetBlock_trace : (resetBlock s).trace = [] := rfl
@[simp] theorem resetBlock_rx : (resetBlock s).rx = if s.frameOnWire then s.rx.havoc else s.rx := rfl
@[simp] theorem resetBlock_panel : (resetBlock s).panel = s.noteAfterReset := rfl
@[simp] theorem resetBlock_host : (resetBlock s).host = s.host := rfl

/-! ### withRx -/

@[simp] theorem withRx_cfg (r : Receiver) : (s.withRx r).cfg = s.cfg := rfl
@[simp] theorem withRx_regs (r : Receiver) : (s.withRx r).regs = s.regs := rfl
@[simp] theorem withRx_eng (r : Receiver) : (s.withRx r).eng = s.eng := rfl
@[simp] theorem withRx_tx (r : Receiver) : (s.withRx r).tx = s.tx := rfl
@[simp] theorem withRx_pins (r : Receiver) : (s.withRx r).pins = s.pins := rfl
@[simp] theorem withRx_trace (r : Receiver) : (s.withRx r).trace = s.trace := rfl
@[simp] theorem withRx_rx (r : Receiver) : (s.withRx r).rx = r := rfl
@[simp] theorem withRx_panel (r : Receiver) : (s.withRx r).panel = s.panel := rfl
@[simp] theorem withRx_host (r : Receiver) : (s.withRx r).host = s.host := rfl

/-! ### release -/

@[simp] theorem release_cfg : (release s).1.cfg = s.cfg := rfl
@[simp] theorem release_regs : (release s).1.regs = { s.regs with txcount := s.regs.txcount + 1#32 } := rfl
@[simp] theorem release_eng : (release s).1.eng = s.eng := rfl
@[simp] theorem release_tx : (release s).1.tx = { s.tx with tstate := .rel } := rfl
@[simp] theorem release_pins : (release s).1.pins = { s.pins with csN := true, dc := s.tx.fk.isData } := rfl
@[simp] theorem release_trace : (release s).1.trace = s.trace ++ [⟨s.tx.fk, s.tx.sh⟩] := rfl
@[simp] theorem release_rx : (release s).1.rx = s.rx := rfl
@[simp] theorem release_panel : (release s).1.panel = s.panel := rfl
@[simp] theorem release_host : (release s).1.host = s.host := rfl
@[simp] theorem release_frame : (release s).2 = some ⟨s.tx.fk, s.tx.sh⟩ := rfl

/-! ### launch, accept and perform -/

@[simp] theorem launch_cfg (op : Op) (fs : List Frame) : (launch op fs s).cfg = s.cfg := by cases fs <;> rfl
@[simp] theorem launch_regs (op : Op) (fs : List Frame) : (launch op fs s).regs = s.regs := by cases fs <;> rfl
@[simp] theorem launch_trace (op : Op) (fs : List Frame) : (launch op fs s).trace = s.trace := by cases fs <;> rfl
@[simp] theorem launch_rx (op : Op) (fs : List Frame) : (launch op fs s).rx = s.rx := by cases fs <;> rfl
@[simp] theorem launch_panel (op : Op) (fs : List Frame) : (launch op fs s).panel = s.panel := by cases fs <;> rfl
@[simp] theorem launch_host (op : Op) (fs : List Frame) : (launch op fs s).host = s.host := by cases fs <;> rfl
@[simp] theorem accept_cfg (l : Launch) : (accept l s).cfg = s.cfg := by simp [accept]
@[simp] theorem accept_trace (l : Launch) : (accept l s).trace = s.trace := by simp [accept]
@[simp] theorem accept_rx (l : Launch) : (accept l s).rx = s.rx := by simp [accept]
@[simp] theorem accept_panel (l : Launch) : (accept l s).panel = s.panel := by simp [accept]
@[simp] theorem accept_host (l : Launch) : (accept l s).host = s.host := by simp [accept]
@[simp] theorem accept_regs (l : Launch) : (accept l s).regs = s.regs.noteLaunch l := by simp [accept]
@[simp] theorem perform_cfg (p : Plan) : (perform p s).cfg = s.cfg := by
  unfold perform
  split
  · rfl
  · split <;> simp
@[simp] theorem perform_trace (p : Plan) : (perform p s).trace = s.trace := by
  unfold perform
  split
  · rfl
  · split <;> simp
@[simp] theorem perform_rx (p : Plan) : (perform p s).rx = s.rx := by
  unfold perform
  split
  · rfl
  · split <;> simp
@[simp] theorem perform_panel (p : Plan) : (perform p s).panel = s.panel := by
  unfold perform
  split
  · rfl
  · split <;> simp
@[simp] theorem perform_host (p : Plan) : (perform p s).host = s.host := by
  unfold perform
  split
  · rfl
  · split <;> simp

/-! ### busy -/

@[simp] theorem busy_raiseErr (e : Err) : (raiseErr e s).busy = s.busy := rfl
@[simp] theorem busy_clearErrs (v : Word) : (clearErrs v s).busy = s.busy := rfl
@[simp] theorem busy_withRx (r : Receiver) : (s.withRx r).busy = s.busy := rfl
@[simp] theorem busy_emit (f : Frame) : (emit f s).busy = s.busy := rfl
@[simp] theorem busy_offer (f : Frame) : (offer f s).busy = s.busy := rfl
theorem busy_eq_false_iff : s.busy = false ↔ s.eng.curOp = none := by
  simp [State.busy]

/-! ### noteLaunch: the registers acceptance never writes -/


@[simp] theorem noteLaunch_err (r : Regs) (l : Launch) : (r.noteLaunch l).err = r.err := by
  cases l with | mk op fs note => cases note <;> cases op <;> rfl
@[simp] theorem noteLaunch_win (r : Regs) (l : Launch) : (r.noteLaunch l).win = r.win := by
  cases l with | mk op fs note => cases note <;> cases op <;> rfl
@[simp] theorem noteLaunch_settle (r : Regs) (l : Launch) : (r.noteLaunch l).settle = r.settle := by
  cases l with | mk op fs note => cases note <;> cases op <;> rfl
@[simp] theorem noteLaunch_txcount (r : Regs) (l : Launch) : (r.noteLaunch l).txcount = r.txcount := by
  cases l with | mk op fs note => cases note <;> cases op <;> rfl
@[simp] theorem noteLaunch_tb (r : Regs) (l : Launch) : (r.noteLaunch l).tb = r.tb := by
  cases l with | mk op fs note => cases note <;> cases op <;> rfl

end Sys2Proof.Machine
end

