-- ==== Sys2Proof/Laws/Step.lean ====
section
/-! SUPPORT. What each share of a clock edge can do, once for each operation, and the one inversion lemma of `step`. -/

namespace Sys2Proof.Machine

variable {s t : State}

/-! ### The transport's edge, state by state -/

theorem transportEdge_idle (h : s.tx.tstate = .idle) : transportEdge s = (s, none) := by
  simp [transportEdge, h]

theorem transportEdge_dc (h : s.tx.tstate = .dc) : transportEdge s = (startShift s, none) := by
  simp [transportEdge, h]

theorem transportEdge_lo (h : s.tx.tstate = .shift) (hp : s.tx.ph = .lo) :
    transportEdge s = (clockHigh s, none) := by
  simp [transportEdge, h, hp]

theorem transportEdge_hi (h : s.tx.tstate = .shift) (hp : s.tx.ph = .hi) (hn : 0 < s.tx.nb.val) :
    transportEdge s = (nextBit s, none) := by
  simp only [transportEdge, h, hp, hn, if_true]

theorem transportEdge_last (h : s.tx.tstate = .shift) (hp : s.tx.ph = .hi) (hn : s.tx.nb.val = 0) :
    transportEdge s = endShift s := by
  simp only [transportEdge, h, hp, hn, Nat.lt_irrefl, if_false]

theorem transportEdge_settle (h : s.tx.tstate = .settle) : transportEdge s = settleEdge s := by
  simp [transportEdge, h]

theorem transportEdge_rel (h : s.tx.tstate = .rel) : transportEdge s = (afterRelease s, none) := by
  simp [transportEdge, h]

/-- The cases of an edge. -/
theorem transportEdge_cases (s : State) :
    (s.tx.tstate = .idle ∧ transportEdge s = (s, none))
    ∨ (s.tx.tstate = .dc ∧ transportEdge s = (startShift s, none))
    ∨ (s.tx.tstate = .shift ∧ s.tx.ph = .lo ∧ transportEdge s = (clockHigh s, none))
    ∨ (s.tx.tstate = .shift ∧ s.tx.ph = .hi ∧ 0 < s.tx.nb.val ∧ transportEdge s = (nextBit s, none))
    ∨ (s.tx.tstate = .shift ∧ s.tx.ph = .hi ∧ s.tx.nb.val = 0 ∧ transportEdge s = endShift s)
    ∨ (s.tx.tstate = .settle ∧ transportEdge s = settleEdge s)
    ∨ (s.tx.tstate = .rel ∧ transportEdge s = (afterRelease s, none)) := by
  cases h : s.tx.tstate with
  | idle => exact .inl ⟨rfl, transportEdge_idle h⟩
  | dc => exact .inr (.inl ⟨rfl, transportEdge_dc h⟩)
  | shift =>
    cases hp : s.tx.ph with
    | lo => exact .inr (.inr (.inl ⟨rfl, rfl, transportEdge_lo h hp⟩))
    | hi =>
      rcases Nat.eq_zero_or_pos s.tx.nb.val with hn | hn
      · exact .inr (.inr (.inr (.inr (.inl ⟨rfl, rfl, hn, transportEdge_last h hp hn⟩))))
      · exact .inr (.inr (.inr (.inl ⟨rfl, rfl, hn, transportEdge_hi h hp hn⟩)))
  | settle => exact .inr (.inr (.inr (.inr (.inr (.inl ⟨rfl, transportEdge_settle h⟩)))))
  | rel => exact .inr (.inr (.inr (.inr (.inr (.inr ⟨rfl, transportEdge_rel h⟩)))))

/-- The end of the shift, as a release or as a settle interval. -/
theorem endShift_cases (s : State) :
    (s.regs.settle = 0#32 ∧ endShift s = release { s with pins := { s.pins with sclk := false } })
    ∨ (s.regs.settle ≠ 0#32 ∧ endShift s = ({ s with
        pins := { s.pins with sclk := false }
        tx := { s.tx with tstate := .settle, sc := s.regs.settle } }, none)) := by
  by_cases h : s.regs.settle = 0#32
  · exact .inl ⟨h, by simp [endShift, h]⟩
  · exact .inr ⟨h, by simp [endShift, h]⟩

/-- What no edge of the transport writes. -/
theorem transportEdge_frame (s : State) :
    (transportEdge s).1.cfg = s.cfg ∧ (transportEdge s).1.rx = s.rx ∧ (transportEdge s).1.host = s.host
      ∧ (transportEdge s).1.eng.frames = s.eng.frames ∧ (transportEdge s).1.regs.win = s.regs.win
      ∧ (transportEdge s).1.regs.curwin = s.regs.curwin ∧ (transportEdge s).1.regs.settle = s.regs.settle
      ∧ (transportEdge s).1.regs.tb = s.regs.tb ∧ (transportEdge s).1.regs.err = s.regs.err
      ∧ (transportEdge s).1.regs.winValid = s.regs.winValid := by
  rcases transportEdge_cases s with ⟨-, h⟩ | ⟨-, h⟩ | ⟨-, -, h⟩ | ⟨-, -, -, h⟩ | ⟨-, -, -, h⟩ | ⟨-, h⟩ | ⟨-, h⟩ <;>
    rw [h]
  · simp
  · simp
  · simp
  · simp
  · rcases endShift_cases s with ⟨-, h⟩ | ⟨-, h⟩ <;> rw [h] <;> simp
  · unfold settleEdge; split <;> simp
  · unfold afterRelease; split <;> simp

/-- What an edge of the transport does to the note of a completed INIT: nothing, or an INIT ends with it. -/
theorem transportEdge_panel (s : State) :
    (transportEdge s).1.panel = s.panel
      ∨ (s.eng.curOp = some .init ∧ (transportEdge s).1.panel = .ready ∧ (transportEdge s).1.regs.initDone = true
        ∧ (transportEdge s).1.eng.curOp = none) := by
  rcases transportEdge_cases s with ⟨-, h⟩ | ⟨-, h⟩ | ⟨-, -, h⟩ | ⟨-, -, -, h⟩ | ⟨-, -, -, h⟩ | ⟨-, h⟩ | ⟨-, h⟩ <;>
    rw [h]
  · exact .inl rfl
  · exact .inl rfl
  · exact .inl rfl
  · exact .inl rfl
  · rcases endShift_cases s with ⟨-, h⟩ | ⟨-, h⟩ <;> rw [h] <;> exact .inl rfl
  · unfold settleEdge; split <;> exact .inl rfl
  · unfold afterRelease
    split
    · exact .inl rfl
    · by_cases hi : s.eng.curOp = some .init
      · exact .inr ⟨hi, by simp [hi], by simp [hi], rfl⟩
      · exact .inl (by simp [hi])

/-! ### The receiver's share -/

/-- A wire instruction changes the receiver alone. -/
theorem exec_wire {i : Instr} (h : isRequest i = false) (s : State) : ∃ r, exec i s = .next (s.withRx r) := by
  cases i <;> first | exact ⟨_, rfl⟩ | cases h

/-- Taking a frame changes the receiver alone, and always goes on. -/
theorem takeFrame_finish (f : Frame) (s : State) : ∃ r, (takeFrame f s).finish = .next (s.withRx r) := by
  unfold takeFrame
  split
  · obtain ⟨r, hr⟩ := exec_wire (decodeFrames_not_request ‹_›) (s.withRx { s.rx with pending := .known [] })
    exact ⟨r, hr⟩
  · exact ⟨_, rfl⟩
  · exact ⟨_, rfl⟩
  · exact ⟨_, rfl⟩

/-- The wire's share of an edge: the transport's edge, with another receiver where a frame completed. -/
theorem wireEvent_finish (s : State) :
    ∃ r, (wireEvent s).finish = .next ((transportEdge s).1.withRx r)
      ∧ ((transportEdge s).2 = none → r = s.rx) := by
  unfold wireEvent
  have hf := (transportEdge_frame s).2.1
  rcases h : transportEdge s with ⟨t, _ | f⟩
  · exact ⟨s.rx, by rw [h] at hf; simp only at hf; simp [Event.finish, State.withRx, ← hf], fun _ => rfl⟩
  · obtain ⟨r, hr⟩ := takeFrame_finish f t
    exact ⟨r, hr, by simp⟩

/-! ### The host's share -/

/-- The actions that run no instruction write only the registers. -/
theorem event_regs (a : HostAction) (s : State) (h : ∀ i, a ≠ .request i) :
    (a.event s).finish = .next { s with regs := a.onRegs s.regs } := by
  cases a <;> first | rfl | exact absurd rfl (h _)

/-- A request is judged one only of an idle block. -/
theorem hostAction_request {busy : Bool} {p : PortCycle} {i : Instr} (h : hostAction busy p = .request i) :
    busy = false ∧ decodeRequest p.wdata = .ok i ∧ p.addr = 0x08#6 ∧ aligned p.addr p.size = true := by
  simp only [hostAction, hostWrite] at h
  repeat' split at h
  all_goals cases h
  refine ⟨by simp_all, by assumption, ?_, by simp_all⟩
  exact BitVec.eq_of_toNat_eq ‹p.addr.toNat = 8›

/-! ### The step -/

/-- A step in reset (R250). -/
theorem step_reset (h : s.inputs.rst = true) : step s = .next (resetBlock s.presented) := by
  simp [step, h, State.presented]

/-- A step out of reset: the wire's share, then the host's. -/
theorem step_run (h : s.inputs.rst = false) :
    ∃ r, step s = ((hostAction s.busy s.inputs).event ((transportEdge s.presented).1.withRx r)).finish
      ∧ ((transportEdge s.presented).2 = none → r = s.rx) := by
  obtain ⟨r, hr, hn⟩ := wireEvent_finish s.presented
  refine ⟨r, ?_, hn⟩
  simp only [step, h]
  rw [show (wireEvent { s with host := s.retire }).finish = _ from hr]
  rfl

/-- The one inversion lemma: what a step that goes on has done. -/
theorem step_cases (h : step s = .next t) :
    (s.inputs.rst = true ∧ t = resetBlock s.presented)
    ∨ (s.inputs.rst = false ∧ ∃ r, ((transportEdge s.presented).2 = none → r = s.rx)
        ∧ ((hostAction s.busy s.inputs).event ((transportEdge s.presented).1.withRx r)).finish = .next t) := by
  cases hr : s.inputs.rst with
  | true => rw [step_reset hr] at h; cases h; exact .inl ⟨rfl, rfl⟩
  | false =>
    obtain ⟨r, he, hn⟩ := step_run hr
    exact .inr ⟨rfl, r, hn, he ▸ h⟩

end Sys2Proof.Machine
end

