-- ==== Sys2Proof/Laws/Ops.lean ====
section
/-! SUPPORT. What each shared operation comes to, once: a request performed, a launch, the frame lists, the checks of a host
write, and the edge of a transport whose host is another. -/

namespace Sys2Proof.Machine

variable (s : State)

/-! ### Requests -/

theorem perform_busy (p : Plan) (h : s.busy = true) : perform p s = raiseErr .busy s := by simp [perform, h]

theorem perform_reject (e : Err) (h : s.busy = false) : perform (.reject e) s = raiseErr e s := by simp [perform, h]

theorem perform_start (l : Launch) (h : s.busy = false) : perform (.start l) s = accept l s := by simp [perform, h]

/-- A launch of at least one frame: the engine runs, and the first frame is offered. -/
theorem launch_cons (op : Op) (f : Frame) (fs : List Frame) :
    launch op (f :: fs) s = offer f { s with eng := ⟨some op, f :: fs, 1⟩ } := rfl

/-- Every launch leaves the engine running the frames it was given. -/
theorem launch_eng (op : Op) (fs : List Frame) :
    (launch op fs s).eng.curOp = some op ∧ (launch op fs s).eng.frames = fs := by cases fs <;> exact ⟨rfl, rfl⟩

theorem accept_eng (l : Launch) : (accept l s).eng.curOp = some l.op ∧ (accept l s).eng.frames = l.frames :=
  launch_eng _ l.op l.frames

@[simp] theorem windowFrames_length (o : Opcodes) (a b c d : Byte) : (windowFrames o a b c d).length = 6 := rfl

@[simp] theorem glyphFrames_length (cfg : Params) (i : Fin 41) : (glyphFrames cfg i).length = 6 := by simp [glyphFrames]

/-- `len(INIT_ROM) + 6 + 1024` frames (R166). -/
theorem initFrames_length (cfg : Params) : (initFrames cfg).length = cfg.initRom.length + 6 + 1024 := by
  simp only [initFrames, Config.clearBytes, List.length_append, List.length_map, List.length_replicate,
    windowFrames_length]

/-- `6 + 6·LEN` frames (R196). -/
theorem drawTextFrames_length (cfg : Params) (x y len : Byte) (run : List (Fin 41)) :
    (drawTextFrames cfg x y len run).length = 6 + 6 * run.length := by
  induction run with
  | nil => rfl
  | cons i rest ih =>
    simp only [drawTextFrames, List.flatMap_cons, List.length_append, windowFrames_length, glyphFrames_length,
      List.length_cons] at ih ⊢
    omega

/-- A run of legal cells has its rows, in order. -/
theorem glyphRun_eq_some {l : List Byte} (h : ∀ b ∈ l, b.toNat ≤ 40) :
    ∃ run, glyphRun l = some run ∧ run.map Fin.val = l.map BitVec.toNat := by
  induction l with
  | nil => exact ⟨[], rfl, rfl⟩
  | cons b rest ih =>
    obtain ⟨run, h1, h2⟩ := ih fun c hc => h c (List.mem_cons_of_mem b hc)
    have hb : b.toNat < 41 := Nat.lt_succ_of_le (h b (List.mem_cons_self ..))
    exact ⟨⟨b.toNat, hb⟩ :: run, by simp only [glyphRun, h1, dif_pos hb], by simp [h2]⟩

/-- One cell above 40 and there is no run. -/
theorem glyphRun_eq_none {l : List Byte} (h : ∃ b ∈ l, 40 < b.toNat) : glyphRun l = none := by
  induction l with
  | nil => simp at h
  | cons b rest ih =>
    unfold glyphRun
    split
    · obtain ⟨c, hc, h40⟩ := h
      rcases List.mem_cons.1 hc with rfl | hc
      · omega
      · rw [ih ⟨c, hc, h40⟩]
    · rfl

/-! ### The host port -/

/-- A write that is not an aligned word write (R229, check 1). -/
theorem hostWrite_unaligned {addr : BitVec 6} {size : BitVec 2} (h : aligned addr size = false) (busy : Bool) (v : Word) :
    hostWrite busy addr size v = .raise .addr := by simp [hostWrite, h]

/-- The action depends on the port inputs and on BUSY alone, and a busy block stores nothing and runs nothing. -/
theorem hostAction_busy (p : PortCycle) :
    hostAction true p = .nothing ∨ (∃ e, hostAction true p = .raise e) ∨ ∃ v, hostAction true p = .clear v := by
  unfold hostAction hostWrite
  split
  · split
    · exact .inr (.inl ⟨_, rfl⟩)
    · split
      · exact .inr (.inl ⟨_, rfl⟩)
      · exact .inr (.inl ⟨_, rfl⟩)
      · exact .inr (.inl ⟨_, rfl⟩)
      · exact .inr (.inl ⟨_, rfl⟩)
      · exact .inr (.inr ⟨_, rfl⟩)
      · exact .inr (.inl ⟨.busy, by simp⟩)
  · exact .inl rfl

/-! ### The transport -/

/-- The transport's edge does not read the host's side. -/
theorem transportEdge_host (h : HostSide) :
    transportEdge { s with host := h } = ({ (transportEdge s).1 with host := h }, (transportEdge s).2) := by
  rcases transportEdge_cases s with ⟨ht, e⟩ | ⟨ht, e⟩ | ⟨ht, hp, e⟩ | ⟨ht, hp, hn, e⟩ | ⟨ht, hp, hn, e⟩ | ⟨ht, e⟩ |
    ⟨ht, e⟩ <;> rw [e]
  · rw [transportEdge_idle (by exact ht)]
  · rw [transportEdge_dc (by exact ht)]; rfl
  · rw [transportEdge_lo (by exact ht) (by exact hp)]; rfl
  · rw [transportEdge_hi (by exact ht) (by exact hp) (by exact hn)]; rfl
  · rw [transportEdge_last (by exact ht) (by exact hp) (by exact hn)]
    unfold endShift; simp only; split <;> rfl
  · rw [transportEdge_settle (by exact ht)]
    unfold settleEdge; simp only; split <;> rfl
  · rw [transportEdge_rel (by exact ht)]
    unfold afterRelease; simp only; split <;> rfl

end Sys2Proof.Machine
end

