-- ==== Sys2Proof/Laws/HostPort.lean ====
section
/-! SUPPORT. A clock edge with a host access against the same edge without one, and the edge of a busy block, whatever the
host does in it. -/

namespace Sys2Proof.Machine

variable {s t : State}

theorem aligned_iff (addr : BitVec 6) (size : BitVec 2) :
    aligned addr size = true ↔ size = 2#2 ∧ addr.toNat % 4 = 0 := by
  revert addr size; decide

/-! ### The host's operations -/

/-- The host's operations to come are among those it had. -/
theorem mem_retire {op : HostOp} (h : op ∈ s.retire.program) : op ∈ s.host.program := by
  unfold State.retire at h
  cases hp : s.host.program with
  | nil => rw [hp] at h; simp [hp] at h
  | cons o rest =>
    rw [hp] at h
    cases o with
    | poll off mask val =>
      simp only at h
      split at h
      · exact List.mem_cons_of_mem _ h
      · exact h
    | port _ => exact List.mem_cons_of_mem _ h
    | sw _ _ => exact List.mem_cons_of_mem _ h
    | lw _ _ => exact List.mem_cons_of_mem _ h

theorem inputs_rst (h : s.noResetAhead) : s.inputs.rst = false := by
  unfold State.inputs
  cases hp : s.host.program with
  | nil => rfl
  | cons o rest => exact h o (by rw [hp]; exact List.mem_cons_self ..)

theorem noResetAhead_retire (h : s.noResetAhead) (ht : t.host = s.retire) : t.noResetAhead :=
  fun _ ho => h _ (mem_retire (ht ▸ ho))

/-- A write takes one operation off the program and answers nothing. -/
theorem retire_write (hs : s.inputs.sel = true) (hw : s.inputs.we = true) :
    s.retire = ⟨s.host.program.tail, s.host.vars, none⟩ := by
  cases hp : s.host.program with
  | nil => simp [State.inputs, hp, PortCycle.idle] at hs
  | cons op rest =>
    have hi : s.inputs = op.inputs := by simp [State.inputs, hp]
    rw [hi] at hw
    cases op with
    | port p => simp only [HostOp.inputs] at hi hw; simp [State.retire, hp, hi, PortCycle.reads, hw]
    | sw off v => simp [State.retire, hp, hi, PortCycle.reads, HostOp.inputs, PortCycle.writeWord]
    | lw r off => cases hw
    | poll off mask val => cases hw

/-! ### Edges compared -/

/-- A wire instruction does to the receiver the same whatever the host. -/
theorem exec_wire_host {i : Instr} (h : isRequest i = false) (s : State) (x : HostSide) :
    ∃ r, exec i s = .next (s.withRx r) ∧ exec i { s with host := x } = .next (({ s with host := x } : State).withRx r) := by
  cases i <;> first | exact ⟨_, rfl, rfl⟩ | cases h

theorem takeFrame_host (f : Frame) (s : State) (x : HostSide) :
    ∃ r, (takeFrame f s).finish = .next (s.withRx r)
      ∧ (takeFrame f { s with host := x }).finish = .next (({ s with host := x } : State).withRx r) := by
  unfold takeFrame
  simp only [Receiver.bytes]
  split
  · exact exec_wire_host (decodeFrames_not_request ‹_›) (s.withRx { s.rx with pending := .known [] }) x
  · exact ⟨_, rfl, rfl⟩
  · exact ⟨_, rfl, rfl⟩
  · exact ⟨_, rfl, rfl⟩

/-- The wire's share of an edge is the same whatever the host. -/
theorem wireEvent_host (s : State) (x : HostSide) :
    ∃ r, (wireEvent s).finish = .next ((transportEdge s).1.withRx r)
      ∧ (wireEvent { s with host := x }).finish
        = .next (({ (transportEdge s).1 with host := x } : State).withRx r) := by
  unfold wireEvent
  rw [transportEdge_host s x]
  rcases transportEdge s with ⟨t, _ | f⟩
  · exact ⟨t.rx, rfl, rfl⟩
  · exact takeFrame_host f t x

/-- An edge out of reset: the host's action on what the same edge leaves with no access in its place. -/
theorem step_beside (h : s.inputs.rst = false) :
    ∃ r, step s.withoutAccess = .next (({ (transportEdge s).1 with
            host := ⟨s.host.program.tail, s.host.vars, none⟩ } : State).withRx r)
      ∧ step s = ((hostAction s.busy s.inputs).event
          (({ (transportEdge s).1 with host := s.retire } : State).withRx r)).finish := by
  obtain ⟨r, h1, h2⟩ := wireEvent_host { s with host := s.retire } ⟨s.host.program.tail, s.host.vars, none⟩
  rw [transportEdge_host s s.retire] at h1 h2
  refine ⟨r, ?_, ?_⟩
  · have hw : (wireEvent { s.withoutAccess with host := s.withoutAccess.retire }).finish = _ := h2
    simp only [step]
    rw [show s.withoutAccess.inputs.rst = false from rfl, hw]
    rfl
  · simp only [step, h]
    rw [h1]
    rfl

/-- A step of a busy block, no reset ahead: the transport's edge, but for the error bits, the receiver and the host (R227,
R230). -/
theorem busy_step (h : s.noResetAhead) (hb : s.busy = true) :
    ∃ (b : ErrBits) (r : Receiver), step s = .next { (transportEdge s).1 with
        regs := { (transportEdge s).1.regs with err := b }, rx := r, host := s.retire } := by
  obtain ⟨r, -, he⟩ := step_beside (inputs_rst h)
  rw [hb] at he
  rcases hostAction_busy s.inputs with ha | ⟨e, ha⟩ | ⟨v, ha⟩ <;> rw [ha] at he
  · exact ⟨_, r, he⟩
  · exact ⟨_, r, he⟩
  · exact ⟨_, r, he⟩

end Sys2Proof.Machine
end

