-- ==== Sys2Proof/Laws/Memory.lean ====
section
/-! SUPPORT. The laws of the receiver's display memory: read after write, and that every operation keeps the canonical
form; and where the instructions of the panel act. -/

namespace Sys2Proof.Machine

/-- A read after a write to the same cell gives the byte written. -/
@[simp] theorem Memory.read_write_same (m : List Host.Cell) (a : Nat) (v : Byte) :
    Memory.read (Memory.write m a v) a = some v := by
  induction m with
  | nil => simp [Memory.write, Memory.read]
  | cons c rest ih =>
    obtain ⟨b, w⟩ := c
    unfold Memory.write
    split
    · simp [Memory.read]
    · split
      · simp [Memory.read]
      · rename_i hne
        simp [Memory.read, Ne.symm hne, ih]

/-- A write leaves every other cell alone. -/
theorem Memory.read_write_other (m : List Host.Cell) {a b : Nat} (v : Byte) (h : b ≠ a) :
    Memory.read (Memory.write m a v) b = Memory.read m b := by
  induction m with
  | nil => simp [Memory.write, Memory.read, Ne.symm h]
  | cons c rest ih =>
    obtain ⟨d, w⟩ := c
    unfold Memory.write
    split
    · simp [Memory.read, Ne.symm h]
    · split
      · rename_i hd
        simp [Memory.read, Ne.symm h, ← hd]
      · by_cases hb : d = b <;> simp [Memory.read, hb, ih]

theorem Memory.wfFrom_mono {lo lo' hi : Nat} {m : List Host.Cell} (h : lo' ≤ lo)
    (hm : Memory.wfFrom lo hi m = true) : Memory.wfFrom lo' hi m = true := by
  cases m with
  | nil => rfl
  | cons c rest =>
    simp only [Memory.wfFrom, Bool.and_eq_true, decide_eq_true_eq] at hm ⊢
    exact ⟨⟨h.trans hm.1.1, hm.1.2⟩, hm.2⟩

theorem Memory.wfFrom_write {lo hi a : Nat} (m : List Host.Cell) (v : Byte) (hlo : lo ≤ a) (hhi : a < hi)
    (hm : Memory.wfFrom lo hi m = true) : Memory.wfFrom lo hi (Memory.write m a v) = true := by
  induction m generalizing lo with
  | nil => simp [Memory.write, Memory.wfFrom, hlo, hhi]
  | cons c rest ih =>
    obtain ⟨b, w⟩ := c
    simp only [Memory.wfFrom, Bool.and_eq_true, decide_eq_true_eq] at hm
    unfold Memory.write
    split
    · rename_i hab
      simp only [Memory.wfFrom, Bool.and_eq_true, decide_eq_true_eq]
      exact ⟨⟨hlo, hhi⟩, ⟨by omega, hm.1.2⟩, hm.2⟩
    · split
      · rename_i hab
        simp only [Memory.wfFrom, Bool.and_eq_true, decide_eq_true_eq]
        exact ⟨⟨hlo, hhi⟩, hab ▸ hm.2⟩
      · simp only [Memory.wfFrom, Bool.and_eq_true, decide_eq_true_eq]
        exact ⟨hm.1, ih (by omega) hm.2⟩

theorem cellAddr_lt (p : Fin 8) (c : Fin 128) : cellAddr p c < Config.nCols * Config.nPages := by
  simp only [cellAddr, Config.nCols, Config.nPages]
  omega

/-- Distinct cells have distinct addresses. -/
theorem cellAddr_inj {p q : Fin 8} {c d : Fin 128} (h : cellAddr p c = cellAddr q d) : p = q ∧ c = d := by
  simp only [cellAddr] at h
  constructor <;> ext <;> omega

/-- A write to a cell keeps the canonical form. -/
theorem Memory.wf_write {m : List Host.Cell} (h : Memory.wf m = true) (p : Fin 8) (c : Fin 128) (v : Byte) :
    Memory.wf (Memory.write m (cellAddr p c) v) = true :=
  Memory.wfFrom_write m v (Nat.zero_le _) (cellAddr_lt p c) h

@[simp] theorem Memory.wf_nil : Memory.wf [] = true := rfl

@[simp] theorem unknown_gd (n : Nat) : (Receiver.unknown n).gd = [] := rfl

theorem wf_havoc (r : Receiver) : Memory.wf r.havoc.gd = true := rfl

theorem wf_setColumns {r : Receiver} (h : Memory.wf r.gd = true) (a b : Byte) :
    Memory.wf (r.setColumns a b).gd = true := by
  unfold Receiver.setColumns
  split
  · exact h
  · exact wf_havoc r

theorem wf_setPages {r : Receiver} (h : Memory.wf r.gd = true) (a b : Byte) :
    Memory.wf (r.setPages a b).gd = true := by
  unfold Receiver.setPages
  split
  · exact h
  · exact wf_havoc r

theorem wf_putData {r : Receiver} (h : Memory.wf r.gd = true) (v : Byte) : Memory.wf (r.putData v).gd = true := by
  unfold Receiver.putData
  split
  · exact Memory.wf_write h _ _ v
  · exact wf_havoc r

theorem wf_setMode {r : Receiver} (h : Memory.wf r.gd = true) (args : List Byte) :
    Memory.wf (r.setMode args).gd = true := by
  unfold Receiver.setMode
  split
  · exact h
  · exact wf_havoc r

/-! ### Where the instructions of the panel act -/

/-- Once an INIT has completed, or while one runs, a window command or a data frame does what it does. -/
theorem panelDo_reached {s : State} (h : s.initReached = true) (r : Receiver) : s.panelDo r = s.withRx r := by
  simp [State.panelDo, h]

/-- Before, it sends the receiver to havoc. -/
theorem panelDo_before {s : State} (h : s.initReached = false) (r : Receiver) : s.panelDo r = s.withRx s.rx.havoc := by
  simp [State.panelDo, h]

theorem fieldDo_act {s : State} (h : s.fieldsAct = true) (r : Receiver) : s.fieldDo r = s.withRx r := by
  simp [State.fieldDo, h]

theorem fieldDo_cutOff {s : State} (h : s.fieldsAct = false) (r : Receiver) : s.fieldDo r = s.withRx s.rx.havoc := by
  simp [State.fieldDo, h]

theorem initReached_eq_false {s : State} :
    s.initReached = false ↔ s.panel ≠ .ready ∧ s.eng.curOp ≠ some .init := by
  simp [State.initReached, State.initRuns]

theorem fieldsAct_eq_false {s : State} :
    s.fieldsAct = false ↔ s.panel = .cutOff ∧ s.eng.curOp ≠ some .init := by
  simp [State.fieldsAct, State.initRuns]

/-- Where window commands and data frames act, the commands of R87 do. -/
theorem fieldsAct_of_initReached {s : State} (h : s.initReached = true) : s.fieldsAct = true := by
  cases hf : s.fieldsAct with
  | true => rfl
  | false =>
    obtain ⟨h1, h2⟩ := fieldsAct_eq_false.1 hf
    simp [State.initReached, State.initRuns, h1, h2] at h

theorem wf_fieldDo {s : State} {r : Receiver} (h : Memory.wf r.gd = true) : Memory.wf (s.fieldDo r).rx.gd = true := by
  cases hr : s.fieldsAct with
  | true => rw [fieldDo_act hr]; exact h
  | false => rw [fieldDo_cutOff hr]; exact wf_havoc s.rx

/-- The note after a reset, case by case. -/
theorem noteAfterReset_cases (s : State) :
    (s.frameOnWire = true ∧ s.noteAfterReset = .cutOff)
    ∨ (s.frameOnWire = false ∧ s.panel = .ready ∧ s.rx.settled = false ∧ s.noteAfterReset = .uninit)
    ∨ (s.frameOnWire = false ∧ (s.panel = .ready → s.rx.settled = true) ∧ s.noteAfterReset = s.panel) := by
  cases hf : s.frameOnWire with
  | true => exact .inl ⟨rfl, by simp [State.noteAfterReset, hf]⟩
  | false =>
    by_cases h : s.panel = .ready ∧ s.rx.settled = false
    · exact .inr (.inl ⟨rfl, h.1, h.2, by simp [State.noteAfterReset, hf, h]⟩)
    · refine .inr (.inr ⟨rfl, fun hp => ?_, by simp only [State.noteAfterReset, hf, if_neg h]; rfl⟩)
      cases hs : s.rx.settled with
      | true => rfl
      | false => exact absurd ⟨hp, hs⟩ h

theorem wf_panelDo {s : State} {r : Receiver} (h : Memory.wf r.gd = true) : Memory.wf (s.panelDo r).rx.gd = true := by
  cases hr : s.initReached with
  | true => rw [panelDo_reached hr]; exact h
  | false => rw [panelDo_before hr]; exact wf_havoc s.rx

end Sys2Proof.Machine
end

