-- ==== Sys2Proof/Laws/PerInstr.lean ====
section
/-! SUPPORT. For every instruction: its encoding meets the match and mask of its row of spec/opcode_table.json, and has as
many argument frames as the row says. -/

namespace Sys2Proof.Laws.TableRow

/-- The row of a request: match and mask (R102 to R105). -/
def requestRow : Instr → Option (Word × Word)
  | .writeByte _ _ => some (0x00000001#32, 0xFFFE00FF#32)
  | .init => some (0x00000002#32, 0xFFFFFFFF#32)
  | .setWindow => some (0x00000003#32, 0xFFFFFFFF#32)
  | .drawText _ _ _ => some (0x00000004#32, 0x000000FF#32)
  | _ => none

/-- The row of a wire instruction: match, mask and argument frames (R116, R160). -/
def wireRow : Instr → Option (FrameWord × FrameWord × Nat)
  | .dispoff _ => some (0x0AE#9, 0x1FF#9, 0)
  | .dispon _ => some (0x0AF#9, 0x1FF#9, 0)
  | .clkdiv _ => some (0x0D5#9, 0x1FF#9, 1)
  | .chgpump _ => some (0x08D#9, 0x1FF#9, 1)
  | .addrmode _ => some (0x020#9, 0x1FF#9, 1)
  | .segremap _ _ => some (0x0A0#9, 0x1FE#9, 0)
  | .comscan _ _ => some (0x0C0#9, 0x1F7#9, 0)
  | .compins _ => some (0x0DA#9, 0x1FF#9, 1)
  | .contrast _ => some (0x081#9, 0x1FF#9, 1)
  | .prechg _ => some (0x0D9#9, 0x1FF#9, 1)
  | .vcomdesel _ => some (0x0DB#9, 0x1FF#9, 1)
  | .resume _ => some (0x0A4#9, 0x1FF#9, 0)
  | .coladdr _ _ => some (0x021#9, 0x1FF#9, 2)
  | .pageaddr _ _ => some (0x022#9, 0x1FF#9, 2)
  | .data _ => some (0x100#9, 0x100#9, 0)
  | _ => none

/-- The encoding of an instruction with as many arguments as the default configuration counts is one of the row's. -/
def Statement (i : Instr) : Prop := i.fits Opcodes.default = true →
  (∃ w m k, encode Opcodes.default i = .request w ∧ requestRow i = some (m, k) ∧ w &&& k = m)
    ∨ (∃ w ws m k n, encode Opcodes.default i = .wire (w :: ws) ∧ wireRow i = some (m, k, n) ∧ w &&& k = m
        ∧ ws.length = n)

/-- A request word and its row's mask, lane by lane. -/
theorem ofLanes_and (a3 a2 a1 a0 b3 b2 b1 b0 : Byte) :
    ofLanes a3 a2 a1 a0 &&& ofLanes b3 b2 b1 b0 = ofLanes (a3 &&& b3) (a2 &&& b2) (a1 &&& b1) (a0 &&& b0) := by
  refine BitVec.eq_of_getLsbD_eq fun i hi => ?_
  rw [BitVec.getLsbD_and, getLsbD_ofLanes, getLsbD_ofLanes, getLsbD_ofLanes]
  split_ifs <;> rw [BitVec.getLsbD_and]

theorem writeByte (v : Byte) (k : Kind) : Statement (.writeByte v k) := by
  refine fun _ => .inl ⟨_, _, _, rfl, rfl, ?_⟩
  rw [show (0xFFFE00FF#32 : Word) = ofLanes 0xFF#8 0xFE#8 0x00#8 0xFF#8 from rfl, ofLanes_and]
  cases k <;> simp <;> rfl

theorem init : Statement .init := fun _ => .inl ⟨_, _, _, rfl, rfl, rfl⟩
theorem setWindow : Statement .setWindow := fun _ => .inl ⟨_, _, _, rfl, rfl, rfl⟩

theorem drawText (x y len : Byte) : Statement (.drawText x y len) := by
  refine fun _ => .inl ⟨_, _, _, rfl, rfl, ?_⟩
  rw [show (0x000000FF#32 : Word) = ofLanes 0x00#8 0x00#8 0x00#8 0xFF#8 from rfl, ofLanes_and]
  simp; rfl

/-- The argument frames of a command number its argument bytes. -/
theorem arguments_length {args : List Byte} {n : Nat} (h : (args.length == n) = true) :
    (args.map fun v => Frame.toWord ⟨.command, v⟩).length = n := by simpa using h

theorem dispoff (args : List Byte) : Statement (.dispoff args) := fun h =>
  .inr ⟨_, _, _, _, _, rfl, rfl, rfl, arguments_length h⟩
theorem dispon (args : List Byte) : Statement (.dispon args) := fun h =>
  .inr ⟨_, _, _, _, _, rfl, rfl, rfl, arguments_length h⟩
theorem clkdiv (args : List Byte) : Statement (.clkdiv args) := fun h =>
  .inr ⟨_, _, _, _, _, rfl, rfl, rfl, arguments_length h⟩
theorem chgpump (args : List Byte) : Statement (.chgpump args) := fun h =>
  .inr ⟨_, _, _, _, _, rfl, rfl, rfl, arguments_length h⟩
theorem addrmode (args : List Byte) : Statement (.addrmode args) := fun h =>
  .inr ⟨_, _, _, _, _, rfl, rfl, rfl, arguments_length h⟩
theorem segremap (r : Bool) (args : List Byte) : Statement (.segremap r args) := fun h => by
  cases r <;> exact .inr ⟨_, _, _, _, _, rfl, rfl, rfl, arguments_length h⟩
theorem comscan (d : Bool) (args : List Byte) : Statement (.comscan d args) := fun h => by
  cases d <;> exact .inr ⟨_, _, _, _, _, rfl, rfl, rfl, arguments_length h⟩
theorem compins (args : List Byte) : Statement (.compins args) := fun h =>
  .inr ⟨_, _, _, _, _, rfl, rfl, rfl, arguments_length h⟩
theorem contrast (args : List Byte) : Statement (.contrast args) := fun h =>
  .inr ⟨_, _, _, _, _, rfl, rfl, rfl, arguments_length h⟩
theorem prechg (args : List Byte) : Statement (.prechg args) := fun h =>
  .inr ⟨_, _, _, _, _, rfl, rfl, rfl, arguments_length h⟩
theorem vcomdesel (args : List Byte) : Statement (.vcomdesel args) := fun h =>
  .inr ⟨_, _, _, _, _, rfl, rfl, rfl, arguments_length h⟩
theorem resume (args : List Byte) : Statement (.resume args) := fun h =>
  .inr ⟨_, _, _, _, _, rfl, rfl, rfl, arguments_length h⟩
theorem coladdr (a b : Byte) : Statement (.coladdr a b) := fun _ => .inr ⟨_, _, _, _, _, rfl, rfl, rfl, rfl⟩
theorem pageaddr (a b : Byte) : Statement (.pageaddr a b) := fun _ => .inr ⟨_, _, _, _, _, rfl, rfl, rfl, rfl⟩

theorem data (v : Byte) : Statement (.data v) := by
  refine fun _ => .inr ⟨_, _, _, _, _, rfl, rfl, ?_, rfl⟩
  revert v
  decide

end Sys2Proof.Laws.TableRow
end

