-- ==== Sys2Proof/Tests/Slice0.lean ====
section
/-! SUPPORT. The model's own tests. Each expected result is written out from the spec: its encodings, its examples and the
test vectors of 95_test_vectors.md, named in the docstrings. The last part shows, for each statement of Obligations.lean
that has hypotheses, states and operands that meet them. -/

namespace Sys2Proof.Tests

open Sys2Proof Sys2Proof.Machine

/-! ### The checks of WellFormed -/

theorem test_wellFormed_drawText :
    (Instr.drawText 0#8 0#8 0#8).wellFormed .default = false ∧ (Instr.drawText 0#8 0#8 33#8).wellFormed .default = false
      ∧ (Instr.drawText 0#8 0#8 1#8).wellFormed .default = true
      ∧ (Instr.drawText 255#8 255#8 32#8).wellFormed .default = true := by decide

/-- R160's default counts: one argument where the table has 0, none and two where it has 1. -/
theorem test_wellFormed_arguments :
    (∀ i ∈ [Instr.dispoff [0#8], .dispon [0#8], .segremap true [0#8], .comscan false [0#8], .resume [0#8],
        .clkdiv [], .chgpump [], .addrmode [0#8, 0#8], .compins [], .contrast [0#8, 0#8], .prechg [], .vcomdesel []],
        i.wellFormed .default = false)
      ∧ ∀ i ∈ [Instr.dispoff [], .segremap true [], .clkdiv [0x80#8], .addrmode [0#8], .coladdr 5#8 4#8, .data 0#8],
          i.wellFormed .default = true := by decide

/-- A configuration of R160 with two arguments for set-clock-divider and one for resume-display. -/
def otherCounts : Opcodes := { Opcodes.default with args := { ArgCounts.default with clkdiv := 2, resume := 1 } }

/-- The power-up sequence of R161 with these counts, 21 bytes. -/
def otherRom : List Byte :=
  [0xAE#8, 0xD5#8, 0x80#8, 0x01#8, 0x8D#8, 0x14#8, 0x20#8, 0x00#8, 0xA1#8, 0xC8#8, 0xDA#8, 0x12#8,
   0x81#8, 0xCF#8, 0xD9#8, 0xF1#8, 0xDB#8, 0x40#8, 0xA4#8, 0x00#8, 0xAF#8]

/-- Two commands with one opcode; a command on the second variant of set-segment-remap, and of set-scan-direction. -/
theorem test_wellFormed_opcodes :
    Opcodes.default.wellFormed = true ∧ ({ Opcodes.default with dispon := 0xAE#8 } : Opcodes).wellFormed = false
      ∧ ({ Opcodes.default with resume := 0xA1#8 } : Opcodes).wellFormed = false
      ∧ ({ Opcodes.default with pageaddr := 0xC8#8 } : Opcodes).wellFormed = false := by decide

/-- A step omitted, two steps exchanged, a step repeated, a wrong opcode, an empty list (R162). -/
theorem test_wellFormed_initRom :
    Params.default.initRomOk = true
      ∧ ({ Params.default with initRom := Config.defaultInitRom.tail } : Params).initRomOk = false
      ∧ ({ Params.default with initRom :=
          [0xAE#8, 0x8D#8, 0x14#8, 0xD5#8, 0x80#8, 0x20#8, 0x00#8, 0xA1#8, 0xC8#8, 0xDA#8, 0x12#8, 0x81#8, 0xCF#8,
           0xD9#8, 0xF1#8, 0xDB#8, 0x40#8, 0xA4#8, 0xAF#8] } : Params).initRomOk = false
      ∧ ({ Params.default with initRom := Config.defaultInitRom ++ [0xAF#8] } : Params).initRomOk = false
      ∧ ({ Params.default with opc := { Opcodes.default with contrast := 0x82#8 } } : Params).initRomOk = false
      ∧ ({ Params.default with initRom := [] } : Params).initRomOk = false := by decide

/-- R162 "as counted in rule R160": each configuration's counts take their own sequence and not the other's. -/
theorem test_wellFormed_initRom_counts :
    ({ Params.default with opc := otherCounts, initRom := otherRom } : Params).initRomOk = true
      ∧ ({ Params.default with opc := otherCounts } : Params).initRomOk = false
      ∧ ({ Params.default with initRom := otherRom } : Params).initRomOk = false := by decide

/-- R110's bound: no configured count lets a command have three arguments, in an instruction or in `INIT_ROM`. -/
theorem test_wellFormed_three_arguments :
    ∀ n : Fin 3, let o := { Opcodes.default with args := { ArgCounts.default with clkdiv := n } }
      (Instr.clkdiv [0#8, 0#8, 0#8]).fits o = false
        ∧ ({ Params.default with opc := o, initRom := [0xAE#8, 0xD5#8, 0x80#8, 0x01#8, 0x02#8]
              ++ Config.defaultInitRom.drop 3 } : Params).initRomOk = false := by decide

theorem test_wellFormed_params :
    Params.default.wellFormed = true ∧ ({ Params.default with initRom := [] } : Params).wellFormed = false
      ∧ ({ Params.default with opc := { Opcodes.default with dispon := 0xAE#8 } } : Params).wellFormed = false := by decide

/-- Unsorted cells, one cell twice, a cell beyond the 128 × 8 of R81. -/
theorem test_memory_wf :
    Memory.wf [(0, 1#8), (5, 2#8), (1023, 3#8)] = true ∧ Memory.wf [(5, 2#8), (0, 1#8)] = false
      ∧ Memory.wf [(5, 2#8), (5, 2#8)] = false ∧ Memory.wf [(1024, 0#8)] = false := by decide

/-! ### Decoding -/

/-- The request examples of R102 to R105. -/
theorem test_decode_requests :
    decodeTableWord 32 0x0001A501 = some (.writeByte 0xA5#8 .data)
      ∧ decodeTableWord 32 0x0000AE01 = some (.writeByte 0xAE#8 .command)
      ∧ decodeTableWord 32 0x00000002 = some .init ∧ decodeTableWord 32 0x00000003 = some .setWindow
      ∧ decodeTableWord 32 0x03020A04 = some (.drawText 0x0A#8 0x02#8 0x03#8)
      ∧ decodeTableWord 32 0x00000004 = some (.drawText 0#8 0#8 0#8) := by decide

/-- Vectors T6 to T9, I3 and I4: no request. -/
theorem test_decode_illegal :
    decodeRequest 0x0002A501#32 = .error .illegalRequest
      ∧ decodeRequest 0x0100A501#32 = .error .illegalRequest
      ∧ decodeRequest 0x0001A511#32 = .error .illegalRequest
      ∧ decodeRequest 0x00FFA501#32 = .error .illegalRequest
      ∧ decodeRequest 0x00000102#32 = .error .illegalRequest
      ∧ decodeRequest 0x00000012#32 = .error .illegalRequest := by decide

/-- Vectors S5, H16, P3's step 6 and D11: no request. -/
theorem test_decode_illegal_more :
    decodeRequest 0x80000003#32 = .error .illegalRequest
      ∧ decodeRequest 0x00000000#32 = .error .illegalRequest
      ∧ decodeRequest 0x0000000F#32 = .error .illegalRequest
      ∧ decodeRequest 0x00000005#32 = .error .illegalRequest
      ∧ decodeRequest 0x00000014#32 = .error .illegalRequest := by decide

/-- The opcode bytes of the table of R160, as frame words `dc·256 + value` (R116): the commands of no argument. -/
theorem test_decode_commands :
    decode Opcodes.default (.wire [0x0AE#9]) = .ok (.dispoff []) ∧ decode Opcodes.default (.wire [0x0AF#9]) = .ok (.dispon [])
      ∧ decode Opcodes.default (.wire [0x0A0#9]) = .ok (.segremap false [])
      ∧ decode Opcodes.default (.wire [0x0A1#9]) = .ok (.segremap true [])
      ∧ decode Opcodes.default (.wire [0x0C0#9]) = .ok (.comscan false [])
      ∧ decode Opcodes.default (.wire [0x0C8#9]) = .ok (.comscan true [])
      ∧ decode Opcodes.default (.wire [0x0A4#9]) = .ok (.resume []) := by decide

/-- The same for the commands with argument frames, their arguments those of R161 and of vector S2. -/
theorem test_decode_commands_with_arguments :
    decode Opcodes.default (.wire [0x0D5#9, 0x080#9]) = .ok (.clkdiv [0x80#8])
      ∧ decode Opcodes.default (.wire [0x08D#9, 0x014#9]) = .ok (.chgpump [0x14#8])
      ∧ decode Opcodes.default (.wire [0x020#9, 0x000#9]) = .ok (.addrmode [0x00#8])
      ∧ decode Opcodes.default (.wire [0x0DA#9, 0x012#9]) = .ok (.compins [0x12#8])
      ∧ decode Opcodes.default (.wire [0x081#9, 0x0CF#9]) = .ok (.contrast [0xCF#8])
      ∧ decode Opcodes.default (.wire [0x0D9#9, 0x0F1#9]) = .ok (.prechg [0xF1#8])
      ∧ decode Opcodes.default (.wire [0x0DB#9, 0x040#9]) = .ok (.vcomdesel [0x40#8])
      ∧ decode Opcodes.default (.wire [0x021#9, 0x010#9, 0x050#9]) = .ok (.coladdr 0x10#8 0x50#8)
      ∧ decode Opcodes.default (.wire [0x022#9, 0x002#9, 0x003#9]) = .ok (.pageaddr 0x02#8 0x03#8) := by decide

/-- R160 under other counts (R82: "the receiver looks up its argument count in the command table"). -/
theorem test_decode_other_counts :
    decode otherCounts (.wire [0x0D5#9, 0x080#9, 0x001#9]) = .ok (.clkdiv [0x80#8, 0x01#8])
      ∧ decode otherCounts (.wire [0x0D5#9, 0x080#9]) = .error .truncated
      ∧ decode otherCounts (.wire [0x0A4#9, 0x000#9]) = .ok (.resume [0x00#8])
      ∧ encode otherCounts (.clkdiv [0x80#8, 0x01#8]) = .wire [0x0D5#9, 0x080#9, 0x001#9] := by decide

/-- The data frame (R109): bit 8 is the kind, bits 7:0 the byte. -/
theorem test_decode_data :
    decode Opcodes.default (.wire [0x1A5#9]) = .ok (.data 0xA5#8)
      ∧ decode Opcodes.default (.wire [0x121#9]) = .ok (.data 0x21#8)
      ∧ decodeTableWord 9 0x100 = some (.data 0x00#8) ∧ decodeTableWord 16 0x1FF = some (.data 0xFF#8) := by decide

/-- The words of the table's wire rows, their argument frames zero. -/
theorem test_decodeTableWord_commands :
    decodeTableWord 16 0xAE = some (.dispoff []) ∧ decodeTableWord 16 0x81 = some (.contrast [0#8])
      ∧ decodeTableWord 16 0x21 = some (.coladdr 0#8 0#8) ∧ decodeTableWord 16 0xA1 = some (.segremap true [])
      ∧ decodeTableWord 16 0xC8 = some (.comscan true []) ∧ decodeTableWord 16 0x00 = none
      ∧ decodeTableWord 16 0x2AE = none := by decide

/-- The rejections, by name. -/
theorem test_decode_rejects :
    decode Opcodes.default (.wire [0x0E3#9]) = .error .unknownOpcode
      ∧ decode Opcodes.default (.wire [0x0C1#9]) = .error .unknownOpcode
      ∧ decode Opcodes.default (.wire [0x021#9, 0x110#9]) = .error .dataInArguments
      ∧ decode Opcodes.default (.wire [0x021#9, 0x010#9]) = .error .truncated
      ∧ decode Opcodes.default (.wire []) = .error .truncated
      ∧ decode Opcodes.default (.wire [0x0AE#9, 0x0AF#9]) = .error .trailingFrames := by decide

/-! ### States to test on -/

/-- The default configuration with the fixture font of 95_test_vectors.md, `FIX[i][j] = 6·i + j`, and SETTLE 0 at reset. -/
def fixture : Params :=
  { Params.default with
    glyphRom := glyphStore fun i j => BitVec.ofNat 8 (6 * i.val + j.val)
    settleReset := 0#32 }

/-- A receiver after a completed INIT, as far as R89 gives it, its display memory left arbitrary. -/
def panel : Receiver :=
  { Receiver.unknown 0 with
    cs := .known 0, ce := .known 127, ps := .known 0, pe := .known 7, col := .known 0, page := .known 0
    am := .known .horizontal, on := .known true, pending := .known [] }

/-- The block idle after reset, with SETTLE 0, and such a receiver. -/
def idle : State := { State.reset with cfg := fixture, regs := Regs.reset 0#32, rx := panel }

/-- The same after a completed INIT. -/
def ready : State := { idle with regs := { idle.regs with initDone := true }, panel := .ready }

/-- The block idle, its host about to do these operations. -/
def hosted (ops : List HostOp) : State := { idle with host := { idle.host with program := ops } }

/-- The same with this text in cells TB[0] and TB[1]. -/
def texted (a b : Byte) : State := { idle with regs := { idle.regs with tb := (idle.regs.tb.set 0 a).set 1 b } }

/-- The block sending `D(A5)` for a WRITE_BYTE, in the frame's select cycle (R149, cycle 0), with this SETTLE. -/
def sending (settle : Word) : State :=
  { idle with
    regs := { idle.regs with settle := settle }
    eng := ⟨some .writeByte, [⟨.data, 0xA5#8⟩], 1⟩
    tx := { idle.tx with tstate := .dc, fk := .data, sh := 0xA5#8, nb := 7, ph := .lo }
    pins := ⟨true, true, false, false⟩ }

/-- The same with a host operation pending. -/
def busyWith (op : HostOp) : State := { sending 0#32 with host := { idle.host with program := [op] } }

/-- The settle interval of that frame, `sc` cycles to go of three (vector P-2). -/
def settling (sc : Word) : State :=
  { sending 3#32 with
    tx := { (sending 3#32).tx with tstate := .settle, nb := 0, ph := .hi, sc := sc }
    pins := ⟨false, true, false, true⟩ }

/-- The release cycle of the first frame of a SET_WINDOW (`C(21)`), its other frames to come, or of the last frame of an
INIT. -/
def released (eng : Engine) (f : Frame) : State :=
  { idle with
    regs := { idle.regs with txcount := 1#32 }
    eng := eng
    tx := { idle.tx with tstate := .rel, fk := f.kind, sh := f.value, nb := 0, ph := .hi }
    pins := ⟨true, f.kind.isData, false, f.value.getLsbD 0⟩
    trace := [f] }

/-- What a step leaves, where it goes on. -/
def after (s : State) : Option State :=
  match step s with
  | .next t => some t
  | .fault _ => none
  | .refused _ => none

/-- What an instruction leaves, where it goes on. -/
def does (i : Instr) (s : State) : Option State :=
  match exec i s with
  | .next t => some t
  | .fault _ => none
  | .refused _ => none

/-! ### The requests -/

/-- T1, cycle 0 of R149. -/
theorem test_writeByte_data :
    (does (.writeByte 0xA5#8 .data) idle).map
        (fun t => (t.busy, t.eng.frames, t.pins, t.regs.winValid, t.tx.tstate))
      = some (true, [⟨.data, 0xA5#8⟩], ⟨true, true, false, false⟩, false, .dc) := by decide

/-- T2: a Command frame clears WIN_VALID and leaves CURWIN. -/
theorem test_writeByte_command :
    (does (.writeByte 0xAE#8 .command)
        { idle with regs := { idle.regs with winValid := true, curwin := 0x07007F00#32 } }).map
        (fun t => (t.eng.frames, t.regs.winValid, t.regs.curwin, t.pins.dc))
      = some ([⟨.command, 0xAE#8⟩], false, 0x07007F00#32, false) := by decide

/-- I1: STATUS 0x3 and CURWIN at acceptance; W3, frames 0 to 25. -/
theorem test_init :
    (does .init idle).map (fun t => (statusWord t.busy t.regs, t.regs.curwin, (t.eng.frames.take 26).map Frame.toWord))
      = some (0x00000003#32, 0x07007F00#32,
          [0x0AE#9, 0x0D5#9, 0x080#9, 0x08D#9, 0x014#9, 0x020#9, 0x000#9, 0x0A1#9, 0x0C8#9, 0x0DA#9, 0x012#9, 0x081#9,
           0x0CF#9, 0x0D9#9, 0x0F1#9, 0x0DB#9, 0x040#9, 0x0A4#9, 0x0AF#9,
           0x021#9, 0x000#9, 0x07F#9, 0x022#9, 0x000#9, 0x007#9, 0x100#9]) := by decide

/-- W3: 1049 frames. -/
theorem test_init_count : (initFrames fixture).length = 1049 := by
  simp only [initFrames, List.length_append, List.length_map, List.length_replicate]; decide

/-- R166 and R162 under other counts: 21 + 6 + 1024 frames, the power-up bytes first. -/
theorem test_init_other_counts :
    let s := { idle with cfg := { fixture with opc := otherCounts, initRom := otherRom } }
    (does .init s).map (fun t => (t.eng.frames.take 28).map Frame.toWord)
        = some ((otherRom ++ [0x21#8, 0x00#8, 0x7F#8, 0x22#8, 0x00#8, 0x07#8]).map (fun v => Frame.toWord ⟨.command, v⟩)
            ++ [0x100#9])
      ∧ (initFrames s.cfg).length = 1051 := ⟨by decide, by rw [initFrames_length]; rfl⟩

/-- S2. -/
theorem test_setWindow :
    (does .setWindow { idle with regs := { idle.regs with win := 0x03025010#32 } }).map
        (fun t => (t.eng.frames.map Frame.toWord, t.regs.curwin, statusWord t.busy t.regs))
      = some ([0x021#9, 0x010#9, 0x050#9, 0x022#9, 0x002#9, 0x003#9], 0x03025010#32, 0x00000003#32) := by decide

/-- S3: an inverted, off-panel window is sent as it stands, with no error. -/
theorem test_setWindow_offPanel :
    (does .setWindow { idle with regs := { idle.regs with win := 0x03090AC8#32 } }).map
        (fun t => (t.eng.frames.map Frame.toWord, statusWord t.busy t.regs))
      = some ([0x021#9, 0x0C8#9, 0x00A#9, 0x022#9, 0x009#9, 0x003#9], 0x00000003#32) := by decide

/-- D2: X = 250, LEN = 2 wraps to X2 = 5; the glyphs of 1 and 2 from the fixture. -/
theorem test_drawText :
    (does (.drawText 250#8 0#8 2#8) (texted 1#8 2#8)).map (fun t => (t.eng.frames.map Frame.toWord, t.regs.curwin))
      = some ([0x021#9, 0x0FA#9, 0x005#9, 0x022#9, 0x000#9, 0x000#9, 0x106#9, 0x107#9, 0x108#9, 0x109#9, 0x10A#9,
          0x10B#9, 0x10C#9, 0x10D#9, 0x10E#9, 0x10F#9, 0x110#9, 0x111#9], 0x000005FA#32) := by decide

/-- D5, D6, D7, D9, D12 raise one error; D8 and D10 are accepted. -/
theorem test_drawText_checks :
    (does (.drawText 0#8 0#8 0#8) idle).map (fun t => statusWord t.busy t.regs) = some 0x200#32
      ∧ (does (.drawText 0#8 0#8 33#8) idle).map (fun t => statusWord t.busy t.regs) = some 0x200#32
      ∧ (does (.drawText 0#8 0#8 1#8) (texted 41#8 0#8)).map (fun t => statusWord t.busy t.regs) = some 0x400#32
      ∧ (does (.drawText 0#8 0#8 2#8) (texted 0#8 41#8)).map (fun t => statusWord t.busy t.regs) = some 0x400#32
      ∧ (does (.drawText 0#8 0#8 0#8) (texted 0xFF#8 0#8)).map (fun t => statusWord t.busy t.regs) = some 0x200#32
      ∧ (does (.drawText 0#8 0#8 1#8) (texted 0#8 41#8)).map (fun t => statusWord t.busy t.regs) = some 0x3#32
      ∧ (does (.drawText 0#8 0#8 1#8) (texted 40#8 0#8)).map (fun t => statusWord t.busy t.regs) = some 0x3#32 := by
  decide

/-! ### The wire -/

/-- R87. -/
theorem test_dispoff_dispon :
    (does (.dispoff []) idle).map (fun t => t.rx.on) = some (.known false)
      ∧ (does (.dispon []) (idle.withRx (Receiver.unknown 3))).map (fun t => t.rx.on) = some (.known true) := by decide

/-- R87: 0x00 is horizontal; 0x02, as any other argument, is not; another number of arguments is havoc (assumption 10). -/
theorem test_addrmode :
    (does (.addrmode [0x00#8]) (ready.withRx (Receiver.unknown 3))).map (fun t => t.rx.am) = some (.known .horizontal)
      ∧ (does (.addrmode [0x02#8]) ready).map (fun t => t.rx.am) = some (.known .other)
      ∧ (does (.addrmode [0x00#8, 0x00#8]) ready).map (fun t => t.rx.am) = some (.draw 1) := by decide

/-- R87: the commands that act on state this model does not hold leave the receiver. -/
theorem test_unheld_commands :
    ∀ i ∈ [Instr.clkdiv [0x80#8], .chgpump [0x14#8], .segremap true [], .comscan true [], .compins [0x12#8], .contrast [0xCF#8],
        .prechg [0xF1#8], .vcomdesel [0x40#8], .resume []], (does i idle).map (fun t => t.rx) = some panel := by decide

/-- R84 at its bounds: 5 to 127 is a window; 128, and 6 to 5, are havoc. -/
theorem test_coladdr :
    (does (.coladdr 5#8 127#8) ready).map (fun t => (t.rx.cs, t.rx.ce, t.rx.col, t.rx.page))
        = some (.known 5, .known 127, .known 5, .known 0)
      ∧ (does (.coladdr 5#8 128#8) ready).map (fun t => (t.rx.cs, t.rx.am)) = some (.draw 1, .draw 1)
      ∧ (does (.coladdr 6#8 5#8) ready).map (fun t => t.rx.ce) = some (.draw 1) := by decide

/-- R85 at its bounds. -/
theorem test_pageaddr :
    (does (.pageaddr 3#8 7#8) ready).map (fun t => (t.rx.ps, t.rx.pe, t.rx.page, t.rx.col))
        = some (.known 3, .known 7, .known 3, .known 0)
      ∧ (does (.pageaddr 3#8 8#8) ready).map (fun t => t.rx.pe) = some (.draw 1)
      ∧ (does (.pageaddr 4#8 3#8) ready).map (fun t => t.rx.ps) = some (.draw 1) := by decide

/-- P4's window, columns 5 to 6 of page 3: `D(81)` at its last cell lands there and the pointer goes back to (5, 3). -/
theorem test_data_wraps :
    (does (.data 0x81#8) (ready.withRx { panel with
        cs := .known 5, ce := .known 6, ps := .known 3, pe := .known 3, col := .known 6, page := .known 3
        gd := [(389, 0xFF#8)] })).map (fun t => (t.rx.gd, t.rx.col, t.rx.page))
      = some ([(389, 0xFF#8), (390, 0x81#8)], .known 5, .known 3) := by decide

/-- R83: the end of a row goes on to the next page; any other mode is havoc. -/
theorem test_data :
    (does (.data 0x18#8) (ready.withRx { panel with col := .known 127, page := .known 2 })).map
        (fun t => (t.rx.col, t.rx.page, Memory.read t.rx.gd 383)) = some (.known 0, .known 3, some 0x18#8)
      ∧ (does (.data 0x18#8) (ready.withRx { panel with am := .known .other })).map (fun t => (t.rx.gd, t.rx.col))
        = some ([], .draw 1) := by decide

/-- R256: before the first completed INIT a data byte and the window commands are havoc, whatever the receiver held; display-on
and the addressing-mode command set their field as ever (R87). While INIT runs its commands set the window. -/
theorem test_before_init :
    (∀ i ∈ [Instr.data 0x18#8, .coladdr 5#8 127#8, .pageaddr 3#8 7#8],
        (does i idle).map (fun t => t.rx) = some (Receiver.unknown 1))
      ∧ (does (.dispon []) (idle.withRx (Receiver.unknown 0))).map (fun t => t.rx.on) = some (.known true)
      ∧ (does (.addrmode [0x02#8]) idle).map (fun t => t.rx) = some { panel with am := .known .other }
      ∧ (does (.coladdr 5#8 127#8) { idle with eng := { idle.eng with curOp := some .init } }).map (fun t => t.rx.cs)
        = some (.known 5) := by decide

/-- The block after a completed INIT, the panel as R89 leaves it, its host about to reset the block. -/
def initialised : State :=
  { ready with
    rx := { panel with gd := (List.range 1024).map fun a => (a, 0x00#8) }
    host := { ready.host with program := [.port .reset] } }

/-- R81 and R257: a reset at rest leaves a panel wholly known, and the window command and the data byte after it act by R84 and
R83; with the display memory unknown they are havoc until an INIT, and the mode is set as before. -/
theorem test_reset_keeps_panel :
    ((after initialised).bind (does (.coladdr 5#8 127#8))).map (fun t => (t.rx.cs, t.rx.col, t.regs.initDone, t.panel))
        = some (.known 5, .known 5, false, .ready)
      ∧ ((after initialised).bind (does (.data 0x18#8))).map (fun t => (Memory.read t.rx.gd 0, t.rx.col))
        = some (some 0x18#8, .known 1)
      ∧ ((after (initialised.withRx panel)).bind (does (.coladdr 5#8 127#8))).map (fun t => t.rx) = some (Receiver.unknown 1)
      ∧ ((after (initialised.withRx panel)).bind (does (.addrmode [0x02#8]))).map (fun t => t.rx.am) = some (.known .other) := by
  decide +kernel

/-- U11: a frame cut off by a reset leaves any value until a completed INIT: the mode and `on` are not set either. A running
INIT sets them. -/
theorem test_cutOff :
    let s := { initialised with tx := { idle.tx with tstate := .shift } }
    (∀ i ∈ [Instr.dispon [], .dispoff [], .addrmode [0x00#8], .coladdr 5#8 127#8, .data 0x18#8],
        ((after s).bind (does i)).map (fun t => t.rx) = some (Receiver.unknown 2))
      ∧ ((after s).bind fun t => does (.dispon []) { t with eng := { t.eng with curOp := some .init } }).map
          (fun t => t.rx.on) = some (.known true) := by decide

/-- R86: with bit 0 the top row, 0x81 in column 6 of page 3 lights rows 24 and 31 (program P4), and no row between. -/
theorem test_pixel :
    let r := { panel with gd := [(390, 0x81#8)] }
    r.pixel 24 6 = true ∧ r.pixel 31 6 = true ∧ r.pixel 25 6 = false ∧ r.pixel 30 6 = false := by decide

/-- R82: opcode, argument, argument; the command acts on the last; an unknown opcode and a data byte among arguments are
havoc. -/
theorem test_parse :
    (takeFrame ⟨.command, 0x21#8⟩ idle).finish = .next (idle.withRx { panel with pending := .known [0x21#8] })
      ∧ (takeFrame ⟨.command, 0x05#8⟩ (idle.withRx { panel with pending := .known [0x21#8] })).finish
        = .next (idle.withRx { panel with pending := .known [0x21#8, 0x05#8] })
      ∧ (takeFrame ⟨.command, 0x06#8⟩ (idle.withRx { panel with pending := .known [0x21#8, 0x05#8] })).finish
        = exec (.coladdr 0x05#8 0x06#8) idle
      ∧ (takeFrame ⟨.command, 0xE3#8⟩ idle).finish = .next (idle.withRx panel.havoc)
      ∧ (takeFrame ⟨.data, 0x06#8⟩ (idle.withRx { panel with pending := .known [0x21#8] })).finish
        = .next (idle.withRx panel.havoc) := ⟨rfl, rfl, rfl, rfl, rfl⟩

/-! ### The transport, edge by edge -/

/-- R149: into cycle 1 (bit 7 of 0xA5 is 1); the 16-cycle shift's last edge into the release, which counts the frame. -/
theorem test_transport_edges :
    (after (sending 0#32)).map (fun t => (t.pins, t.tx.tstate)) = some (⟨false, true, false, true⟩, .shift)
      ∧ (after { sending 0#32 with
            tx := { (sending 0#32).tx with tstate := .shift, ph := .hi, nb := 7 }, pins := ⟨false, true, true, true⟩ }).map
          (fun t => (t.pins, t.tx.nb, t.tx.ph)) = some (⟨false, true, false, false⟩, 6, .lo)
      ∧ (after { sending 0#32 with
            tx := { (sending 0#32).tx with tstate := .shift, ph := .hi, nb := 0 }, pins := ⟨false, true, true, true⟩ }).map
          (fun t => (t.pins, t.tx.tstate, t.regs.txcount, t.trace, t.busy))
        = some (⟨true, true, false, true⟩, .rel, 1#32, [⟨.data, 0xA5#8⟩], true) := by decide

/-- P-2: with S = 3 the shift ends in the settle interval; its last cycle ends in the release. -/
theorem test_settle_edges :
    (after { sending 3#32 with
          tx := { (sending 3#32).tx with tstate := .shift, ph := .hi, nb := 0 }, pins := ⟨false, true, true, true⟩ }).map
        (fun t => (t.pins, t.tx.tstate, t.tx.sc, t.regs.txcount)) = some (⟨false, true, false, true⟩, .settle, 3#32, 0#32)
      ∧ (after (settling 3#32)).map (fun t => (t.pins.csN, t.tx.sc)) = some (false, 2#32)
      ∧ (after (settling 1#32)).map (fun t => (t.pins.csN, t.tx.tstate, t.regs.txcount)) = some (true, .rel, 1#32) := by
  decide

/-- R145, R167, I1: the end of an INIT's last frame sets INIT_DONE as BUSY clears; P-4: between the frames of a request the
next is offered with `cs_n` still high. -/
theorem test_release_edges :
    (after (released ⟨some .init, [⟨.data, 0#8⟩], 1⟩ ⟨.data, 0#8⟩)).map (fun t => statusWord t.busy t.regs) = some 0x4#32
      ∧ (after (released ⟨some .setWindow, [⟨.command, 0x21#8⟩, ⟨.command, 0x10#8⟩], 1⟩ ⟨.command, 0x21#8⟩)).map
          (fun t => (t.busy, t.tx.tstate, t.tx.sh, t.eng.pos, t.pins)) = some (true, .dc, 0x10#8, 2, ⟨true, false, false, true⟩)
      := by decide

/-! ### The host port -/

/-- H1, H2, H3 and H14. -/
theorem test_reads :
    hostRead idle 0x00#6 2#2 = 0x54524231#32 ∧ hostRead idle 0x08#6 2#2 = 0#32 ∧ hostRead idle 0x1C#6 2#2 = 0#32
      ∧ hostRead idle 0x00#6 0#2 = 0#32 ∧ hostRead idle 0x00#6 1#2 = 0#32 ∧ hostRead idle 0x02#6 2#2 = 0#32
      ∧ hostRead (sending 0#32) 0x04#6 2#2 = 0x1#32 := by decide

/-- H4, H8 to H12, H16: the error each write raises. -/
theorem test_write_errors :
    (∀ off ∈ [0x00#6, 0x10#6, 0x18#6, 0x1C#6], hostWrite false off 2#2 0#32 = .raise .addr)
      ∧ hostWrite true 0x0C#6 2#2 0x03020100#32 = .raise .busy ∧ hostWrite true 0x08#6 2#2 0x3#32 = .raise .busy
      ∧ hostWrite true 0x08#6 2#2 0x5#32 = .raise .busy ∧ hostWrite true 0x0A#6 2#2 0#32 = .raise .addr
      ∧ hostWrite true 0x10#6 2#2 0#32 = .raise .addr ∧ hostWrite false 0x08#6 2#2 0x0#32 = .raise .op
      ∧ hostWrite false 0x08#6 2#2 0xF#32 = .raise .op := by decide

/-- H5, H6, H7 and H13. -/
theorem test_status_writes :
    let s : Regs := { idle.regs with winValid := true, initDone := true, err := ⟨true, true, true, true, true⟩ }
    statusWord false s = 0x1F06#32 ∧ hostWrite false 0x04#6 1#2 0x1F00#32 = .raise .addr
      ∧ statusWord false ((hostWrite false 0x04#6 2#2 0x500#32).onRegs s) = 0x1A06#32
      ∧ statusWord false ((hostWrite false 0x04#6 2#2 0xFFFFFFFF#32).onRegs s) = 0x6#32
      ∧ statusWord true ((hostWrite true 0x04#6 2#2 0x800#32).onRegs s) = 0x1707#32 := by decide

/-- H15. -/
theorem test_textbuf_write :
    (after (hosted [.sw 0x24#6 0x44434241#32])).map (fun t => t.regs.tb.toList.take 9)
      = some [0#8, 0#8, 0#8, 0#8, 0x41#8, 0x42#8, 0x43#8, 0x44#8, 0#8] := by decide

/-- H17, and P3's step 4: a request runs whatever the error bits hold, and is lost while BUSY. -/
theorem test_request_step :
    (after { hosted [.sw 0x08#6 0x3#32] with
        regs := { idle.regs with err := ⟨true, false, false, false, false⟩ } }).map
        (fun t => statusWord t.busy t.regs) = some 0x103#32
      ∧ (after (busyWith (.sw 0x08#6 0x3#32))).map (fun t => (statusWord t.busy t.regs, t.eng.frames.length, t.host.program))
        = some (0x801#32, 1, []) := by decide

/-- R113: `poll` repeats while the value is not seen; `lw` loads its variable. -/
theorem test_host_notation :
    (after (busyWith (.poll 0x04#6 0x1#32 0x0#32))).map (fun t => t.host.program) = some [.poll 0x04#6 0x1#32 0x0#32]
      ∧ (after (hosted [.poll 0x04#6 0x1#32 0x0#32])).map (fun t => t.host.program) = some []
      ∧ (after (hosted [.lw 1 0x00#6])).map (fun t => (t.host.vars, t.host.rdata))
        = some ([(1, 0x54524231#32)], some 0x54524231#32) := by decide

/-! ### Reset -/

/-- X1 and X2: reset in a shift with a write presented: the registers, the pins and the count are reset, the write sets no
error, the receiver goes to havoc. -/
theorem test_reset_edge :
    (after { busyWith (.port ⟨true, true, true, 0x10#6, 2#2, 0#32⟩) with
        tx := { idle.tx with tstate := .shift, fk := .data, sh := 0xA5#8, nb := 5 }, pins := ⟨false, true, false, true⟩ }).map
        (fun t => (statusWord t.busy t.regs, t.regs.txcount, t.pins, t.trace))
      = some (0#32, 0#32, ⟨true, false, false, false⟩, [])
      ∧ (after { busyWith (.port .reset) with tx := { idle.tx with tstate := .shift } }).map (fun t => t.rx)
        = some (Receiver.unknown 1) := by decide

/-! ### The first step after reset -/

/-- A request word and a wire word, placed where the next step fetches them. -/
theorem test_withFetchWord :
    (after (State.reset.withFetchWord 32 0x0001A501)).map (fun t => t.eng.frames) = some [⟨.data, 0xA5#8⟩]
      ∧ (after (State.reset.withFetchWord 16 0x0AF)).map (fun t => t.rx.on) = some (.known true)
      ∧ (after (State.reset.withFetchWord 16 0x021)).map (fun t => t.rx) = some (Receiver.unknown 1) := by decide

/-- The same wire word after an INIT: the command runs with its two argument frames zero. -/
theorem test_withFetchWord_ready :
    (after (ready.withFetchWord 16 0x021)).map (fun t => (t.rx.cs, t.rx.ce, t.rx.pending))
      = some (.known 0, .known 0, .known []) := by decide

/-! ### The assembler -/

/-- Programs P2 (steps 1, 2, 4, 5) and W7, and R114's rejections. -/
theorem test_text :
    (Pseudo.text "CPU:" 0#8 2#8).expand = .ok [.sw 0x20#6 0x251E190C#32, .sw 0x08#6 0x04020004#32]
      ∧ (Pseudo.text "42" 24#8 2#8).expand = .ok [.sw 0x20#6 0x00000204#32, .sw 0x08#6 0x02021804#32]
      ∧ (Pseudo.indexed [2#8, 36#8, 3#8, 4#8] 0#8 0#8).expand = .ok [.sw 0x20#6 0x04032402#32, .sw 0x08#6 0x04000004#32]
      ∧ (Pseudo.text "" 0#8 0#8).expand = .error .badLength
      ∧ (Pseudo.text "cpu" 0#8 0#8).expand = .error .badCharacter := by decide

/-- R114's fixed expansions. -/
theorem test_pseudo :
    Pseudo.wait.expand = .ok [.poll 0x04#6 0x1#32 0x0#32] ∧ Pseudo.clrErr.expand = .ok [.sw 0x04#6 0x1F00#32]
      ∧ (Pseudo.req .init).expand = .ok [.sw 0x08#6 0x2#32]
      ∧ (Pseudo.setWin 0x10#8 0x50#8 0x02#8 0x03#8).expand = .ok [.sw 0x0C#6 0x03025010#32, .sw 0x08#6 0x3#32] := by decide

/-! ### Witnesses: states and operands that meet the hypotheses of the statements -/

/-- The invariant says nothing of the host. -/
theorem inv_host {s : State} (h : Inv s) (host : HostSide) : Inv { s with host := host } where
  engine := ⟨h.engine.1, h.engine.2, h.engine.3, h.engine.4, h.engine.5⟩
  pins := ⟨h.pins.1, h.pins.2, h.pins.3, h.pins.4, h.pins.5, h.pins.6, h.pins.7⟩
  counters := ⟨h.counters.1, h.counters.2, h.counters.3, h.counters.4⟩
  receiver := ⟨h.receiver.1, h.receiver.2⟩

/-- The invariant at rest. -/
theorem inv_idle : Inv idle where
  engine := ⟨by decide, by decide, by decide, by decide, by decide⟩
  pins := ⟨by decide, by decide, by decide, by decide, by decide, by decide, by decide⟩
  counters := ⟨by decide, by decide, by decide, by decide⟩
  receiver := ⟨rfl, fun b h => by cases h; exact ⟨0, rfl⟩⟩

/-- In the select cycle. -/
theorem inv_sending (settle : Word) : Inv (sending settle) where
  engine := ⟨by simp [sending], by simp [sending, State.busy], fun _ => rfl, by simp [sending],
    fun h => absurd (show idle.regs.initDone = true from h) (by decide)⟩
  pins := ⟨by simp [sending], by simp [sending], fun _ => rfl, by simp [sending], by simp [sending], by simp [sending],
    fun _ => rfl⟩
  counters := ⟨rfl, by simp [sending], fun _ => ⟨rfl, rfl⟩, by simp [sending]⟩
  receiver := ⟨rfl, fun b h => by cases h; exact ⟨0, rfl⟩⟩

/-- In the settle interval. -/
theorem inv_settling : Inv (settling 1#32) ∧ Inv (settling 3#32) := by
  constructor <;> exact {
    engine := ⟨by decide, by decide, by decide, by decide, by decide⟩
    pins := ⟨by decide, by decide, by decide, by decide, by decide, by decide, by decide⟩
    counters := ⟨by decide, by decide, by decide, by decide⟩
    receiver := ⟨rfl, fun b h => by cases h; exact ⟨0, rfl⟩⟩ }

/-- The first frame of a SET_WINDOW released, its second to come. -/
def between : State := released ⟨some .setWindow, [⟨.command, 0x21#8⟩, ⟨.command, 0x10#8⟩], 1⟩ ⟨.command, 0x21#8⟩

theorem inv_between : Inv between where
  engine := ⟨by decide, by decide, by decide, by decide, by decide⟩
  pins := ⟨by decide, by decide, by decide, by decide, by decide, by decide, by decide⟩
  counters := ⟨by decide, by decide, by decide, by decide⟩
  receiver := ⟨rfl, fun b h => by cases h; exact ⟨0, rfl⟩⟩

/-- The last frame of an INIT released. -/
def initEnding : State := released ⟨some .init, [⟨.data, 0#8⟩], 1⟩ ⟨.data, 0#8⟩

/-- DecodeEncode; WireSelfDelimiting; WireHasOneEncoding; RequestWordsUnique. -/
theorem witness_encoding :
    Opcodes.default.wellFormed = true ∧ otherCounts.wellFormed = true
      ∧ (Instr.coladdr 0x10#8 0x50#8).fits Opcodes.default = true ∧ (Instr.drawText 0#8 0#8 0#8).fits Opcodes.default = true
      ∧ (Instr.clkdiv [0x80#8, 0x01#8]).fits otherCounts = true
      ∧ (∃ ws, encode Opcodes.default (.coladdr 0x10#8 0x50#8) = .wire ws)
      ∧ decodeFrames otherCounts [⟨.command, 0xD5#8⟩, ⟨.command, 0x80#8⟩, ⟨.command, 0x01#8⟩, ⟨.data, 0#8⟩]
        = .complete (.clkdiv [0x80#8, 0x01#8]) [⟨.data, 0#8⟩]
      ∧ decodeRequest 0x03020A04#32 = .ok (.drawText 0x0A#8 0x02#8 0x03#8) :=
  ⟨by decide, by decide, rfl, rfl, rfl, ⟨_, rfl⟩, rfl, rfl⟩

/-- The boundary words of R108, illegal; and the legal words beside them. -/
theorem witness_illegalWord :
    (illegalWord 0x0#32 ∧ illegalWord 0x5#32 ∧ illegalWord 0xF#32 ∧ illegalWord 0x00000011#32 ∧ illegalWord 0x00000014#32
      ∧ illegalWord 0x0002A501#32 ∧ illegalWord 0x00FFA501#32 ∧ illegalWord 0x0100A501#32 ∧ illegalWord 0x00000102#32
      ∧ illegalWord 0x80000003#32)
      ∧ ¬ illegalWord 0x0001FF01#32 ∧ ¬ illegalWord 0x00000001#32 ∧ ¬ illegalWord 0x2#32 ∧ ¬ illegalWord 0x3#32
      ∧ ¬ illegalWord 0xFFFFFF04#32 := by
  refine ⟨⟨?_, ?_, ?_, ?_, ?_, ?_, ?_, ?_, ?_, ?_⟩, ?_, ?_, ?_, ?_, ?_⟩ <;> unfold illegalWord <;> decide

/-- IllegalWordsRaiseErrOp (both clauses) and StepRunsRequest, by `sw` and by raw port inputs; StepStopsOnlyForOtherHardware's
refused case. -/
theorem witness_request_write (w : Word) :
    ((hosted [.sw 0x08#6 w]).atRest ∧ (hosted [.sw 0x08#6 w]).inputs = .writeWord 0x08#6 w)
      ∧ (hosted [.port (.writeWord 0x08#6 w)]).inputs = .writeWord 0x08#6 w
      ∧ (HostOp.sw 0x08#6 w).inputs = .writeWord 0x08#6 w ∧ decodeRequest 0x3#32 = .ok .setWindow
      ∧ step { hosted [.sw 0x08#6 0x2#32] with cfg := { fixture with initRom := [] } } = .refused .notThisHardware :=
  ⟨⟨⟨rfl, rfl⟩, rfl⟩, rfl, rfl, rfl, rfl⟩

/-- StepRunsWire: the last argument of a column-address command completes. -/
theorem witness_StepRunsWire :
    ∃ (s t : State) (f : Frame) (i : Instr), s.inputs = .idle ∧ transportEdge s.presented = (t, some f)
      ∧ decodeFrames s.cfg.opc (s.rx.bytes.map cmdFrame ++ [f]) = .complete i [] :=
  ⟨idle.withWire [⟨.command, 0x21#8⟩, ⟨.command, 0x10#8⟩, ⟨.command, 0x50#8⟩], _, _, .coladdr 0x10#8 0x50#8, rfl, rfl, rfl⟩

/-- WriteByteAccepted, SetWindowAccepted, InitAccepted, InitRefusesOtherHardware, SetWindowPure. -/
theorem witness_requests :
    idle.busy = false ∧ idle.cfg.initRomOk = true
      ∧ ({ idle with cfg := { fixture with initRom := [] } } : State).busy = false
      ∧ ({ fixture with initRom := [] } : Params).initRomOk = false
      ∧ (texted 1#8 2#8).busy = false ∧ (texted 1#8 2#8).regs.win = idle.regs.win := by decide

/-- The text of 32 cells of this byte, but for the last. -/
def filled (a z : Byte) : State :=
  { idle with regs := { idle.regs with tb := (Vector.replicate 32 a).set 31 z } }

/-- DrawTextAccepted and DrawTextChecks: LEN 1 and LEN 32 with every cell 40; LEN 0 and 33; cell 41 the first, the last. -/
theorem witness_drawText :
    (∀ k, k < (32#8).toNat → ((filled 40#8 40#8).regs.tb.toList.getD k 0#8).toNat ≤ 40)
      ∧ (∀ k, k < (1#8).toNat → ((texted 40#8 41#8).regs.tb.toList.getD k 0#8).toNat ≤ 40)
      ∧ (0#8).toNat = 0 ∧ 32 < (33#8).toNat
      ∧ (∃ k, k < (1#8).toNat ∧ 40 < ((texted 41#8 0#8).regs.tb.toList.getD k 0#8).toNat)
      ∧ (∃ k, k < (32#8).toNat ∧ 40 < ((filled 40#8 41#8).regs.tb.toList.getD k 0#8).toNat) :=
  ⟨by decide, by decide, rfl, by decide, ⟨0, by decide, by decide⟩, ⟨31, by decide, by decide⟩⟩

/-- BusyDiscardsRequests; RequestsFrame and CommandBytesSent (with a Command frame there); MnemonicsAssemble. -/
theorem witness_busy_and_sent :
    (sending 0#32).busy = true ∧ isRequest .setWindow = true ∧ idle.busy = false
      ∧ ∃ t, exec .setWindow idle = .next t ∧ t.busy = true ∧ t.eng ≠ idle.eng
          ∧ ∃ f ∈ t.eng.frames, f.kind = .command :=
  ⟨rfl, rfl, rfl, _, rfl, rfl, by decide, ⟨.command, 0x21#8⟩, by decide, rfl⟩

/-- DrawTextCounts where the run ends at column 255; SingleGlyph with i = 40 and X = 250. -/
theorem witness_drawText_counts :
    (∃ t, exec (.drawText 244#8 0#8 2#8) (texted 1#8 2#8) = .next t ∧ t.busy = true)
      ∧ (244#8).toNat + 6 * (2#8).toNat - 1 = 255
      ∧ (texted 40#8 0#8).regs.tb.toList.getD 0 0#8 = BitVec.ofNat 8 40 ∧ (250#8).toNat ≤ 250 :=
  ⟨⟨_, rfl, rfl⟩, by decide, by decide, by decide⟩

/-- InitDoneChanges, both ways. -/
theorem witness_InitDoneChanges :
    (∃ s t : State, s.inputs.rst = false ∧ step s = .next t ∧ t.regs.initDone = false ∧ s.regs.initDone = true)
      ∧ ∃ t : State, initEnding.inputs.rst = false ∧ step initEnding = .next t ∧ t.regs.initDone = true
          ∧ initEnding.regs.initDone = false :=
  ⟨⟨{ hosted [.sw 0x08#6 0x2#32] with regs := { idle.regs with initDone := true } }, _, rfl, rfl, rfl, rfl⟩,
    _, rfl, rfl, rfl, rfl⟩

/-- InitDoneChanges, of the note of the panel: `ready` begins as an INIT ends; a reset that cuts a frame off, and one that
finds the display memory unknown, end it; `cutOff` outlasts a reset at rest. -/
theorem witness_panelNote :
    (∃ t, step initEnding = .next t ∧ t.panel = .ready ∧ initEnding.panel ≠ .ready)
      ∧ (∃ t, step { busyWith (.port .reset) with panel := .ready } = .next t ∧ t.panel = .cutOff)
      ∧ (∃ t, step { hosted [.port .reset] with panel := .ready } = .next t ∧ t.panel = .uninit)
      ∧ ∃ t, step { hosted [.port .reset] with panel := .cutOff } = .next t ∧ t.panel = .cutOff :=
  ⟨⟨_, rfl, rfl, by decide⟩, ⟨_, rfl, rfl⟩, ⟨_, rfl, rfl⟩, _, rfl, rfl⟩

/-- WindowNoteChanges: WIN_VALID falls; it rises; CURWIN changes. -/
theorem witness_WindowNoteChanges :
    (∃ s t : State, s.inputs.rst = false ∧ step s = .next t ∧ t.regs.winValid = false ∧ s.regs.winValid = true)
      ∧ (∃ s t : State, s.inputs.rst = false ∧ step s = .next t ∧ t.regs.winValid = true ∧ s.regs.winValid = false)
      ∧ (∃ s t : State, s.inputs.rst = false ∧ step s = .next t ∧ t.regs.curwin ≠ s.regs.curwin) :=
  ⟨⟨{ hosted [.sw 0x08#6 0x0000AE01#32] with regs := { idle.regs with winValid := true } }, _, rfl, rfl, rfl, rfl⟩,
    ⟨hosted [.sw 0x08#6 0x3#32], _, rfl, rfl, rfl, rfl⟩, ⟨hosted [.sw 0x08#6 0x2#32], _, rfl, rfl, by decide⟩⟩

/-- WritePriority, a state for each of its clauses, by `sw` and by raw port inputs: the target, its alignment, and BUSY. -/
theorem witness_WritePriority :
    (∀ off v, let s := hosted [.sw off v];
        s.inputs.rst = false ∧ s.inputs.sel = true ∧ s.inputs.we = true ∧ s.inputs.size = 2#2 ∧ s.inputs.addr = off
          ∧ s.busy = false ∧ (busyWith (.sw off v)).busy = true
          ∧ (hosted [.port (.writeWord off v)]).inputs = s.inputs)
      ∧ (∀ off ∈ [0x00#6, 0x04#6, 0x08#6, 0x0C#6, 0x10#6, 0x14#6, 0x18#6, 0x1C#6, 0x20#6, 0x3C#6], off.toNat % 4 = 0)
      ∧ (0x0A#6).toNat % 4 ≠ 0 ∧ (0x3C#6).toNat = 0x20 + 4 * (7 : Fin 8).val
      ∧ decodeRequest 0x3#32 = .ok .setWindow :=
  ⟨fun _ _ => ⟨rfl, rfl, rfl, rfl, rfl, rfl, rfl, rfl⟩, by decide, by decide, by decide, rfl⟩

/-- BusyRefusesHostWrites: the four targets, the text buffer at both ends, and STATUS. -/
theorem witness_BusyRefusesHostWrites (off : BitVec 6) (v : Word) :
    (let s := busyWith (.sw off v);
      s.busy = true ∧ s.inputs.rst = false ∧ s.inputs.sel = true ∧ s.inputs.we = true ∧ s.inputs.size = 2#2
        ∧ s.inputs.addr = off)
      ∧ (0x20 ≤ (0x20#6).toNat ∧ (0x20#6).toNat % 4 = 0) ∧ (0x20 ≤ (0x3C#6).toNat ∧ (0x3C#6).toNat % 4 = 0) :=
  ⟨⟨rfl, rfl, rfl, rfl, rfl, rfl⟩, by decide, by decide⟩

/-- ReadsReturnRegisters and ReadsHaveNoSideEffect: a read by `lw` and by `poll` of any offset, the text buffer's at both
ends; HostGoesOn; TextBufferStore. -/
theorem witness_host_operations (r : Nat) (off : BitVec 6) (v : Word) (op : HostOp) :
    (∀ o ∈ [HostOp.lw r off, .poll off 0x1#32 0x0#32], let s := hosted [o];
        s.inputs.rst = false ∧ s.inputs.sel = true ∧ s.inputs.we = false ∧ s.inputs.size = 2#2 ∧ s.inputs.addr = off)
      ∧ (hosted [.lw r off]).host.program = .lw r off :: []
      ∧ (0x20#6).toNat = 0x20 + 4 * (0 : Fin 8).val ∧ (0x3C#6).toNat = 0x20 + 4 * (7 : Fin 8).val
      ∧ (hosted [op]).host.program = op :: [] ∧ (hosted [op]).atRest
      ∧ (hosted [.sw 0x3C#6 v]).inputs = .writeWord (BitVec.ofNat 6 (0x20 + 4 * (7 : Fin 8).val)) v
      ∧ (∃ t, step (hosted [.poll 0x04#6 0x1#32 0x0#32]) = .next t)
      ∧ ∃ t, step (hosted [.sw 0x0C#6 0x03025010#32]) = .next t :=
  ⟨by simp [hosted, State.inputs, HostOp.inputs, PortCycle.readWord], rfl, by decide, by decide, rfl, ⟨rfl, rfl⟩, rfl,
    ⟨_, rfl⟩, ⟨_, rfl⟩⟩

/-- OnlyAlignedWords: a halfword read, a misaligned `lw`, a halfword write, a misaligned `sw`. -/
theorem witness_OnlyAlignedWords (v : Word) :
    (let p := (hosted [.port ⟨false, true, false, 0x04#6, 1#2, 0#32⟩]).inputs;
      p.rst = false ∧ p.sel = true ∧ p.we = false ∧ p.size ≠ 2#2)
      ∧ (let p := (hosted [.lw 1 0x06#6]).inputs;
         p.rst = false ∧ p.sel = true ∧ p.we = false ∧ p.addr.toNat % 4 ≠ 0)
      ∧ (let p := (hosted [.port ⟨false, true, true, 0x04#6, 1#2, 0#32⟩]).inputs;
         p.rst = false ∧ p.sel = true ∧ p.we = true ∧ p.size ≠ 2#2)
      ∧ (let p := (hosted [.sw 0x07#6 v]).inputs;
         p.rst = false ∧ p.sel = true ∧ p.we = true ∧ p.addr.toNat % 4 ≠ 0) :=
  ⟨by decide, by decide, by decide, rfl, rfl, rfl, by show (0x07#6).toNat % 4 ≠ 0; decide⟩

/-- ColumnAddress and PageAddress, each clause at its bounds; after an INIT and while one runs. -/
theorem witness_window_commands :
    ready.initReached = true ∧ ({ idle with eng := { idle.eng with curOp := some .init } } : State).initReached = true
      ∧ ((127#8).toNat ≤ (127#8).toNat ∧ (127#8).toNat ≤ 127) ∧ ((0#8).toNat ≤ (127#8).toNat) ∧ 127 < (128#8).toNat
      ∧ (0#8).toNat < (1#8).toNat ∧ ((7#8).toNat ≤ (7#8).toNat ∧ (7#8).toNat ≤ 7) ∧ 7 < (8#8).toNat := by decide

/-- DataByte: the known case at the last cell of the panel; another mode; each unknown field. -/
theorem witness_DataByte :
    (∃ s : State, s.initReached = true ∧ s.rx.am = .known .horizontal ∧ s.rx.cs = .known 0 ∧ s.rx.ce = .known 127 ∧ s.rx.ps = .known 0
        ∧ s.rx.pe = .known 7 ∧ s.rx.col = .known 127 ∧ s.rx.page = .known 7)
      ∧ (∃ s : State, s.rx.am ≠ .known .horizontal) ∧ (∃ s : State, ∃ n, s.rx.col = .draw n) :=
  ⟨⟨ready.withRx { panel with col := .known 127, page := .known 7 }, rfl, rfl, rfl, rfl, rfl, rfl, rfl, rfl⟩,
    ⟨idle.withRx { panel with am := .known .other }, by decide⟩, ⟨State.reset, 0, rfl⟩⟩

/-- BeforeFirstInit, the receiver holding a known window; UnknownUntilInit, where a data frame completes. -/
theorem witness_BeforeFirstInit :
    (idle.panel ≠ .ready ∧ idle.eng.curOp ≠ some .init ∧ idle.rx.col = .known 0)
      ∧ (({ idle with panel := .cutOff } : State).panel = .cutOff ∧ ({ idle with panel := .cutOff } : State).fieldsAct = false)
      ∧ (∃ s t : State, s.rx.fieldsUnknown ∧ step s = .next t ∧ t.fieldsAct = false ∧ t.rx ≠ s.rx)
      ∧ ∃ s t : State, s.rx.panelUnknown ∧ step s = .next t ∧ t.initReached = false ∧ t.rx ≠ s.rx :=
  ⟨by decide, ⟨rfl, rfl⟩, ⟨{ (settling 1#32).withRx { Receiver.unknown 0 with pending := .known [] } with panel := .cutOff }, _,
      ⟨⟨0, rfl⟩, ⟨0, rfl⟩⟩, rfl, rfl, by decide⟩, (settling 1#32).withRx { Receiver.unknown 0 with pending := .known [] }, _,
    ⟨rfl, ⟨0, rfl⟩, ⟨0, rfl⟩, ⟨0, rfl⟩, ⟨0, rfl⟩, ⟨0, rfl⟩, ⟨0, rfl⟩⟩, rfl, rfl, by decide⟩

/-- WireFrame, with a command that leaves the memory; OtherCommands' conditions. -/
theorem witness_WireFrame :
    isRequest (.coladdr 0#8 127#8) = false
      ∧ (∃ t, exec (.coladdr 0#8 127#8) ready = .next t ∧ t.rx ≠ Receiver.unknown ready.rx.draws)
      ∧ (∀ v, Instr.coladdr 0#8 127#8 ≠ .data v) ∧ (0x02#8 : Byte) ≠ 0x00#8
      ∧ idle.fieldsAct = true ∧ ready.fieldsAct = true ∧ [0x00#8, 0x00#8].length ≠ 1 ∧ ([] : List Byte).length ≠ 1 :=
  ⟨rfl, ⟨_, rfl, by decide⟩, fun _ h => Instr.noConfusion h, by decide, rfl, rfl, by decide, by decide⟩

/-- ReceiverParses, each clause: an unknown opcode, an opcode with arguments, two arguments to come, one to come. -/
theorem witness_ReceiverParses :
    commandOf idle.cfg.opc 0xE3#8 = none ∧ idle.rx.pending = .known []
      ∧ (∃ c, commandOf idle.cfg.opc 0x21#8 = some c ∧ 0 < c.args.val)
      ∧ 1 < ({ panel with pending := .known [0x21#8] } : Receiver).need idle.cfg.opc
      ∧ ({ panel with pending := .known [0x21#8, 0x05#8] } : Receiver).need idle.cfg.opc = 1
      ∧ ({ panel with pending := .known [0x81#8] } : Receiver).need idle.cfg.opc = 1 :=
  ⟨rfl, rfl, ⟨_, rfl, by decide⟩, by decide, by decide, by decide⟩

/-- InitClearsPanel: INIT running, with a receiver of which nothing is known but that it starts with `need = 0`. -/
theorem witness_InitClearsPanel :
    let s : State :=
      { State.reset with eng := ⟨some .init, [], 1⟩, rx := { Receiver.unknown 0 with pending := .known [] } }
    s.cfg.opc = Opcodes.default ∧ s.cfg.initRom = Config.defaultInitRom ∧ s.initReached = true ∧ s.rx.pending = .known [] :=
  ⟨rfl, rfl, rfl, rfl⟩

/-- ShiftWaveform and RequestSendsItsFrames, with SETTLE 0 and 3, the host polling and then writing a second request;
FrameIsEngineStep. -/
theorem witness_sending :
    (∀ settle ∈ [0#32, 3#32],
        let s : State :=
          { sending settle with host := ⟨[.poll 0x04#6 0x1#32 0x0#32, .sw 0x08#6 0x2#32], [], none⟩ }
        s.tx.tstate = .dc ∧ s.noResetAhead ∧ s.eng.pos = 1 ∧ s.regs.settle = settle)
      ∧ (∀ (settle : Word) (host : HostSide), Inv { sending settle with host := host })
      ∧ Inv (sending 3#32) ∧ (sending 3#32).tx.tstate = .dc ∧ (sending 3#32).host.program = [] :=
  ⟨by simp [sending, State.noResetAhead, HostOp.inputs, PortCycle.readWord, PortCycle.writeWord],
    fun _ host => inv_host (inv_sending _) host, inv_sending _, rfl, rfl⟩

/-- SettleWaveform, in the last cycle and in the first of three, the host polling. -/
theorem witness_SettleWaveform :
    (∀ host : HostSide, Inv { settling 1#32 with host := host } ∧ Inv { settling 3#32 with host := host })
      ∧ (settling 1#32).tx.tstate = .settle ∧ (settling 1#32).tx.sc.toNat = 1 ∧ (settling 3#32).tx.sc.toNat = 3
      ∧ State.noResetAhead { settling 3#32 with host := ⟨[.poll 0x04#6 0x1#32 0x0#32], [], none⟩ } :=
  ⟨fun host => ⟨inv_host inv_settling.1 host, inv_host inv_settling.2 host⟩, rfl, rfl, rfl,
    by simp [State.noResetAhead, HostOp.inputs, PortCycle.readWord]⟩

/-- HostWriteIsTransaction, with a store by `sw` and with a request by raw port inputs. -/
theorem witness_HostWriteIsTransaction :
    (let s := hosted [.sw 0x0C#6 0x03025010#32];
      Inv s ∧ s.atRest ∧ s.inputs.rst = false ∧ s.inputs.sel = true ∧ s.inputs.we = true ∧ ∃ t, step s = .next t)
      ∧ (let s := hosted [.port (.writeWord 0x08#6 0x3#32)];
         Inv s ∧ s.atRest ∧ s.inputs.rst = false ∧ s.inputs.sel = true ∧ s.inputs.we = true ∧ ∃ t, step s = .next t) :=
  ⟨⟨inv_host inv_idle _, ⟨rfl, rfl⟩, rfl, rfl, rfl, _, rfl⟩, inv_host inv_idle _, ⟨rfl, rfl⟩, rfl, rfl, rfl, _, rfl⟩

/-- ResetEdge, ResetAndReceiver and the reset clause of WritePriority: reset with a write presented, in each state of the transport. -/
theorem witness_reset (ts : TState) :
    let p : PortCycle := ⟨true, true, true, 0x10#6, 2#2, 0#32⟩
    let s : State := { busyWith (.port p) with tx := { idle.tx with tstate := ts } }
    s.host.program = .port p :: [] ∧ p.rst = true ∧ s.inputs.rst = true ∧ (∃ t, step s = .next t) ∧ s.tx.tstate = ts :=
  ⟨rfl, rfl, rfl, ⟨_, rfl⟩, rfl⟩

/-- StepKeepsInv, OperandsHeldWhileBusy, PositionAdvances (where it advances) and TraceAppends (where a frame completes). -/
theorem witness_running :
    (Inv between ∧ between.busy = true ∧ between.inputs.rst = false ∧ between.tx.tstate = .rel
        ∧ ∃ t, step between = .next t ∧ t.eng.pos = between.eng.pos + 1)
      ∧ (Inv (settling 1#32) ∧ (settling 1#32).inputs.rst = false
        ∧ ∃ t, step (settling 1#32) = .next t ∧ t.trace ≠ (settling 1#32).trace) :=
  ⟨⟨inv_between, rfl, rfl, rfl, _, rfl, rfl⟩, inv_settling.1, rfl, _, rfl, by decide⟩

/-- NothingUnbidden: at rest, a step that starts a frame. -/
theorem witness_NothingUnbidden :
    (hosted [.sw 0x08#6 0x3#32]).atRest ∧ ∃ t, step (hosted [.sw 0x08#6 0x3#32]) = .next t ∧ t.busy = true :=
  ⟨⟨rfl, rfl⟩, _, rfl, rfl⟩

/-- CharacterIndices, at the ends of its ranges. -/
theorem witness_CharacterIndices :
    charIndex '0' = some 0#8 ∧ charIndex '9' = some 9#8 ∧ charIndex 'A' = some 10#8 ∧ charIndex 'Z' = some 35#8
      ∧ charIndex '/' = none ∧ charIndex '@' = none ∧ charIndex '[' = none := by decide

/-- TextFillsBuffer, with 1 and with 32 indices. -/
theorem witness_TextFillsBuffer :
    (∃ ops, drawRun [7#8] 0#8 0#8 = .ok ops ∧ (hosted ops).host.program = ops ∧ (hosted ops).atRest)
      ∧ ∃ ops, drawRun (List.replicate 32 40#8) 255#8 0#8 = .ok ops ∧ (hosted ops).host.program = ops :=
  ⟨⟨_, rfl, rfl, rfl, rfl⟩, _, rfl, rfl⟩

end Sys2Proof.Tests
end

/-! ## What a step out of reset can do

The wire's share of an edge is `transportEdge` and a new receiver; the host's share is a store in the registers or an
accepted request. Every claim about a step below starts from these two shares. -/

namespace Sys2Proof.Machine

variable {s t u : State}

/-! ### Requests and their plans -/

/-- Only requests are decoded from request words (R106). -/
theorem isRequest_of_decodeRequest {w : Word} {i : Instr} (h : decodeRequest w = .ok i) : isRequest i = true := by
  unfold decodeRequest at h
  repeat' split at h
  all_goals cases h
  all_goals rfl

/-- A request run by an idle block carries out its plan. -/
theorem exec_request {i : Instr} (hi : isRequest i = true) (hb : s.busy = false) (h : exec i s = .next t) :
    ∃ p, requestPlan s.cfg s.regs i = some p ∧ t = perform p s := by
  cases i with
  | writeByte v k => cases h; exact ⟨_, rfl, rfl⟩
  | setWindow => cases h; exact ⟨_, rfl, rfl⟩
  | drawText x y len => cases h; exact ⟨_, rfl, rfl⟩
  | init =>
    simp only [exec, execInit, hb, Bool.false_or] at h
    split at h
    · cases h; exact ⟨planInit s.cfg, by simp [requestPlan, *], rfl⟩
    · cases h
  | _ => cases hi

/-- What a request can start: a raw frame, which forgets the window if it is a command (R24, R132), or a request that
records its window (R31, R166, R169, R196). -/
theorem requestPlan_start {cfg : Params} {r : Regs} {i : Instr} {l : Launch}
    (h : requestPlan cfg r i = some (.start l)) :
    (∃ v, l = ⟨.writeByte, [⟨.command, v⟩], .forget⟩)
    ∨ (∃ v, l = ⟨.writeByte, [⟨.data, v⟩], .keep⟩)
    ∨ (l.frames ≠ [] ∧ (∃ w, l.note = .record w) ∧ (l.op = .init ∨ l.op = .setWindow ∨ l.op = .drawText)) := by
  cases i with
  | writeByte v k =>
    cases k <;> cases h
    · exact .inl ⟨v, rfl⟩
    · exact .inr (.inl ⟨v, rfl⟩)
  | init =>
    simp only [requestPlan] at h
    split at h <;> cases h
    have hl := initFrames_length cfg
    exact .inr (.inr ⟨fun he => by simp [show initFrames cfg = [] from he] at hl, ⟨_, rfl⟩, .inl rfl⟩)
  | setWindow => cases h; exact .inr (.inr ⟨List.cons_ne_nil _ _, ⟨_, rfl⟩, .inr (.inl rfl)⟩)
  | drawText x y len =>
    replace h := Option.some.inj h
    unfold planDrawText at h
    repeat' split at h
    all_goals cases h
    exact .inr (.inr ⟨List.cons_ne_nil _ _, ⟨_, rfl⟩, .inr (.inr rfl)⟩)
  | _ => cases h

theorem requestPlan_frames_ne_nil {cfg : Params} {r : Regs} {i : Instr} {l : Launch}
    (h : requestPlan cfg r i = some (.start l)) : l.frames ≠ [] := by
  rcases requestPlan_start h with ⟨v, rfl⟩ | ⟨v, rfl⟩ | ⟨hf, -⟩
  · simp
  · simp
  · exact hf

/-- Acceptance with a first frame: the engine runs, and that frame is offered. -/
theorem accept_cons {l : Launch} {f : Frame} {fs : List Frame} (h : l.frames = f :: fs) (s : State) :
    accept l s = offer f { s with regs := s.regs.noteLaunch l, eng := ⟨some l.op, f :: fs, 1⟩ } := by
  simp [accept, h, launch_cons]

/-! ### Registers that acceptance writes -/

theorem noteLaunch_initDone (r : Regs) (l : Launch) :
    (r.noteLaunch l).initDone = if l.op = .init then false else r.initDone := by
  cases l with | mk op fs note => cases note <;> cases op <;> rfl

theorem noteLaunch_record {r : Regs} {l : Launch} {w : Word} (h : l.note = .record w) :
    (r.noteLaunch l).winValid = true ∧ (r.noteLaunch l).curwin = w := by
  cases l with | mk op fs note => cases h; cases op <;> exact ⟨rfl, rfl⟩

/-! ### Registers that the host's stores leave alone -/

@[simp] theorem onRegs_winValid (a : HostAction) (r : Regs) : (a.onRegs r).winValid = r.winValid := by cases a <;> rfl
@[simp] theorem onRegs_initDone (a : HostAction) (r : Regs) : (a.onRegs r).initDone = r.initDone := by cases a <;> rfl
@[simp] theorem onRegs_curwin (a : HostAction) (r : Regs) : (a.onRegs r).curwin = r.curwin := by cases a <;> rfl
@[simp] theorem onRegs_txcount (a : HostAction) (r : Regs) : (a.onRegs r).txcount = r.txcount := by cases a <;> rfl

/-- While BUSY the host's action writes the error bits alone (R227). -/
theorem hostAction_busy_onRegs (p : PortCycle) (r : Regs) :
    (hostAction true p).onRegs r = { r with err := ((hostAction true p).onRegs r).err } := by
  rcases hostAction_busy p with h | ⟨e, h⟩ | ⟨v, h⟩ <;> rw [h] <;> rfl

/-! ### The host's share -/

/-- What the host's share of an edge makes of the state `u` that the wire's share leaves, BUSY being as at the start of the
cycle: a store in the registers, of the error bits alone while BUSY, or a request accepted by an idle block. -/
inductive HostShare (busy : Bool) (u : State) : State → Prop where
  | store (r : Regs) (winValid : r.winValid = u.regs.winValid) (initDone : r.initDone = u.regs.initDone)
      (curwin : r.curwin = u.regs.curwin) (txcount : r.txcount = u.regs.txcount)
      (held : busy = true → r = { u.regs with err := r.err }) : HostShare busy u { u with regs := r }
  | accept (i : Instr) (l : Launch) (idle : busy = false) (plan : requestPlan u.cfg u.regs i = some (.start l)) :
      HostShare busy u (accept l u)

/-- Raising an error is a store of the host's share. -/
theorem HostShare.raise (busy : Bool) (u : State) (e : Err) : HostShare busy u (raiseErr e u) :=
  .store _ rfl rfl rfl rfl fun _ => rfl

theorem hostShare_of_event {busy : Bool} {p : PortCycle} (hu : busy = false → u.busy = false)
    (h : ((hostAction busy p).event u).finish = .next t) : HostShare busy u t := by
  by_cases hq : ∃ i, hostAction busy p = .request i
  · obtain ⟨i, ha⟩ := hq
    obtain ⟨hb, hd, -, -⟩ := hostAction_request ha
    rw [ha] at h
    obtain ⟨plan, hp, rfl⟩ := exec_request (isRequest_of_decodeRequest hd) (hu hb) h
    cases plan with
    | reject e => rw [perform_reject u e (hu hb)]; exact .raise busy u e
    | start l => rw [perform_start u l (hu hb)]; exact .accept i l hb hp
  · rw [event_regs _ _ fun i hi => hq ⟨i, hi⟩] at h
    cases h
    refine .store _ (by simp) (by simp) (by simp) (by simp) fun hb => ?_
    subst hb
    exact hostAction_busy_onRegs p u.regs

/-! ### The two shares of a step -/

/-- What the wire's share of an edge leaves: the transport's edge, another receiver, and the host's operation done. -/
def State.afterWire (s : State) (r : Receiver) : State := { (transportEdge s).1 with rx := r, host := s.retire }

/-- An edge of the transport leaves the engine, the panel's note and INIT_DONE, or it is the edge out of T_REL. -/
theorem transportEdge_engine (s : State) :
    ((transportEdge s).1.eng = s.eng ∧ (transportEdge s).1.panel = s.panel
      ∧ (transportEdge s).1.regs.initDone = s.regs.initDone)
    ∨ (s.tx.tstate = .rel ∧ (transportEdge s).1 = afterRelease s) := by
  rcases transportEdge_cases s with ⟨-, e⟩ | ⟨-, e⟩ | ⟨-, -, e⟩ | ⟨-, -, -, e⟩ | ⟨-, -, -, e⟩ | ⟨-, e⟩ | ⟨ht, e⟩ <;> rw [e]
  · exact .inl ⟨rfl, rfl, rfl⟩
  · exact .inl ⟨rfl, rfl, rfl⟩
  · exact .inl ⟨rfl, rfl, rfl⟩
  · exact .inl ⟨rfl, rfl, rfl⟩
  · rcases endShift_cases s with ⟨-, e⟩ | ⟨-, e⟩ <;> rw [e] <;> exact .inl ⟨rfl, rfl, rfl⟩
  · unfold settleEdge; split <;> exact .inl ⟨rfl, rfl, rfl⟩
  · exact .inr ⟨ht, rfl⟩

/-- The edge out of T_REL: the next frame is offered, or none is left and the request ends. -/
theorem afterRelease_cases (s : State) :
    (∃ f, s.eng.frames[s.eng.pos]? = some f
      ∧ afterRelease s = offer f { s with eng := { s.eng with pos := s.eng.pos + 1 } })
    ∨ (s.eng.frames.length ≤ s.eng.pos ∧ afterRelease s = { s with
        tx := { s.tx with tstate := .idle }
        eng := { s.eng with curOp := none }
        panel := if s.eng.curOp = some .init then .ready else s.panel
        regs := { s.regs with initDone := if s.eng.curOp = some .init then true else s.regs.initDone } }) := by
  unfold afterRelease
  split
  next f hf => exact .inl ⟨f, hf, rfl⟩
  next hf => exact .inr ⟨List.getElem?_eq_none_iff.1 hf, rfl⟩

/-- The transport's edge never starts a request. -/
theorem transportEdge_busy (s : State) (h : s.busy = false) : (transportEdge s).1.busy = false := by
  rcases transportEdge_engine s with ⟨he, -⟩ | ⟨-, e⟩
  · rw [State.busy, he]; exact h
  · rcases afterRelease_cases s with ⟨f, -, e'⟩ | ⟨-, e'⟩ <;> rw [e, e']
    · exact h
    · rfl

/-- A step out of reset is the wire's share and then the host's. -/
theorem step_shares (hr : s.inputs.rst = false) (h : step s = .next t) :
    ∃ r, (wireEvent s.presented).finish = .next (s.afterWire r) ∧ HostShare s.busy (s.afterWire r) t := by
  obtain ⟨r, hw, -⟩ := wireEvent_finish s.presented
  have he : (transportEdge s.presented).1.withRx r = s.afterWire r := by
    rw [State.presented, transportEdge_host]; rfl
  rw [he] at hw
  have hs : step s = ((hostAction s.busy s.inputs).event (s.afterWire r)).finish := by
    simp only [step, hr]
    rw [show (wireEvent { s with host := s.retire }).finish = _ from hw]
    rfl
  exact ⟨r, hw, hostShare_of_event (transportEdge_busy s) (hs ▸ h)⟩

/-- A step out of reset at rest is the host's share alone. -/
theorem step_atRest (h : s.atRest) (hr : s.inputs.rst = false) :
    step s = ((hostAction false s.inputs).event s.presented).finish := by
  obtain ⟨hb, hi⟩ := h
  have he : transportEdge s.presented = (s.presented, none) := transportEdge_idle hi
  have hw : (wireEvent s.presented).finish = .next s.presented := by simp only [wireEvent, he]; rfl
  simp only [step, hr, hb]
  rw [show (wireEvent { s with host := s.retire }).finish = _ from hw]
  rfl

/-! ### Runs -/

/-- A run takes its first step and goes on, on any machine behind the interface. -/
theorem run_succ_of_step {M : Host.Core} {a b : M.State} (k : Nat) (h : M.step a = .next b) :
    M.run (k + 1) a = M.run k b := by
  simp [Host.Core.run, h]

theorem core_run_succ (k : Nat) (h : step s = .next t) : Sys2Proof.core.run (k + 1) s = Sys2Proof.core.run k t :=
  run_succ_of_step (M := Sys2Proof.core) k h

end Sys2Proof.Machine

/-! ## The invariant

The part of the invariant that speaks of the block, `BlockOk`, is kept by each of the transport's operations, by a store of
the host and by an accepted request; the receiver's part is kept by every instruction of the wire. -/

namespace Sys2Proof.Machine

variable {s t u : State}

/-- The invariant of the block: all of `Inv` but the receiver. -/
structure BlockOk (s : State) : Prop where
  engine : EngineOk s
  pins : PinsOk s
  counters : CountersOk s

theorem Inv.block (h : Inv s) : BlockOk s := ⟨h.engine, h.pins, h.counters⟩

theorem EngineOk.of_eq (h : EngineOk s) (heng : t.eng = s.eng) (htx : t.tx = s.tx)
    (hi : t.regs.initDone = s.regs.initDone) (hpanel : t.panel = s.panel) : EngineOk t where
  idle := by rw [heng, htx]; exact h.idle
  pos := by rw [State.busy, heng]; exact h.pos
  current := by rw [State.busy, heng, htx]; exact h.current
  initDone := by rw [heng, hi]; exact h.initDone
  panel := by rw [hi, hpanel]; exact h.panel

theorem PinsOk.of_eq (h : PinsOk s) (htx : t.tx = s.tx) (hpins : t.pins = s.pins) (htrace : t.trace = s.trace) :
    PinsOk t where
  csN := by rw [hpins, htx]; exact h.csN
  sclk := by rw [hpins, htx]; exact h.sclk
  dcFrame := by rw [hpins, htx]; exact h.dcFrame
  dcBetween := by rw [hpins, htx, htrace]; exact h.dcBetween
  mosiShift := by rw [hpins, htx]; exact h.mosiShift
  mosiSettle := by rw [hpins, htx]; exact h.mosiSettle
  mosiBetween := by rw [hpins, htx, htrace]; exact h.mosiBetween

/-- The block's invariant speaks neither of the receiver nor of the host, nor of the registers but three. -/
theorem BlockOk.of_eq (h : BlockOk s) (heng : t.eng = s.eng) (htx : t.tx = s.tx) (hpins : t.pins = s.pins)
    (htrace : t.trace = s.trace) (hpanel : t.panel = s.panel) (hi : t.regs.initDone = s.regs.initDone)
    (hc : t.regs.txcount = s.regs.txcount) (hs : s.tx.tstate = .settle → t.regs.settle = s.regs.settle) :
    BlockOk t where
  engine := h.engine.of_eq heng htx hi hpanel
  pins := h.pins.of_eq htx hpins htrace
  counters :=
    { txcount := by rw [hc, htrace]; exact h.counters.txcount
      settle := fun ht => by rw [htx] at ht ⊢; rw [hs ht]; exact h.counters.settle ht
      select := by rw [htx]; exact h.counters.select
      released := by rw [htx, htrace]; exact h.counters.released }

/-- The trace ends in the frame just sent. -/
@[simp] theorem dcAfter_append (tr : List Frame) (f : Frame) : dcAfter (tr ++ [f]) = f.kind.isData := by simp [dcAfter]
@[simp] theorem mosiAfter_append (tr : List Frame) (f : Frame) : mosiAfter (tr ++ [f]) = f.value.getLsbD 0 := by
  simp [mosiAfter]

theorem BlockOk.busy_iff (h : BlockOk s) : s.busy = true ↔ s.tx.tstate ≠ .idle := by
  rw [ne_eq, ← h.engine.idle, ← busy_eq_false_iff, Bool.not_eq_false]

/-! ### The transport's operations -/

/-- The edge out of T_DC. -/
theorem BlockOk.startShift (h : BlockOk s) (ht : s.tx.tstate = .dc) : BlockOk (startShift s) := by
  obtain ⟨he, hp, hk⟩ := h
  obtain ⟨hnb, -⟩ := hk.select ht
  have hdc : s.pins.dc = s.tx.fk.isData := hp.dcFrame (by simp [ht])
  exact ⟨⟨by simpa [ht] using he.idle, he.pos, he.current, he.initDone, he.panel⟩,
    ⟨by simp, by simp, fun _ => hdc, by simp, by simp [hnb], by simp, by simp⟩,
    ⟨hk.txcount, by simp, by simp, by simp⟩⟩

/-- The edge from LO to HI. -/
theorem BlockOk.clockHigh (h : BlockOk s) (ht : s.tx.tstate = .shift) : BlockOk (clockHigh s) := by
  obtain ⟨he, hp, hk⟩ := h
  have hdc : s.pins.dc = s.tx.fk.isData := hp.dcFrame (by simp [ht])
  exact ⟨⟨he.idle, he.pos, he.current, he.initDone, he.panel⟩,
    ⟨hp.csN, by simp [ht], fun _ => hdc, by simp [ht], fun _ => hp.mosiShift ht, by simp [ht], by simp [ht]⟩,
    ⟨hk.txcount, by simp [ht], by simp [ht], by simp [ht]⟩⟩

/-- The edge from HI to the next bit. -/
theorem BlockOk.nextBit (h : BlockOk s) (ht : s.tx.tstate = .shift) : BlockOk (nextBit s) := by
  obtain ⟨he, hp, hk⟩ := h
  have hdc : s.pins.dc = s.tx.fk.isData := hp.dcFrame (by simp [ht])
  exact ⟨⟨he.idle, he.pos, he.current, he.initDone, he.panel⟩,
    ⟨hp.csN, by simp, fun _ => hdc, by simp [ht], by simp, by simp [ht], by simp [ht]⟩,
    ⟨hk.txcount, by simp [ht], by simp [ht], by simp [ht]⟩⟩

/-- The release of a frame, `sclk` being low again and bit 0 on `mosi`. -/
theorem BlockOk.release (he : EngineOk s) (hc : s.regs.txcount = BitVec.ofNat 32 s.trace.length)
    (ht : s.tx.tstate ≠ .idle) (hs : s.pins.sclk = false) (hm : s.pins.mosi = s.tx.sh.getLsbD 0) :
    BlockOk (release s).1 := by
  have hn : s.eng.curOp ≠ none := mt he.idle.1 ht
  exact ⟨⟨by simp [hn], he.pos, he.current, he.initDone, he.panel⟩,
    ⟨by simp, by simp [hs], by simp, by simp, by simp, by simp, by simp [hm]⟩,
    ⟨by simp [hc, BitVec.ofNat_add], by simp, by simp, by simp⟩⟩

/-- The end of the shift: a release, or the settle interval. -/
theorem BlockOk.endShift (h : BlockOk s) (ht : s.tx.tstate = .shift) (hn : s.tx.nb.val = 0) :
    BlockOk (endShift s).1 := by
  obtain ⟨he, hp, hk⟩ := h
  have hm : s.pins.mosi = s.tx.sh.getLsbD 0 := hn ▸ hp.mosiShift ht
  have hdc : s.pins.dc = s.tx.fk.isData := hp.dcFrame (by simp [ht])
  have hcs : s.pins.csN = false := by simpa [ht] using hp.csN
  rcases endShift_cases s with ⟨-, e⟩ | ⟨h0, e⟩ <;> rw [e]
  · exact .release (he.of_eq rfl rfl rfl rfl) hk.txcount (by simp [ht]) rfl hm
  · have h1 : 1 ≤ s.regs.settle.toNat := Nat.one_le_iff_ne_zero.2 fun h => h0 (BitVec.eq_of_toNat_eq h)
    exact ⟨⟨by simpa [ht] using he.idle, he.pos, he.current, he.initDone, he.panel⟩,
      ⟨by simp [hcs], by simp, fun _ => hdc, by simp, by simp, fun _ => hm, by simp⟩,
      ⟨hk.txcount, fun _ => ⟨h1, le_rfl⟩, by simp, by simp⟩⟩

/-- Counting down a word that is not 0. -/
theorem toNat_sub_one {x : Word} (h : 1 ≤ x.toNat) : (x - 1#32).toNat = x.toNat - 1 := by
  rw [BitVec.toNat_sub_of_le (by simpa [BitVec.le_def] using h)]; rfl

/-- An edge of the settle interval. -/
theorem BlockOk.settleEdge (h : BlockOk s) (ht : s.tx.tstate = .settle) : BlockOk (settleEdge s).1 := by
  obtain ⟨he, hp, hk⟩ := h
  have hsclk : s.pins.sclk = false := by simpa [ht] using hp.sclk
  unfold Machine.settleEdge
  split
  · exact .release he hk.txcount (by simp [ht]) hsclk (hp.mosiSettle ht)
  · rename_i h1
    obtain ⟨hlo, hhi⟩ := hk.settle ht
    have hne : s.tx.sc.toNat ≠ 1 := fun h => h1 (BitVec.eq_of_toNat_eq h)
    exact ⟨⟨he.idle, he.pos, he.current, he.initDone, he.panel⟩,
      ⟨hp.csN, hp.sclk, hp.dcFrame, hp.dcBetween, hp.mosiShift, hp.mosiSettle, hp.mosiBetween⟩,
      ⟨hk.txcount, fun _ => by simp only [toNat_sub_one hlo]; omega, hk.select, hk.released⟩⟩

/-- A frame is offered between frames: the pins hold their levels but `dc`. -/
theorem BlockOk.offer {f : Frame} (hp : PinsOk s) (ht : s.tx.tstate = .idle ∨ s.tx.tstate = .rel)
    (hb : s.busy = true) (hpos : 1 ≤ s.eng.pos ∧ s.eng.pos ≤ s.eng.frames.length)
    (hf : s.eng.frames[s.eng.pos - 1]? = some f) (hi : s.eng.curOp = some .init → s.regs.initDone = false)
    (hpanel : s.regs.initDone = true → s.panel = .ready)
    (hc : s.regs.txcount = BitVec.ofNat 32 s.trace.length) : BlockOk (offer f s) := by
  have hn : s.eng.curOp ≠ none := by simpa [State.busy, Option.isSome_iff_ne_none] using hb
  have hcs : s.pins.csN = true := hp.csN.2 (by rcases ht with h | h <;> simp [h])
  have hsclk : s.pins.sclk = false := by
    rw [← Bool.not_eq_true, hp.sclk]; rcases ht with h | h <;> simp [h]
  have hm : s.pins.mosi = mosiAfter s.trace := hp.mosiBetween (ht.imp_right .inl)
  exact ⟨⟨by simp [hn], fun _ => hpos, fun _ => hf, hi, hpanel⟩,
    ⟨by simp [hcs], by simp [hsclk], by simp, by simp, by simp, by simp, fun _ => hm⟩,
    ⟨hc, by simp, by simp, by simp⟩⟩

/-- The edge out of T_REL: the next frame, or the end of the request. -/
theorem BlockOk.afterRelease (h : BlockOk s) (ht : s.tx.tstate = .rel) : BlockOk (afterRelease s) := by
  have hb : s.busy = true := h.busy_iff.2 (by simp [ht])
  obtain ⟨he, hp, hk⟩ := h
  rcases afterRelease_cases s with ⟨f, hf, e⟩ | ⟨-, e⟩ <;> rw [e]
  · have hlt : s.eng.pos < s.eng.frames.length := (List.getElem?_eq_some_iff.1 hf).1
    exact .offer (hp.of_eq rfl rfl rfl) (.inr ht) hb ⟨Nat.le_add_left .., hlt⟩ hf he.initDone he.panel hk.txcount
  · have hpanel : (if s.eng.curOp = some .init then true else s.regs.initDone) = true →
        (if s.eng.curOp = some .init then .ready else s.panel) = PanelNote.ready := by
      by_cases hi : s.eng.curOp = some .init
      · simp [hi]
      · simpa [hi] using he.panel
    have hcs : s.pins.csN = true := hp.csN.2 (by simp [ht])
    have hsclk : s.pins.sclk = false := by simpa [ht] using hp.sclk
    exact ⟨⟨by simp, by simp [State.busy], by simp [State.busy], by simp, hpanel⟩,
      ⟨by simp [hcs], by simp [hsclk], by simp, fun _ => hp.dcBetween (.inr ht), by simp, by simp,
        fun _ => hp.mosiBetween (.inr (.inl ht))⟩,
      ⟨hk.txcount, by simp, by simp, by simp⟩⟩

/-- Every edge of the transport keeps the block's invariant. -/
theorem BlockOk.transportEdge (h : BlockOk s) : BlockOk (transportEdge s).1 := by
  rcases transportEdge_cases s with ⟨-, e⟩ | ⟨ht, e⟩ | ⟨ht, -, e⟩ | ⟨ht, -, -, e⟩ | ⟨ht, -, hn, e⟩ | ⟨ht, e⟩ | ⟨ht, e⟩ <;>
    rw [e]
  · exact h
  · exact h.startShift ht
  · exact h.clockHigh ht
  · exact h.nextBit ht
  · exact h.endShift ht hn
  · exact h.settleEdge ht
  · exact h.afterRelease ht

/-! ### The host's share -/

/-- An accepted request offers its first frame from rest. -/
theorem BlockOk.accept {l : Launch} (h : BlockOk u) (hb : u.busy = false) (hl : l.frames ≠ []) :
    BlockOk (accept l u) := by
  obtain ⟨f, fs, hf⟩ := List.exists_cons_of_ne_nil hl
  rw [accept_cons hf]
  have ht : u.tx.tstate = .idle := h.engine.idle.1 ((busy_eq_false_iff u).1 hb)
  obtain ⟨he, hp, hk⟩ := h
  refine .offer (hp.of_eq rfl rfl rfl) (.inl ht) rfl
    ⟨le_rfl, by simp⟩ rfl (fun hi => ?_) (fun hd => he.panel ?_) ((noteLaunch_txcount u.regs l).trans hk.txcount)
  · simp [noteLaunch_initDone, show l.op = .init by simpa using hi]
  · exact (by simpa [noteLaunch_initDone] using hd : _ ∧ _).2

/-- The host's share keeps the block's invariant: it writes SETTLE only at rest. -/
theorem BlockOk.hostShare {busy : Bool} (h : BlockOk u) (hb : busy = false → u.busy = false)
    (hs : HostShare busy u t) : BlockOk t := by
  cases hs with
  | store r _ hi _ hc held =>
    refine h.of_eq rfl rfl rfl rfl rfl hi hc fun ht => ?_
    cases busy with
    | true => simp only; rw [held rfl]
    | false => exact absurd (hb rfl) (by simp [h.busy_iff, ht])
  | accept i l idle plan => exact h.accept (hb idle) (requestPlan_frames_ne_nil plan)

/-! ### Reset -/

theorem BlockOk.reset (s : State) : BlockOk (resetBlock s) where
  engine := ⟨by simp [Engine.reset, Transport.reset], by simp [State.busy, Engine.reset], by simp [State.busy, Engine.reset],
    by simp [Engine.reset], by simp [Regs.reset]⟩
  pins := ⟨by simp [Pins.reset, Transport.reset], by simp [Pins.reset, Transport.reset], by simp [Transport.reset],
    fun _ => rfl, by simp [Transport.reset], by simp [Transport.reset], fun _ => rfl⟩
  counters := ⟨rfl, by simp [Transport.reset], by simp [Transport.reset], by simp [Transport.reset]⟩

/-! ### The receiver -/

/-- A run of frames that ends inside a command is Command frames alone (R82, R110). -/
theorem kind_of_decodeFrames_more {o : Opcodes} {fs : List Frame} {n : Nat} (h : decodeFrames o fs = .more n) :
    ∀ f ∈ fs, f.kind = .command := by
  unfold decodeFrames at h
  split at h
  next => simp
  next => cases h
  next v rest =>
    split at h
    next => cases h
    next c _ =>
      rcases takeArgs_cases c.args.val rest with ⟨_, _, he, -⟩ | ⟨args, k, -, -, rfl⟩ | ⟨he, -⟩
      · rw [he] at h; cases h
      · simp
      · rw [he] at h; cases h

theorem setColumns_pending (r : Receiver) (a b : Byte) :
    (r.setColumns a b).pending = r.pending ∨ r.setColumns a b = r.havoc := by
  unfold Receiver.setColumns
  split
  · exact .inl rfl
  · exact .inr rfl

theorem setPages_pending (r : Receiver) (a b : Byte) :
    (r.setPages a b).pending = r.pending ∨ r.setPages a b = r.havoc := by
  unfold Receiver.setPages
  split
  · exact .inl rfl
  · exact .inr rfl

theorem setMode_pending (r : Receiver) (args : List Byte) :
    (r.setMode args).pending = r.pending ∨ r.setMode args = r.havoc := by
  unfold Receiver.setMode
  split
  · exact .inl rfl
  · exact .inr rfl

theorem putData_pending (r : Receiver) (v : Byte) :
    (r.putData v).pending = r.pending ∨ r.putData v = r.havoc := by
  unfold Receiver.putData
  split
  · exact .inl rfl
  · exact .inr rfl

/-- A receiver in havoc is in order. -/
theorem ReceiverOk.havoc (s : State) (r : Receiver) : ReceiverOk (s.withRx r.havoc) where
  memory := wf_havoc r
  parse := fun _ h => by cases h

/-- So is one with its memory in order and the parse state of one in order, or havoc. -/
theorem ReceiverOk.withRx (h : ReceiverOk s) {r : Receiver} (hm : Memory.wf r.gd = true)
    (hp : r.pending = s.rx.pending ∨ r = s.rx.havoc) : ReceiverOk (s.withRx r) := by
  rcases hp with hp | rfl
  · exact ⟨hm, fun bytes hb => h.parse bytes (hp ▸ hb)⟩
  · exact .havoc s s.rx

theorem ReceiverOk.fieldDo (h : ReceiverOk s) {r : Receiver} (hm : Memory.wf r.gd = true)
    (hp : r.pending = s.rx.pending ∨ r = s.rx.havoc) : ReceiverOk (s.fieldDo r) := by
  cases hf : s.fieldsAct with
  | true => rw [fieldDo_act hf]; exact h.withRx hm hp
  | false => rw [fieldDo_cutOff hf]; exact .havoc s s.rx

theorem ReceiverOk.panelDo (h : ReceiverOk s) {r : Receiver} (hm : Memory.wf r.gd = true)
    (hp : r.pending = s.rx.pending ∨ r = s.rx.havoc) : ReceiverOk (s.panelDo r) := by
  cases hf : s.initReached with
  | true => rw [panelDo_reached hf]; exact h.withRx hm hp
  | false => rw [panelDo_before hf]; exact .havoc s s.rx

/-- Every instruction of the wire keeps the receiver in order. -/
theorem ReceiverOk.exec_wire {i : Instr} (hi : isRequest i = false) (h : ReceiverOk s) (he : exec i s = .next t) :
    ReceiverOk t := by
  have hm := h.memory
  cases i with
  | dispoff _ | dispon _ => cases he; exact h.fieldDo hm (.inl rfl)
  | addrmode args => cases he; exact h.fieldDo (wf_setMode hm args) (setMode_pending s.rx args)
  | coladdr a b => cases he; exact h.panelDo (wf_setColumns hm a b) (setColumns_pending s.rx a b)
  | pageaddr a b => cases he; exact h.panelDo (wf_setPages hm a b) (setPages_pending s.rx a b)
  | data v => cases he; exact h.panelDo (wf_putData hm v) (putData_pending s.rx v)
  | writeByte _ _ | init | setWindow | drawText _ _ _ => cases hi
  | _ => cases he; exact h.withRx hm (.inl rfl)

/-- Taking a frame keeps the receiver in order. -/
theorem ReceiverOk.takeFrame {f : Frame} (h : ReceiverOk s) (ht : (takeFrame f s).finish = .next t) : ReceiverOk t := by
  unfold Machine.takeFrame at ht
  split at ht
  next i hd =>
    have h0 : ReceiverOk (s.withRx { s.rx with pending := .known [] }) :=
      ⟨h.memory, fun _ hb => by cases hb; exact ⟨0, rfl⟩⟩
    exact h0.exec_wire (decodeFrames_not_request hd) ht
  next => cases ht; exact .havoc s s.rx
  next n hd =>
    cases ht
    refine ⟨h.memory, fun bytes hb => ⟨n, ?_⟩⟩
    cases hb
    have hf : f = cmdFrame f.value :=
      congrArg (Frame.mk · f.value) (kind_of_decodeFrames_more hd f (by simp))
    rw [List.map_append, List.map_singleton, ← hf]
    exact hd
  next => cases ht; exact .havoc s s.rx

/-- The wire's share of an edge keeps the receiver in order. -/
theorem ReceiverOk.wireEvent (h : ReceiverOk s) (hw : (wireEvent s).finish = .next t) : ReceiverOk t := by
  unfold Machine.wireEvent at hw
  obtain ⟨hcfg, hrx, -⟩ := transportEdge_frame s
  rcases he : Machine.transportEdge s with ⟨u, _ | f⟩ <;> rw [he] at hw hcfg hrx
  · cases hw
    exact ⟨hrx ▸ h.memory, fun bytes hb => hcfg ▸ h.parse bytes (hrx ▸ hb)⟩
  · exact .takeFrame ⟨hrx ▸ h.memory, fun bytes hb => hcfg ▸ h.parse bytes (hrx ▸ hb)⟩ hw

/-- The host's share does not touch the receiver. -/
theorem hostShare_rx {busy : Bool} (h : HostShare busy u t) : t.cfg = u.cfg ∧ t.rx = u.rx := by
  cases h with
  | store => exact ⟨rfl, rfl⟩
  | accept i l => exact ⟨accept_cfg u l, accept_rx u l⟩

theorem ReceiverOk.hostShare {busy : Bool} (h : ReceiverOk u) (hs : HostShare busy u t) : ReceiverOk t := by
  obtain ⟨hcfg, hrx⟩ := hostShare_rx hs
  exact ⟨hrx ▸ h.memory, fun bytes hb => hcfg ▸ h.parse bytes (hrx ▸ hb)⟩

theorem ReceiverOk.reset (h : ReceiverOk s) : ReceiverOk (resetBlock s) := by
  cases hf : s.frameOnWire with
  | true => exact ⟨by simp [hf, wf_havoc], by simp [hf, Receiver.havoc, Receiver.unknown]⟩
  | false => exact ⟨by simpa [hf] using h.memory, by simpa [hf] using h.parse⟩

/-! ### The step -/

/-- Settles O51: reset gives a block in order, and out of reset each of the two shares keeps it so. -/
theorem stepKeepsInv : Obligations.StepKeepsInv := by
  intro s t h hstep
  have hrx : ReceiverOk s.presented := ⟨h.receiver.memory, h.receiver.parse⟩
  rcases step_cases hstep with ⟨-, rfl⟩ | ⟨hr, -⟩
  · obtain ⟨he, hp, hk⟩ := BlockOk.reset s.presented
    exact ⟨he, hp, hk, hrx.reset⟩
  · obtain ⟨r, hw, hs⟩ := step_shares hr hstep
    have hu : BlockOk (s.afterWire r) := h.block.transportEdge.of_eq rfl rfl rfl rfl rfl rfl rfl fun _ => rfl
    obtain ⟨he, hp, hk⟩ := hu.hostShare (transportEdge_busy s) hs
    exact ⟨he, hp, hk, (hrx.wireEvent hw).hostShare hs⟩

/-- Settles O52: the reset state is itself a reset block, with nothing known of the receiver. -/
theorem resetInv : Obligations.ResetInv := by
  have hreset : resetBlock State.reset = State.reset := rfl
  obtain ⟨he, hp, hk⟩ := hreset ▸ BlockOk.reset State.reset
  exact ⟨he, hp, hk, wf_havoc (Receiver.unknown 0), fun _ h => by cases h⟩

end Sys2Proof.Machine

/-! ## What a step changes, and when

The configuration, the operands of a running request, the frame position, the trace, INIT_DONE with the note of the panel,
and WIN_VALID with CURWIN: what the transport's edge does to each, and then what the host's share does. -/

namespace Sys2Proof.Machine

variable {s t u : State}

/-! ### The transport's edge -/

/-- An edge of the transport leaves INIT_DONE, or an INIT ends with it (R167). -/
theorem transportEdge_initDone (s : State) :
    (transportEdge s).1.regs.initDone = s.regs.initDone
      ∨ (s.eng.curOp = some .init ∧ (transportEdge s).1.regs.initDone = true
        ∧ (transportEdge s).1.eng.curOp = none) := by
  rcases transportEdge_engine s with ⟨-, -, hi⟩ | ⟨-, e⟩
  · exact .inl hi
  · rcases afterRelease_cases s with ⟨f, -, e'⟩ | ⟨-, e'⟩ <;> rw [e, e']
    · exact .inl rfl
    · by_cases hi : s.eng.curOp = some .init
      · exact .inr ⟨hi, if_pos hi, rfl⟩
      · exact .inl (if_neg hi)

/-- An edge of the transport leaves the frame position, or takes the next frame as one has been released (R148). -/
theorem transportEdge_pos (s : State) :
    (transportEdge s).1.eng.pos = s.eng.pos
      ∨ ((transportEdge s).1.eng.pos = s.eng.pos + 1 ∧ s.tx.tstate = .rel ∧ s.eng.pos < s.eng.frames.length) := by
  rcases transportEdge_engine s with ⟨he, -⟩ | ⟨ht, e⟩
  · exact .inl (congrArg Engine.pos he)
  · rcases afterRelease_cases s with ⟨f, hf, e'⟩ | ⟨-, e'⟩ <;> rw [e, e']
    · exact .inr ⟨rfl, ht, (List.getElem?_eq_some_iff.1 hf).1⟩
    · exact .inl rfl

/-- An edge of the transport leaves the trace and TXCOUNT, or releases a frame and counts it (R131, R145). -/
theorem transportEdge_trace (s : State) :
    ((transportEdge s).1.trace = s.trace ∧ (transportEdge s).1.regs.txcount = s.regs.txcount)
      ∨ ((transportEdge s).1.trace = s.trace ++ [⟨s.tx.fk, s.tx.sh⟩]
        ∧ (transportEdge s).1.regs.txcount = s.regs.txcount + 1#32
        ∧ (s.tx.tstate = .shift ∨ s.tx.tstate = .settle) ∧ (transportEdge s).1.pins.csN = true) := by
  rcases transportEdge_cases s with ⟨-, e⟩ | ⟨-, e⟩ | ⟨-, -, e⟩ | ⟨-, -, -, e⟩ | ⟨ht, -, -, e⟩ | ⟨ht, e⟩ | ⟨-, e⟩ <;> rw [e]
  · exact .inl ⟨rfl, rfl⟩
  · exact .inl ⟨rfl, rfl⟩
  · exact .inl ⟨rfl, rfl⟩
  · exact .inl ⟨rfl, rfl⟩
  · rcases endShift_cases s with ⟨-, e⟩ | ⟨-, e⟩ <;> rw [e]
    · exact .inr ⟨rfl, rfl, .inl ht, rfl⟩
    · exact .inl ⟨rfl, rfl⟩
  · unfold settleEdge
    split
    · exact .inr ⟨rfl, rfl, .inr ht, rfl⟩
    · exact .inl ⟨rfl, rfl⟩
  · rcases afterRelease_cases s with ⟨f, -, e⟩ | ⟨-, e⟩ <;> rw [e] <;> exact .inl ⟨rfl, rfl⟩

/-! ### The host's share -/

/-- While BUSY the host's share writes the error bits alone. -/
theorem hostShare_busy (h : HostShare true u t) : ∃ b, t = { u with regs := { u.regs with err := b } } := by
  cases h with
  | store r _ _ _ _ held => exact ⟨r.err, by rw [held rfl]⟩
  | accept _ _ idle => cases idle

/-- The host's share leaves the trace, TXCOUNT and the panel's note, and `cs_n`. -/
theorem hostShare_trace {busy : Bool} (h : HostShare busy u t) :
    t.trace = u.trace ∧ t.regs.txcount = u.regs.txcount ∧ t.panel = u.panel ∧ t.pins.csN = u.pins.csN := by
  cases h with
  | store r _ _ _ hc => exact ⟨rfl, hc, rfl, rfl⟩
  | accept i l _ plan =>
    obtain ⟨f, fs, hf⟩ := List.exists_cons_of_ne_nil (requestPlan_frames_ne_nil plan)
    rw [accept_cons hf]
    exact ⟨rfl, noteLaunch_txcount u.regs l, rfl, rfl⟩

/-- A step of a busy block out of reset is the transport's edge, but for the error bits, the receiver and the host. -/
theorem step_busy (hb : s.busy = true) (hr : s.inputs.rst = false) (h : step s = .next t) :
    ∃ r b, t = { s.afterWire r with regs := { (s.afterWire r).regs with err := b } } := by
  obtain ⟨r, -, hs⟩ := step_shares hr h
  rw [hb] at hs
  obtain ⟨b, rfl⟩ := hostShare_busy hs
  exact ⟨r, b, rfl⟩

/-! ### Constants, operands and position -/

/-- Settles O53: reset, the transport's edge and the host's share each keep it. -/
theorem stepKeepsConfiguration : Obligations.StepKeepsConfiguration := by
  intro s t h
  rcases step_cases h with ⟨-, rfl⟩ | ⟨hr, -⟩
  · rfl
  · obtain ⟨r, -, hs⟩ := step_shares hr h
    exact (hostShare_rx hs).1.trans (transportEdge_frame s).1

/-- Settles O54: neither the transport's edge nor a refused host write touches an operand. -/
theorem operandsHeldWhileBusy : Obligations.OperandsHeldWhileBusy := by
  intro s t hb hr h
  obtain ⟨r, b, rfl⟩ := step_busy hb hr h
  obtain ⟨-, -, -, hframes, hwin, hcurwin, hsettle, htb, -⟩ := transportEdge_frame s
  exact ⟨hwin, hsettle, htb, hcurwin, hframes⟩

/-- Settles O55: only the edge out of T_REL moves `pos`, and only while a frame is left. -/
theorem positionAdvances : Obligations.PositionAdvances := by
  intro s t hinv hb hr h
  obtain ⟨r, b, rfl⟩ := step_busy hb hr h
  have hframes : (transportEdge s).1.eng.frames = s.eng.frames := (transportEdge_frame s).2.2.2.1
  obtain ⟨-, hle⟩ := hinv.engine.pos hb
  change ((transportEdge s).1.eng.pos = _ ∨ (transportEdge s).1.eng.pos = _ ∧ _)
    ∧ (transportEdge s).1.eng.pos ≤ (transportEdge s).1.eng.frames.length
  rw [hframes]
  rcases transportEdge_pos s with hp | ⟨hp, ht, hlt⟩
  · exact ⟨.inl hp, hp ▸ hle⟩
  · exact ⟨.inr ⟨hp, ht⟩, hp ▸ hlt⟩

/-- Settles O57: a frame enters the trace only as the transport releases it. -/
theorem traceAppends : Obligations.TraceAppends := by
  intro s t hinv hr h
  obtain ⟨r, -, hs⟩ := step_shares hr h
  obtain ⟨htrace, hcount, -, hcs⟩ := hostShare_trace hs
  rw [htrace, hcount, hcs]
  rcases transportEdge_trace s with he | ⟨he, hc, ht, hrel⟩
  · exact .inl he
  · refine .inr ⟨he, hc, ?_, hrel⟩
    rw [← Bool.not_eq_true, hinv.pins.csN]
    rcases ht with ht | ht <;> simp [ht]

/-! ### INIT_DONE and the panel's note -/

theorem frameOnWire_iff (s : State) :
    s.frameOnWire = true ↔ s.tx.tstate = .dc ∨ s.tx.tstate = .shift ∨ s.tx.tstate = .settle := by
  unfold State.frameOnWire
  cases s.tx.tstate <;> simp

/-- The host's share leaves INIT_DONE, or accepts an INIT, which clears it. -/
theorem hostShare_initDone {busy : Bool} (h : HostShare busy u t) :
    t.regs.initDone = u.regs.initDone
      ∨ (busy = false ∧ t.regs.initDone = false ∧ t.eng.curOp = some .init) := by
  cases h with
  | store r _ hi => exact .inl hi
  | accept i l idle =>
    rw [accept_regs, noteLaunch_initDone, (accept_eng u l).1]
    by_cases hop : l.op = .init
    · exact .inr ⟨idle, by simp [hop], by rw [hop]⟩
    · exact .inl (by simp [hop])

/-- Out of reset the note of the panel stays, or an INIT ends and the panel is ready. -/
theorem step_panel (hr : s.inputs.rst = false) (h : step s = .next t) :
    t.panel = s.panel ∨ (s.eng.curOp = some .init ∧ t.panel = .ready ∧ t.busy = false ∧ t.regs.initDone = true) := by
  obtain ⟨r, -, hs⟩ := step_shares hr h
  rcases transportEdge_panel s with hp | ⟨hop, hp, hd, hn⟩
  · exact .inl ((hostShare_trace hs).2.2.1.trans hp)
  · rw [show s.busy = true by simp [State.busy, hop]] at hs
    obtain ⟨b, rfl⟩ := hostShare_busy hs
    exact .inr ⟨hop, hp, (busy_eq_false_iff _).2 hn, hd⟩

/-- Settles O25: out of reset by `step_panel` and the two shares' effect on INIT_DONE, at a reset by the note's cases. -/
theorem initDoneChanges : Obligations.InitDoneChanges := by
  refine ⟨fun s t hr h hne => ?_, fun s t h => ?_⟩
  · obtain ⟨r, -, hs⟩ := step_shares hr h
    rcases hostShare_initDone hs with ht | ⟨hb, hd, hop⟩
    · rcases transportEdge_initDone s with hu | ⟨hop, hu, hn⟩
      · exact absurd (ht.trans hu) hne
      · rw [show s.busy = true by simp [State.busy, hop]] at hs
        obtain ⟨b, rfl⟩ := hostShare_busy hs
        exact .inr ⟨hu, hop, (busy_eq_false_iff _).2 hn⟩
    · exact .inl ⟨hd, hb, hop⟩
  · rcases step_cases h with ⟨hr, rfl⟩ | ⟨hr, -⟩
    · rw [resetBlock_panel]
      rcases noteAfterReset_cases s.presented with ⟨hf, hn⟩ | ⟨-, hp, hset, hn⟩ | ⟨-, hset, hn⟩ <;> rw [hn]
      · have hf := (frameOnWire_iff s).1 hf
        exact ⟨by simp, fun _ _ => ⟨hr, by tauto⟩, fun _ _ => ⟨hr, hf⟩, fun _ => .inl rfl⟩
      · exact ⟨by simp, fun _ _ => ⟨hr, .inr (.inr (.inr hset))⟩, by simp, fun hc => by cases hp.symm.trans hc⟩
      · exact ⟨fun h1 h2 => absurd h1 h2, fun h1 h2 => absurd h1 h2, fun h1 h2 => absurd h1 h2, .inl⟩
    · rcases step_panel hr h with hp | ⟨hop, hp, hb, hd⟩ <;> rw [hp]
      · exact ⟨fun h1 h2 => absurd h1 h2, fun h1 h2 => absurd h1 h2, fun h1 h2 => absurd h1 h2, .inl⟩
      · exact ⟨fun _ _ => ⟨hr, hop, hb, hd⟩, by simp, by simp, fun _ => .inr rfl⟩

/-! ### WIN_VALID and CURWIN -/

/-- The host's share leaves WIN_VALID and CURWIN, or accepts a raw command frame, which forgets the window, or accepts a
request that records its own. -/
theorem hostShare_window {busy : Bool} (h : HostShare busy u t) :
    (t.regs.winValid = u.regs.winValid ∧ t.regs.curwin = u.regs.curwin)
    ∨ (busy = false ∧ t.regs.winValid = false ∧ t.regs.curwin = u.regs.curwin ∧ t.eng.curOp = some .writeByte
      ∧ ∃ v, t.eng.frames = [⟨.command, v⟩])
    ∨ (busy = false ∧ t.regs.winValid = true
      ∧ (t.eng.curOp = some .init ∨ t.eng.curOp = some .setWindow ∨ t.eng.curOp = some .drawText)) := by
  cases h with
  | store r hv _ hw => exact .inl ⟨hv, hw⟩
  | accept i l idle plan =>
    obtain ⟨hop, hfs⟩ := accept_eng u l
    rw [accept_regs, hop, hfs]
    rcases requestPlan_start plan with ⟨v, rfl⟩ | ⟨v, rfl⟩ | ⟨-, ⟨w, hw⟩, hl⟩
    · exact .inr (.inl ⟨idle, rfl, rfl, rfl, v, rfl⟩)
    · exact .inl ⟨rfl, rfl⟩
    · exact .inr (.inr ⟨idle, (noteLaunch_record hw).1, by simpa using hl⟩)

/-- Settles O26: the transport's edge leaves both registers, and the host's share changes them by `hostShare_window`. -/
theorem windowNoteChanges : Obligations.WindowNoteChanges := by
  intro s t hr h
  obtain ⟨r, -, hs⟩ := step_shares hr h
  obtain ⟨-, -, -, -, -, hcurwin, -, -, -, hvalid⟩ := transportEdge_frame s
  have hv : (s.afterWire r).regs.winValid = s.regs.winValid := hvalid
  have hw : (s.afterWire r).regs.curwin = s.regs.curwin := hcurwin
  rcases hostShare_window hs with ⟨h1, h2⟩ | ⟨hb, h1, h2, hop, hf⟩ | ⟨hb, h1, hop⟩ <;> rw [h1]
  · rw [h2, hv, hw]
    exact ⟨fun h1 h2 => by simp [h1] at h2, by simp⟩
  · rw [h2, hw]
    exact ⟨fun _ _ => ⟨hb, hop, hf⟩, by simp⟩
  · exact ⟨by simp, fun _ => ⟨hb, rfl, hop⟩⟩

end Sys2Proof.Machine

/-! ## A request to its end

`State.cyclesLeft` counts the cycles until the block is at rest, and every step of a busy block takes one off it;
`State.unsent` lists the frames not yet in the trace, and no step changes the trace followed by it. -/

namespace Sys2Proof.Machine

variable {s t u : State}

/-- The cycles until the frame on the transport has been released and its release cycle is over (R147). -/
def State.frameCyclesLeft (s : State) : Nat :=
  match s.tx.tstate with
  | .idle => 0
  | .dc => 18 + s.regs.settle.toNat
  | .shift => 2 * s.tx.nb.val + (if s.tx.ph = .lo then 2 else 1) + s.regs.settle.toNat + 1
  | .settle => s.tx.sc.toNat + 1
  | .rel => 1

/-- The cycles until the block is at rest: those of the frame on the transport, and 18 + SETTLE for each frame after it. -/
def State.cyclesLeft (s : State) : Nat :=
  if s.busy then s.frameCyclesLeft + (s.eng.frames.length - s.eng.pos) * (18 + s.regs.settle.toNat) else 0

/-- The frames of the running request that are not in the trace yet. -/
def State.unsent (s : State) : List Frame := if s.busy then s.eng.frames.drop s.completed else []

/-- An INIT runs, or one has completed. -/
def State.initDue (s : State) : Prop := s.eng.curOp = some .init ∨ (s.regs.initDone = true ∧ s.panel = .ready)

/-- From `s` to `u` a cycle has passed, and the frames sent and to be sent are the same. -/
structure Advances (s u : State) : Prop where
  cycles : u.cyclesLeft + 1 = s.cyclesLeft
  frames : u.trace ++ u.unsent = s.trace ++ s.unsent

theorem cyclesLeft_busy (h : s.busy = true) :
    s.cyclesLeft = s.frameCyclesLeft + (s.eng.frames.length - s.eng.pos) * (18 + s.regs.settle.toNat) := by
  simp [State.cyclesLeft, h]

theorem cyclesLeft_idle (h : s.busy = false) : s.cyclesLeft = 0 := by simp [State.cyclesLeft, h]

theorem unsent_busy (h : s.busy = true) : s.unsent = s.eng.frames.drop s.completed := by simp [State.unsent, h]

theorem unsent_idle (h : s.busy = false) : s.unsent = [] := by simp [State.unsent, h]

/-! ### The transport's operations -/

/-- An operation within a frame advances if it takes one cycle off the frame. -/
theorem advances_of_frameCyclesLeft (hb : s.busy = true) (heng : u.eng = s.eng) (hs : u.regs.settle = s.regs.settle)
    (htrace : u.trace = s.trace) (hw : u.frameOnWire = s.frameOnWire)
    (hc : u.frameCyclesLeft + 1 = s.frameCyclesLeft) : Advances s u := by
  have hbu : u.busy = true := by rw [State.busy, heng]; exact hb
  refine ⟨?_, ?_⟩
  · rw [cyclesLeft_busy hb, cyclesLeft_busy hbu, heng, hs]; omega
  · rw [unsent_busy hb, unsent_busy hbu, State.completed, State.completed, heng, htrace, hw]

/-- A release puts the frame on the transport, the first of the unsent ones, into the trace. -/
theorem release_advances (he : EngineOk s) (hb : s.busy = true) (hw : s.frameOnWire = true)
    (hc : s.frameCyclesLeft = 2) : Advances s (release s).1 := by
  have hbu : (release s).1.busy = true := hb
  refine ⟨?_, ?_⟩
  · rw [cyclesLeft_busy hb, cyclesLeft_busy hbu, hc]
    simp only [State.frameCyclesLeft, release_tx, release_eng, release_regs]
    omega
  · obtain ⟨h1, -⟩ := he.pos hb
    obtain ⟨hlt, hf⟩ := List.getElem?_eq_some_iff.1 (he.current hb)
    rw [unsent_busy hb, unsent_busy hbu, State.completed, State.completed, hw, if_pos rfl,
      List.drop_eq_getElem_cons hlt, hf, Nat.sub_add_cancel h1]
    simp [State.frameOnWire]

/-- The edge out of T_REL: the next frame is handed over, or none is left. -/
theorem afterRelease_advances (hb : s.busy = true) (ht : s.tx.tstate = .rel) :
    Advances s (afterRelease s) := by
  have hcs : s.frameCyclesLeft = 1 := by simp [State.frameCyclesLeft, ht]
  have hus : s.unsent = s.eng.frames.drop s.eng.pos := by simp [unsent_busy hb, State.completed, State.frameOnWire, ht]
  rcases afterRelease_cases s with ⟨f, hf, e⟩ | ⟨hle, e⟩ <;> rw [e]
  · have hlt : s.eng.pos < s.eng.frames.length := (List.getElem?_eq_some_iff.1 hf).1
    obtain ⟨n, hn⟩ : ∃ n, s.eng.frames.length - s.eng.pos = n + 1 := ⟨_, (Nat.succ_pred (by omega)).symm⟩
    have hn' : s.eng.frames.length - (s.eng.pos + 1) = n := by omega
    have hbu : (offer f { s with eng := { s.eng with pos := s.eng.pos + 1 } }).busy = true := hb
    refine ⟨?_, ?_⟩
    · rw [cyclesLeft_busy hb, cyclesLeft_busy hbu, hcs, hn, Nat.succ_mul]
      simp only [State.frameCyclesLeft, offer_tx, offer_regs, offer_eng, hn']
      omega
    · rw [hus, unsent_busy hbu]
      simp [State.completed, State.frameOnWire]
  · refine ⟨?_, ?_⟩
    · rw [cyclesLeft_busy hb, hcs, Nat.sub_eq_zero_of_le hle, Nat.zero_mul]
      rfl
    · rw [hus, List.drop_eq_nil_of_le hle]
      rfl

/-- Every edge of the transport of a busy block advances. -/
theorem transportEdge_advances (h : BlockOk s) (hb : s.busy = true) : Advances s (transportEdge s).1 := by
  have hidle := h.busy_iff.1 hb
  obtain ⟨he, hp, hk⟩ := h
  rcases transportEdge_cases s with ⟨ht, e⟩ | ⟨ht, e⟩ | ⟨ht, hph, e⟩ | ⟨ht, hph, hn, e⟩ | ⟨ht, hph, hn, e⟩ | ⟨ht, e⟩ |
    ⟨ht, e⟩ <;> rw [e]
  · exact absurd ht hidle
  · refine advances_of_frameCyclesLeft hb rfl rfl rfl (by simp [State.frameOnWire, ht]) ?_
    simp only [State.frameCyclesLeft, startShift_tx, startShift_regs, ht, (hk.select ht).1, if_true]
    omega
  · refine advances_of_frameCyclesLeft hb rfl rfl rfl rfl ?_
    simp only [State.frameCyclesLeft, clockHigh_tx, clockHigh_regs, ht, hph, reduceCtorEq, if_true, if_false]
    omega
  · refine advances_of_frameCyclesLeft hb rfl rfl rfl rfl ?_
    simp only [State.frameCyclesLeft, nextBit_tx, nextBit_regs, ht, hph, reduceCtorEq, if_true, if_false]
    omega
  · rcases endShift_cases s with ⟨h0, e'⟩ | ⟨h0, e'⟩ <;> rw [e']
    · have ha : Advances { s with pins := { s.pins with sclk := false } } _ :=
        release_advances (he.of_eq rfl rfl rfl rfl) hb (by simp [State.frameOnWire, ht])
          (by simp [State.frameCyclesLeft, ht, hph, hn, h0])
      exact ⟨ha.cycles, ha.frames⟩
    · refine advances_of_frameCyclesLeft hb rfl rfl rfl (by simp [State.frameOnWire, ht]) ?_
      simp only [State.frameCyclesLeft, ht, hph, hn, reduceCtorEq, if_false]
      omega
  · unfold settleEdge
    split
    next h1 => exact release_advances he hb (by simp [State.frameOnWire, ht]) (by simp [State.frameCyclesLeft, ht, h1])
    next h1 =>
      refine advances_of_frameCyclesLeft hb rfl rfl rfl rfl ?_
      have hlo := (hk.settle ht).1
      simp only [State.frameCyclesLeft, ht, toNat_sub_one hlo]
      omega
  · exact afterRelease_advances hb ht

/-- An edge of the transport never loses an INIT: it goes on or completes. -/
theorem transportEdge_initDue (h : s.initDue) : (transportEdge s).1.initDue := by
  rcases transportEdge_engine s with ⟨he, hp, hi⟩ | ⟨-, e⟩
  · rw [State.initDue, he, hp, hi]; exact h
  · rcases afterRelease_cases s with ⟨f, -, e'⟩ | ⟨-, e'⟩ <;> rw [e, e']
    · exact h
    · rcases h with hop | ⟨hd, hp⟩
      · exact .inr ⟨if_pos hop, if_pos hop⟩
      · exact .inr ⟨by simp [hd], by simp [hp]⟩

/-! ### Steps and runs -/

/-- A step of a busy block, no reset ahead, advances, whatever the host does in it. -/
theorem step_advances (h : Inv s) (hb : s.busy = true) (hn : s.noResetAhead) :
    ∃ t, step s = .next t ∧ Inv t ∧ t.noResetAhead ∧ Advances s t ∧ (s.initDue → t.initDue) := by
  obtain ⟨b, r, hs⟩ := busy_step hn hb
  have ha := transportEdge_advances h.block hb
  exact ⟨_, hs, stepKeepsInv s _ h hs, noResetAhead_retire hn rfl, ⟨ha.cycles, ha.frames⟩, transportEdge_initDue⟩

theorem cyclesLeft_pos (h : BlockOk s) (hb : s.busy = true) : 0 < s.cyclesLeft := by
  rw [cyclesLeft_busy hb, State.frameCyclesLeft]
  cases ht : s.tx.tstate with
  | idle => exact absurd ht (h.busy_iff.1 hb)
  | _ => simp only []; omega

/-- The block is busy for the cycles left and then at rest, the unsent frames in the trace. -/
theorem run_cyclesLeft (k : Nat) (s : State) (h : Inv s) (hn : s.noResetAhead) (hk : s.cyclesLeft = k) :
    (∀ m, m < k → ∃ u, Sys2Proof.core.run m s = .next u ∧ State.busy u = true)
      ∧ ∃ t : State, Sys2Proof.core.run k s = .next t ∧ Inv t ∧ t.atRest ∧ t.trace = s.trace ++ s.unsent
        ∧ (s.initDue → t.initDue) := by
  induction k generalizing s with
  | zero =>
    have hb : s.busy = false := by
      rw [← Bool.not_eq_true]
      exact fun hb => absurd (cyclesLeft_pos h.block hb) (by omega)
    have hi : s.tx.tstate = .idle := h.engine.idle.1 ((busy_eq_false_iff s).1 hb)
    exact ⟨fun m hm => by omega, s, rfl, h, ⟨hb, hi⟩, by simp [unsent_idle hb], id⟩
  | succ k ih =>
    have hb : s.busy = true := by
      rw [← Bool.not_eq_false]
      exact fun hb => by simp [cyclesLeft_idle hb] at hk
    obtain ⟨t, hs, ht, hnt, ha, hi⟩ := step_advances h hb hn
    have hc := ha.cycles
    obtain ⟨hbusy, v, hv, hinv, hrest, htrace, hdue⟩ := ih t ht hnt (by omega)
    refine ⟨fun m hm => ?_, v, (core_run_succ k hs).trans hv, hinv, hrest, htrace.trans ha.frames, hdue ∘ hi⟩
    cases m with
    | zero => exact ⟨s, rfl, hb⟩
    | succ m =>
      obtain ⟨w, hw, hbw⟩ := hbusy m (by omega)
      exact ⟨w, (core_run_succ m hs).trans hw, hbw⟩

/-- Settles O46: from the first frame's select cycle all frames are unsent and `n · (18 + SETTLE)` cycles are left. -/
theorem requestSendsItsFrames : Obligations.RequestSendsItsFrames := by
  intro s h ht hpos hn
  have hb : s.busy = true := h.block.busy_iff.2 (by simp [ht])
  obtain ⟨-, hle⟩ := h.engine.pos hb
  have hcycles : s.cyclesLeft = s.eng.frames.length * (18 + s.regs.settle.toNat) := by
    obtain ⟨n, hn⟩ : ∃ n, s.eng.frames.length = n + 1 := ⟨_, (Nat.succ_pred (by omega)).symm⟩
    simp [cyclesLeft_busy hb, State.frameCyclesLeft, ht, hn, hpos, Nat.succ_mul, Nat.add_comm]
  have hunsent : s.unsent = s.eng.frames := by
    simp [unsent_busy hb, State.completed, State.frameOnWire, ht, hpos]
  obtain ⟨hbusy, t, hrun, hinv, hrest, htrace, hdue⟩ := run_cyclesLeft _ s h hn hcycles
  rw [hunsent] at htrace
  refine ⟨hbusy, t, hrun, hrest, htrace, ?_, fun hi => ?_⟩
  · rw [hinv.counters.txcount, h.counters.txcount, htrace, List.length_append, BitVec.ofNat_add]
  · exact (hdue (.inl hi)).resolve_left (by simp [(busy_eq_false_iff t).1 hrest.1])

end Sys2Proof.Machine

/-! ## Requests and host writes at rest

At rest a step is the host's share alone (`step_atRest`), so each statement here is about what one host write comes to. -/

namespace Sys2Proof.Machine

variable {s t u : State}

/-! ### The requests -/

/-- Settles O10, by the kind of the frame. -/
theorem writeByteAccepted : Obligations.WriteByteAccepted := by
  intro v k s hb
  have he : exec (.writeByte v k) s = .next (perform (planWriteByte v k) s) := rfl
  cases k <;> rw [he, planWriteByte, perform_start s _ hb] <;> rfl

/-- A legal power-up sequence begins with display-off (R161, R162). -/
theorem initRom_eq_cons {cfg : Params} (h : cfg.initRomOk = true) : ∃ rest, cfg.initRom = cfg.opc.dispoff :: rest := by
  unfold Params.initRomOk Opcodes.powerUpSteps at h
  cases hr : cfg.initRom with
  | nil => rw [hr] at h; cases h
  | cons v rest =>
    rw [hr] at h
    simp only [followsSteps, Bool.and_eq_true, List.contains_cons, List.contains_nil, Bool.or_false, beq_iff_eq] at h
    exact ⟨rest, by rw [h.1.1]⟩

/-- Settles O11: the plan of INIT started, its first frame the display-off of a legal `INIT_ROM`. -/
theorem initAccepted : Obligations.InitAccepted := by
  intro s hb hok
  obtain ⟨rest, hrom⟩ := initRom_eq_cons hok
  have he : exec .init s = .next (perform (planInit s.cfg) s) := by simp [exec, execInit, hok]
  rw [he, planInit, perform_start s _ hb, accept, initFrames, hrom]
  rfl

/-! ### The checks of a host write -/

/-- A request word written to REQ of an idle block (R229). -/
theorem hostWrite_req {w : Word} {i : Instr} (h : decodeRequest w = .ok i) :
    hostWrite false Offset.req 2#2 w = .request i := by
  simp [hostWrite, aligned, Offset.req, h]

/-- A word written to TEXTBUFw of an idle block (R33). -/
theorem hostWrite_textbuf (w : Fin 8) (v : Word) : hostWrite false (Offset.textbuf w.val) 2#2 v = .setText w v := by
  fin_cases w <;> rfl

/-- What an idle block makes of a word write. -/
theorem hostAction_writeWord (busy : Bool) (off : BitVec 6) (v : Word) :
    hostAction busy (.writeWord off v) = hostWrite busy off 2#2 v := rfl

/-! ### The step -/

/-- Settles O7: at rest the step is the host's share, and a request word at REQ is the request it decodes to. -/
theorem stepRunsRequest : Obligations.StepRunsRequest := by
  intro s w i op rest h hp hin hd
  have hi : s.inputs = .writeWord Offset.req w := by rw [State.inputs, hp]; exact hin
  have hret : s.retire = ⟨rest, s.host.vars, none⟩ := by
    rw [retire_write (by rw [hi]; rfl) (by rw [hi]; rfl), hp]; rfl
  rw [step_atRest h (by rw [hi]; rfl), hi, hostAction_writeWord, hostWrite_req hd, State.presented, hret]
  rfl

/-- The view of a block at rest after a write of the registers alone. -/
theorem txn_regs (r : Regs) (s : State) : ({ s with regs := r } : State).txn = { s.txn with regs := r } := rfl

/-- The view of an accepted request: `pos` 0, its first frame being on the wire. -/
theorem txn_accept {l : Launch} (hl : l.frames ≠ []) (s : State) : (accept l s).txn = s.txn.accept l := by
  obtain ⟨f, fs, hf⟩ := List.exists_cons_of_ne_nil hl
  rw [accept_cons hf]
  simp [State.txn, State.completed, State.frameOnWire, Dpe.accept, hf]

/-- A write that is no request does to the view what it does to the registers. -/
theorem txn_hostWrite_store {d : Dpe} {addr : BitVec 6} {size : BitVec 2} {v : Word}
    (h : ∀ i, hostWrite d.busy addr size v ≠ .request i) (cfg : Params) :
    d.hostWrite cfg addr size v = some { d with regs := (hostWrite d.busy addr size v).onRegs d.regs } := by
  unfold Dpe.hostWrite
  split
  next i hi => exact absurd hi (h i)
  next => rfl

/-- A request at an idle block in the view: its plan is rejected with an error or started. -/
theorem txn_perform {p : Plan} (hb : s.busy = false) (hp : ∀ l, p = .start l → l.frames ≠ []) :
    (perform p s).txn = s.txn.perform p := by
  cases p with
  | reject e => rw [perform_reject s e hb]; rfl
  | start l => rw [perform_start s l hb]; exact txn_accept (hp l rfl) s

/-- Settles O47: both levels come to the same action; a store writes the same registers, and a request has the same plan. -/
theorem hostWriteIsTransaction : Obligations.HostWriteIsTransaction := by
  intro s t _ hrest hr hsel hwe h
  have hb : s.presented.busy = false := hrest.1
  have hbt : s.txn.busy = false := hrest.1
  have ha : hostAction false s.inputs = hostWrite false s.inputs.addr s.inputs.size s.inputs.wdata := by
    simp [hostAction, hsel, hwe]
  rw [step_atRest hrest hr] at h
  by_cases hq : ∃ i, hostAction false s.inputs = .request i
  · obtain ⟨i, hi⟩ := hq
    obtain ⟨-, hd, -, -⟩ := hostAction_request hi
    rw [hi] at h
    obtain ⟨p, hp, rfl⟩ := exec_request (isRequest_of_decodeRequest hd) hb h
    rw [txn_perform hb fun l hl => requestPlan_frames_ne_nil (hl ▸ hp), Dpe.hostWrite, hbt, ← ha, hi]
    exact congrArg (Option.map fun plan => s.txn.perform plan) hp
  · have hn : ∀ i, hostAction false s.inputs ≠ .request i := fun i hi => hq ⟨i, hi⟩
    rw [event_regs _ _ hn] at h
    cases h
    rw [txn_hostWrite_store (by rw [hbt, ← ha]; exact hn), hbt, ← ha, txn_regs]
    rfl

/-! ### The text buffer -/

/-- A write of TEXTBUFw, cell by cell (R33). -/
theorem getD_setTextWord (tb : Vector Byte 32) (w : Fin 8) (v : Word) (k : Nat) :
    (setTextWord tb w v).toList.getD k 0#8 =
      if 4 * w.val ≤ k ∧ k < 4 * w.val + 4 then byteLane v (k - 4 * w.val) else tb.toList.getD k 0#8 := by
  have hw : 4 * w.val + 4 ≤ 32 := by omega
  have hlen : tb.toList.length = 32 := by simp
  simp only [setTextWord, Vector.toList_set, List.getD_eq_getElem?_getD, List.getElem?_set, List.length_set, hlen]
  by_cases hk : 4 * w.val ≤ k ∧ k < 4 * w.val + 4
  · rw [if_pos hk]
    obtain ⟨b, rfl⟩ := Nat.exists_eq_add_of_le hk.1
    have hb : b < 4 := by omega
    rw [Nat.add_sub_cancel_left]
    have h32 : 4 * w.val + b < 32 := by omega
    have h0 : 4 * w.val < 32 := by omega
    interval_cases b <;> simp [h32, h0]
  · rw [if_neg hk, if_neg (by omega), if_neg (by omega), if_neg (by omega), if_neg (by omega)]


/-- A step at rest that writes TEXTBUFw. -/
theorem step_textbuf (h : s.atRest) (w : Fin 8) (v : Word) (hi : s.inputs = .writeWord (Offset.textbuf w.val) v) :
    step s = .next { s.presented with regs := { s.regs with tb := setTextWord s.regs.tb w v } } := by
  rw [step_atRest h (by rw [hi]; rfl), hi, hostAction_writeWord, hostWrite_textbuf]
  rfl

/-- Settles O32: the step is the store, cell by cell `getD_setTextWord`. -/
theorem textBufferStore : Obligations.TextBufferStore := by
  intro s w v h hi
  refine ⟨_, step_textbuf h w v hi, fun b hb => ?_, fun k hk => ?_⟩
  · simp only [getD_setTextWord]
    rw [if_pos (by omega), Nat.add_sub_cancel_left]
  · simp only [getD_setTextWord]
    rw [if_neg (by omega)]

/-! ### The text pseudo-instruction -/

/-- The word w of a run of indices, missing ones as 0 (R114). -/
def filledWord (is : List Byte) (w : Nat) : Word :=
  ofLanes (is.getD (4 * w + 3) 0#8) (is.getD (4 * w + 2) 0#8) (is.getD (4 * w + 1) 0#8) (is.getD (4 * w) 0#8)

/-- The write by which the assembler fills TEXTBUFw. -/
def textWrite (is : List Byte) (w : Nat) : HostOp := .sw (Offset.textbuf w) (filledWord is w)

/-- What the assembler makes of a run of indices: these writes, and the DRAW_TEXT. -/
theorem drawRun_ok {is : List Byte} {x y : Byte} {ops : List HostOp} (h : drawRun is x y = .ok ops) :
    is.length ≤ 32 ∧ ops = (List.range' 0 ((is.length + 3) / 4)).map (textWrite is)
      ++ [.sw Offset.req (ofLanes (BitVec.ofNat 8 is.length) y x 0x04#8)] := by
  unfold drawRun at h
  split at h
  next => cases h
  next hl =>
    cases h
    exact ⟨by omega, by rw [← List.range_eq_range']; rfl⟩

/-- Lane b of a filled word is the index of its cell. -/
theorem byteLane_filledWord (is : List Byte) (w : Nat) {b : Nat} (hb : b < 4) :
    byteLane (filledWord is w) b = is.getD (4 * w + b) 0#8 := by
  interval_cases b
  · exact byteLane_ofLanes_zero ..
  · exact byteLane_ofLanes_one ..
  · exact byteLane_ofLanes_two ..
  · exact byteLane_ofLanes_three ..

/-- The writes of the words from w on, run one after another at rest: their cells hold the indices, and no other cell
changes. -/
theorem run_textWrites (is : List Byte) (rest : List HostOp) (n w : Nat) (s : State) (hw : w + n ≤ 8) (hs : s.atRest)
    (hp : s.host.program = (List.range' w n).map (textWrite is) ++ rest) :
    ∃ t : State, Sys2Proof.core.run n s = .next t ∧ t.host.program = rest ∧ ∀ k, t.regs.tb.toList.getD k 0#8 =
      if 4 * w ≤ k ∧ k < 4 * (w + n) then is.getD k 0#8 else s.regs.tb.toList.getD k 0#8 := by
  induction n generalizing w s with
  | zero => exact ⟨s, rfl, hp, fun k => by rw [if_neg (by omega)]⟩
  | succ n ih =>
    rw [List.range'_succ, List.map_cons, List.cons_append] at hp
    have hi : s.inputs = .writeWord (Offset.textbuf w) (filledWord is w) := by rw [State.inputs, hp]; rfl
    have hret : s.retire.program = (List.range' (w + 1) n).map (textWrite is) ++ rest := by
      rw [retire_write (by rw [hi]; rfl) (by rw [hi]; rfl), hp]; rfl
    obtain ⟨t, hrun, hpt, htb⟩ := ih (w + 1)
      { s.presented with regs := { s.regs with tb := setTextWord s.regs.tb ⟨w, by omega⟩ (filledWord is w) } } (by omega) hs hret
    refine ⟨t, (core_run_succ n (step_textbuf hs ⟨w, by omega⟩ _ hi)).trans hrun, hpt, fun k => ?_⟩
    rw [htb k, getD_setTextWord]
    by_cases h1 : 4 * w ≤ k ∧ k < 4 * w + 4
    · obtain ⟨b, rfl⟩ := Nat.exists_eq_add_of_le h1.1
      rw [if_neg (by omega), if_pos h1, if_pos (by omega), Nat.add_sub_cancel_left, byteLane_filledWord is w (by omega)]
    · rw [if_neg (c := 4 * w ≤ k ∧ k < 4 * w + 4) h1]
      exact if_congr (by omega) rfl rfl

/-- Settles O60: the writes fill the words from 0 on, and beyond the indices a word holds 0. -/
theorem textFillsBuffer : Obligations.TextFillsBuffer := by
  intro is x y ops s hs hd hp
  obtain ⟨hlen, rfl⟩ := drawRun_ok hd
  obtain ⟨t, hrun, hpt, htb⟩ := run_textWrites is _ _ 0 s (by omega) hs hp
  refine ⟨t, hrun, hpt, fun k _ => (htb k).trans ?_⟩
  by_cases h1 : k < is.length
  · rw [if_pos (by omega), if_pos h1]
  · rw [if_neg h1, List.getD_eq_default _ _ (by omega)]
    exact if_congr (by omega) rfl rfl

/-! ### STATUS -/

/-- The bits of STATUS (R23 to R26). -/
theorem getLsbD_statusWord (busy : Bool) (r : Regs) {i : Nat} (hi : i < 32) : (statusWord busy r).getLsbD i =
    match i with
    | 0 => busy
    | 1 => r.winValid
    | 2 => r.initDone
    | 8 => r.err.op
    | 9 => r.err.len
    | 10 => r.err.idx
    | 11 => r.err.busy
    | 12 => r.err.addr
    | _ => false := by
  have hx : ∀ x : BitVec (19 + 1 + 1 + 1 + 1 + 1 + 5 + 1 + 1 + 1), (x : Word).getLsbD i = x.getLsbD i := fun _ => rfl
  rw [statusWord, hx]
  simp only [BitVec.getLsbD_append]
  interval_cases i <;> simp

/-- Settles O23, bit by bit. -/
theorem statusWriteClears : Obligations.StatusWriteClears := by
  refine fun v s => ⟨BitVec.eq_of_getLsbD_eq fun i hi => ?_, rfl⟩
  simp only [BitVec.getLsbD_and, BitVec.getLsbD_not, getLsbD_statusWord _ _ hi, clearErrs_regs, ErrBits.clear, Err.bit]
  interval_cases i <;> simp


/-! ### After reset -/

/-- Settles O48: each register's reset value, read off the definition. -/
theorem resetState : Obligations.ResetState :=
  ⟨rfl, rfl, rfl, rfl, rfl, rfl, rfl, rfl, rfl, rfl, rfl⟩

end Sys2Proof.Machine

/-! ## What a request sends and what it leaves alone

A request comes to its plan (`exec_eq_perform`), and a plan to an error raised or to an acceptance (`perform_cases`). The
frames of an accepted DRAW_TEXT are read off the plan by `planDrawText_start`. -/

namespace Sys2Proof.Machine

variable {s t : State}

/-! ### The frame of a request -/

/-- A request carries out a plan, and only INIT starts an INIT. -/
theorem exec_eq_perform {i : Instr} (hi : isRequest i = true) (h : exec i s = .next t) :
    ∃ p, t = perform p s ∧ ∀ l, p = .start l → l.op = .init → i = .init := by
  cases i with
  | writeByte v k => cases h; exact ⟨_, rfl, fun l hl hop => by cases hl; cases hop⟩
  | setWindow => cases h; exact ⟨_, rfl, fun l hl hop => by cases hl; cases hop⟩
  | init =>
    simp only [exec, execInit] at h
    split at h
    · cases h; exact ⟨_, rfl, fun _ _ _ => rfl⟩
    · cases h
  | drawText x y len =>
    cases h
    refine ⟨_, rfl, fun l hl hop => ?_⟩
    unfold planDrawText at hl
    repeat' split at hl
    all_goals cases hl
    cases hop
  | _ => cases hi

/-- A plan carried out raises an error, or is accepted. -/
theorem perform_cases (p : Plan) (s : State) :
    (∃ e, perform p s = raiseErr e s) ∨ ∃ l, p = .start l ∧ perform p s = accept l s := by
  cases hb : s.busy with
  | true => exact .inl ⟨_, perform_busy s p hb⟩
  | false =>
    cases p with
    | reject e => exact .inl ⟨e, perform_reject s e hb⟩
    | start l => exact .inr ⟨l, rfl, perform_start s l hb⟩

/-- Acceptance writes no pin but `dc`, and not the settle counter. -/
theorem accept_pins (l : Launch) (s : State) :
    (accept l s).pins = { s.pins with dc := (accept l s).pins.dc } ∧ (accept l s).tx.sc = s.tx.sc := by
  unfold accept
  cases l.frames <;> exact ⟨rfl, rfl⟩

/-- Settles O17: an error raised changes the error bits alone, and acceptance none of what is listed. -/
theorem requestsFrame : Obligations.RequestsFrame := by
  intro i s t hi h
  obtain ⟨p, rfl, hinit⟩ := exec_eq_perform hi h
  rcases perform_cases p s with ⟨e, he⟩ | ⟨l, hl, he⟩ <;> rw [he]
  · exact ⟨rfl, rfl, rfl, rfl, rfl, rfl, rfl, rfl, rfl, rfl, rfl, rfl, rfl, fun _ _ => rfl, fun h => absurd rfl h,
      fun _ => rfl⟩
  · obtain ⟨hpins, hsc⟩ := accept_pins l s
    have hdone : i ≠ .init → (accept l s).regs.initDone = s.regs.initDone := fun hne => by
      rw [accept_regs, noteLaunch_initDone, if_neg fun hop => hne (hinit l hl hop)]
    rw [hpins]
    simpa [hsc] using hdone

/-! ### The frames of a DRAW_TEXT -/

/-- The first cells of a list, by their numbers. -/
theorem take_eq_map_range {α : Type} (l : List α) (d : α) {n : Nat} (h : n ≤ l.length) :
    l.take n = (List.range n).map fun k => l.getD k d := by
  refine List.ext_getElem (by simp [h]) fun k hk _ => ?_
  have hk' : k < l.length := by simp at hk; omega
  simp [List.getElem?_eq_getElem hk']

/-- Where every examined cell is an index, the rows drawn are the cells' values (R194). -/
theorem textRun_eq_some {tb : Vector Byte 32} {len : Byte} (h32 : len.toNat ≤ 32)
    (h : ∀ k, k < len.toNat → (tb.toList.getD k 0#8).toNat ≤ 40) :
    ∃ run, textRun tb len = some run
      ∧ run.map Fin.val = (List.range len.toNat).map fun k => (tb.toList.getD k 0#8).toNat := by
  have htake := take_eq_map_range tb.toList 0#8 (n := len.toNat) (by simpa using h32)
  have hcells : ∀ b ∈ tb.toList.take len.toNat, b.toNat ≤ 40 := by
    rw [htake]
    exact List.forall_mem_map.2 fun k hk => h k (List.mem_range.1 hk)
  obtain ⟨run, hrun, hval⟩ := glyphRun_eq_some hcells
  exact ⟨run, hrun, by rw [hval, htake, List.map_map]; rfl⟩

/-- The store holds row i from address `6·i` on (R77). -/
theorem glyphByteAt_row (cfg : Params) (i : Fin 41) (j : Fin 6) :
    glyphByteAt cfg (6 * i.val + j.val) = some (glyphRead cfg i j) := by
  have hi : (6 * i.val + j.val) / 6 = i.val := by omega
  have hj : (6 * i.val + j.val) % 6 = j.val := by omega
  rw [glyphByteAt, dif_pos (by omega)]
  simp only [hi, hj]

/-- The six Data frames from the address of row i on (R77, R196). -/
def glyphFramesAt (cfg : Params) (i : Nat) : List Frame :=
  (List.range 6).map fun j => ⟨.data, (glyphByteAt cfg (6 * i + j)).getD 0#8⟩

/-- The frames of a glyph are those at its row's address. -/
theorem glyphFrames_eq (cfg : Params) (i : Fin 41) : glyphFrames cfg i = glyphFramesAt cfg i.val := by
  rw [glyphFramesAt, ← List.map_coe_finRange_eq_range, List.map_map]
  exact List.map_congr_left fun j _ => by simp [glyphByteAt_row, dataFrame]

/-- The end column of R195, its modulus written out. -/
theorem endColumn_eq (x len : Byte) : endColumn x len = BitVec.ofNat 8 ((x.toNat + 6 * len.toNat - 1) % 256) :=
  BitVec.eq_of_toNat_eq (by simp [endColumn])

/-- A DRAW_TEXT that passes its checks starts with the window of its run (R194, R196). -/
theorem planDrawText_start {cfg : Params} {tb : Vector Byte 32} {x y len : Byte} {run : List (Fin 41)}
    (h1 : 1 ≤ len.toNat) (h32 : len.toNat ≤ 32) (hrun : textRun tb len = some run) :
    planDrawText cfg tb x y len =
      .start ⟨.drawText, drawTextFrames cfg x y len run, .record (windowWord x (endColumn x len) y y)⟩ := by
  rw [planDrawText, if_neg (by omega), hrun]

/-- Settles O14: the plan started, its frames by the addresses in the glyph store. -/
theorem drawTextAccepted : Obligations.DrawTextAccepted := by
  intro x y len s hb h1 h32 hcells
  obtain ⟨run, hrun, hval⟩ := textRun_eq_some h32 hcells
  have hglyphs : run.flatMap (glyphFrames s.cfg) = (List.range len.toNat).flatMap fun k =>
      glyphFramesAt s.cfg (s.regs.tb.toList.getD k 0#8).toNat := by
    rw [funext (glyphFrames_eq s.cfg), ← List.flatMap_map Fin.val (glyphFramesAt s.cfg), hval, List.flatMap_map]
  have he : exec (.drawText x y len) s = .next (perform (planDrawText s.cfg s.regs.tb x y len) s) := rfl
  rw [he, planDrawText_start h1 h32 hrun, perform_start s _ hb, drawTextFrames, hglyphs, endColumn_eq]
  rfl

end Sys2Proof.Machine

/-! ## Host reads, and accesses that are no aligned word

A cycle without a write is the same edge as one without an access but for the host's side (`step_read`), and what the host's
side gets is what `State.retire` answers. -/

namespace Sys2Proof.Machine

variable {s : State}

/-! ### What a read answers -/

/-- A read answers with the register at its offset (R63). -/
theorem retire_read (hr : s.inputs.rst = false) (hs : s.inputs.sel = true) (hw : s.inputs.we = false) :
    s.retire.rdata = some (hostRead s s.inputs.addr s.inputs.size) := by
  have hreads : s.inputs.reads = true := by simp [PortCycle.reads, hr, hs, hw]
  cases hp : s.host.program with
  | nil => simp [State.retire, hp, hreads]
  | cons op rest => cases op <;> simp [State.retire, hp, hreads]

/-- `lw` puts the answer into its variable (R113). -/
theorem retire_lw {r : Nat} {off : BitVec 6} {rest : List HostOp} (hp : s.host.program = .lw r off :: rest) :
    s.retire.vars = setVar s.host.vars r (hostRead s s.inputs.addr s.inputs.size) ∧ s.retire.program = rest := by
  rw [State.retire, hp]
  exact ⟨rfl, rfl⟩

/-- An access that is no aligned word reads as 0 (R65). -/
theorem hostRead_unaligned {addr : BitVec 6} {size : BitVec 2} (h : aligned addr size = false) (s : State) :
    hostRead s addr size = 0#32 := by
  simp [hostRead, readRegs, h]

/-- TEXTBUFw is read at its offset (R33). -/
theorem hostRead_textbuf (s : State) (w : Fin 8) : hostRead s (Offset.textbuf w.val) 2#2 = textWord s.regs.tb w := by
  fin_cases w <;> rfl

/-- Lane b of TEXTBUFw is cell `4w + b` (R33). -/
theorem byteLane_textWord (tb : Vector Byte 32) (w : Fin 8) {b : Nat} (hb : b < 4) :
    byteLane (textWord tb w) b = tb.toList.getD (4 * w.val + b) 0#8 := by
  have hlt : 4 * w.val + b < tb.toList.length := by simp; omega
  rw [List.getD_eq_getElem _ _ hlt, Vector.getElem_toList, textWord]
  interval_cases b
  · exact byteLane_ofLanes_zero ..
  · exact byteLane_ofLanes_one ..
  · exact byteLane_ofLanes_two ..
  · exact byteLane_ofLanes_three ..

/-! ### The edge of a read -/

/-- A cycle without a write leaves all but the host's side as a cycle with no access does (R66). -/
theorem step_read (hr : s.inputs.rst = false) (hw : s.inputs.we = false) :
    ∃ u : State, step s = .next u ∧ u.host = s.retire
      ∧ step s.withoutAccess = .next { u with host := ⟨s.host.program.tail, s.host.vars, none⟩ } := by
  obtain ⟨r, hwithout, hstep⟩ := step_beside hr
  rw [hostAction, hw, Bool.and_false] at hstep
  exact ⟨_, hstep, rfl, hwithout⟩

/-- Settles O30: the two edges of `step_read` differ in the host's side alone. -/
theorem readsHaveNoSideEffect : Obligations.ReadsHaveNoSideEffect := by
  intro s hr hw
  obtain ⟨u, hstep, -, hwithout⟩ := step_read hr hw
  rw [hstep, hwithout]
  rfl

/-- Settles O29: the answer is `hostRead`, which is evaluated at each offset. -/
theorem readsReturnRegisters : Obligations.ReadsReturnRegisters := by
  intro s hr hs hw hsize _
  obtain ⟨u, hstep, hhost, -⟩ := step_read hr hw
  refine ⟨u, hostRead s s.inputs.addr 2#2, hstep, ?answer, fun r o rest hp => ?lw, ?_, ?_, ?_, ?_, ?_, ?_, ?_, ?_,
    fun w hoff b hb => ?text⟩
  case answer => rw [hhost, retire_read hr hs hw, hsize]
  case lw =>
    rw [hhost, ← hsize]
    exact retire_lw hp
  case text =>
    have h : s.inputs.addr = Offset.textbuf w.val := BitVec.eq_of_toNat_eq (by simp [Offset.textbuf, hoff]; omega)
    rw [h, hostRead_textbuf, byteLane_textWord _ _ hb]
  all_goals
    intro h
    rw [h]
    rfl

/-- Settles O31: a write is refused by the first check, and a read answers 0. -/
theorem onlyAlignedWords : Obligations.OnlyAlignedWords := by
  intro s hr hs hna
  have ha : aligned s.inputs.addr s.inputs.size = false := by
    rw [← Bool.not_eq_true, aligned_iff]
    tauto
  refine ⟨fun hw => ?_, fun hw => ⟨readsHaveNoSideEffect s hr hw, ?_⟩⟩
  · obtain ⟨r, hwithout, hstep⟩ := step_beside hr
    have hact : hostAction s.busy s.inputs = .raise .addr := by
      simp [hostAction, hs, hw, hostWrite_unaligned ha]
    rw [hstep, hwithout, hact, retire_write hs hw]
    rfl
  · obtain ⟨u, hstep, hhost, -⟩ := step_read hr hw
    refine ⟨u, hstep, ?_, fun r off rest hp => ?_⟩
    · rw [hhost, retire_read hr hs hw, hostRead_unaligned ha]
    · rw [hhost, (retire_lw hp).1, hostRead_unaligned ha]

end Sys2Proof.Machine

/-! ## The instructions of the wire

Each instruction's meaning is an equation, `RxChange` says once what any of them can do to the receiver, and the statements
about the receiver's fields and about what it keeps are read off these. -/

namespace Sys2Proof.Machine

variable {s t u : State}

/-! ### The meanings, one by one -/

theorem exec_dispoff (args : List Byte) (s : State) :
    exec (.dispoff args) s = .next (s.fieldDo (s.rx.setOn false)) := rfl
theorem exec_dispon (args : List Byte) (s : State) :
    exec (.dispon args) s = .next (s.fieldDo (s.rx.setOn true)) := rfl
theorem exec_addrmode (args : List Byte) (s : State) :
    exec (.addrmode args) s = .next (s.fieldDo (s.rx.setMode args)) := rfl
theorem exec_coladdr (a b : Byte) (s : State) :
    exec (.coladdr a b) s = .next (s.panelDo (s.rx.setColumns a b)) := rfl
theorem exec_pageaddr (a b : Byte) (s : State) :
    exec (.pageaddr a b) s = .next (s.panelDo (s.rx.setPages a b)) := rfl
theorem exec_data (v : Byte) (s : State) : exec (.data v) s = .next (s.panelDo (s.rx.putData v)) := rfl

/-- Havoc is havoc, whether the instruction acts or not. -/
theorem panelDo_havoc (s : State) : s.panelDo s.rx.havoc = s.withRx s.rx.havoc := by simp [State.panelDo]
theorem fieldDo_havoc (s : State) : s.fieldDo s.rx.havoc = s.withRx s.rx.havoc := by simp [State.fieldDo]

/-- Where the commands of R87 act, they set their field, whatever receiver `r` the state is given. -/
theorem exec_dispoff_act (h : s.fieldsAct = true) (args : List Byte) (r : Receiver) :
    exec (.dispoff args) (s.withRx r) = .next (s.withRx (r.setOn false)) :=
  congrArg Host.Outcome.next (fieldDo_act (s := s.withRx r) h _)
theorem exec_dispon_act (h : s.fieldsAct = true) (args : List Byte) (r : Receiver) :
    exec (.dispon args) (s.withRx r) = .next (s.withRx (r.setOn true)) :=
  congrArg Host.Outcome.next (fieldDo_act (s := s.withRx r) h _)
theorem exec_addrmode_act (h : s.fieldsAct = true) (args : List Byte) (r : Receiver) :
    exec (.addrmode args) (s.withRx r) = .next (s.withRx (r.setMode args)) :=
  congrArg Host.Outcome.next (fieldDo_act (s := s.withRx r) h _)

/-! ### What each does to the receiver -/

theorem setColumns_legal (r : Receiver) {a b : Byte} (h : a.toNat ≤ b.toNat ∧ b.toNat ≤ 127) :
    r.setColumns a b = { r with
      cs := .known ⟨a.toNat, by omega⟩, ce := .known ⟨b.toNat, by omega⟩, col := .known ⟨a.toNat, by omega⟩ } :=
  dif_pos h

theorem setColumns_illegal (r : Receiver) {a b : Byte} (h : 127 < a.toNat ∨ 127 < b.toNat ∨ b.toNat < a.toNat) :
    r.setColumns a b = r.havoc :=
  dif_neg (by omega)

theorem setPages_legal (r : Receiver) {a b : Byte} (h : a.toNat ≤ b.toNat ∧ b.toNat ≤ 7) :
    r.setPages a b = { r with
      ps := .known ⟨a.toNat, by omega⟩, pe := .known ⟨b.toNat, by omega⟩, page := .known ⟨a.toNat, by omega⟩ } :=
  dif_pos h

theorem setPages_illegal (r : Receiver) {a b : Byte} (h : 7 < a.toNat ∨ 7 < b.toNat ∨ b.toNat < a.toNat) :
    r.setPages a b = r.havoc :=
  dif_neg (by omega)

/-- An addressing-mode command of another argument count than one is unknown (assumption 10). -/
theorem setMode_havoc (r : Receiver) {args : List Byte} (h : args.length ≠ 1) : r.setMode args = r.havoc := by
  unfold Receiver.setMode
  split
  · exact absurd rfl h
  · rfl

/-- A data byte in horizontal mode, the window and the pointer known. -/
theorem putData_known {r : Receiver} {cs ce col : Fin 128} {ps pe page : Fin 8} (hm : r.am = .known .horizontal)
    (hcs : r.cs = .known cs) (hce : r.ce = .known ce) (hps : r.ps = .known ps) (hpe : r.pe = .known pe)
    (hcol : r.col = .known col) (hpage : r.page = .known page) (v : Byte) :
    r.putData v = { r with
      gd := Memory.write r.gd (cellAddr page col) v
      col := .known (advance cs ce ps pe col page).1
      page := .known (advance cs ce ps pe col page).2 } := by
  simp only [Receiver.putData, hm, hcs, hce, hps, hpe, hcol, hpage]

/-- A data byte acts only in horizontal mode, with the window and the pointer known. -/
theorem putData_cases (r : Receiver) (v : Byte) :
    r.putData v = r.havoc
    ∨ ∃ cs ce ps pe col page, r.am = .known .horizontal ∧ r.cs = .known cs ∧ r.ce = .known ce ∧ r.ps = .known ps
      ∧ r.pe = .known pe ∧ r.col = .known col ∧ r.page = .known page := by
  unfold Receiver.putData
  split
  next cs ce ps pe col page hm hcs hce hps hpe hcol hpage =>
    exact .inr ⟨cs, ce, ps, pe, col, page, hm, hcs, hce, hps, hpe, hcol, hpage⟩
  next => exact .inl rfl

/-- The pointer's advance (R83): in the row, to the next row, or home. -/
theorem advance_cases (cs ce : Fin 128) (ps pe : Fin 8) (col : Fin 128) (page : Fin 8) :
    (col.val + 1 ≤ ce.val ∧ (advance cs ce ps pe col page).1.val = col.val + 1
      ∧ (advance cs ce ps pe col page).2 = page)
    ∨ (ce.val < col.val + 1 ∧ page.val + 1 ≤ pe.val ∧ (advance cs ce ps pe col page).1 = cs
      ∧ (advance cs ce ps pe col page).2.val = page.val + 1)
    ∨ (ce.val < col.val + 1 ∧ pe.val < page.val + 1 ∧ (advance cs ce ps pe col page).1 = cs
      ∧ (advance cs ce ps pe col page).2 = ps) := by
  unfold advance
  split_ifs with h1 h2
  · exact .inl ⟨h1, rfl, rfl⟩
  · exact .inr (.inl ⟨by omega, h2, rfl, rfl⟩)
  · exact .inr (.inr ⟨by omega, by omega, rfl, rfl⟩)

/-- A write stores at its cell. -/
theorem cell_write_same (r : Receiver) (p : Fin 8) (c : Fin 128) (v : Byte) :
    ({ r with gd := Memory.write r.gd (cellAddr p c) v } : Receiver).cell p c = v := by
  simp [Receiver.cell]

/-- A write stores at no other cell. -/
theorem cell_write_other (r : Receiver) {p q : Fin 8} {c d : Fin 128} (h : ¬(p = q ∧ c = d)) (v : Byte) :
    ({ r with gd := Memory.write r.gd (cellAddr q d) v } : Receiver).cell p c = r.cell p c := by
  simp only [Receiver.cell, Memory.read_write_other r.gd v (mt cellAddr_inj h)]

/-! ### Window commands, data, mode and display -/

/-- Settles O34, by the operands. -/
theorem columnAddress : Obligations.ColumnAddress := by
  refine fun a b s => ⟨fun h hr => ?_, fun h => ?_⟩
  · rw [exec_coladdr, setColumns_legal _ h, panelDo_reached hr]; rfl
  · rw [exec_coladdr, setColumns_illegal _ h, panelDo_havoc]; rfl

/-- Settles O35, by the operands. -/
theorem pageAddress : Obligations.PageAddress := by
  refine fun a b s => ⟨fun h hr => ?_, fun h => ?_⟩
  · rw [exec_pageaddr, setPages_legal _ h, panelDo_reached hr]; rfl
  · rw [exec_pageaddr, setPages_illegal _ h, panelDo_havoc]; rfl

/-- Settles O36: the byte is one write of the memory, and the pointer moves by `advance_cases`. -/
theorem dataByte : Obligations.DataByte := by
  refine fun v s => ⟨fun cs ce col ps pe page hr hm hcs hce hps hpe hcol hpage => ?_, fun h => ?_⟩
  · refine ⟨_, _, _, by rw [exec_data, putData_known hm hcs hce hps hpe hcol hpage, panelDo_reached hr], rfl,
      cell_write_same s.rx page col v, fun p c h => cell_write_other s.rx h v, ?_⟩
    rcases advance_cases cs ce ps pe col page with ⟨h, h1, h2⟩ | ⟨h, h', h1, h2⟩ | ⟨h, h', h1, h2⟩
    · exact ⟨fun _ => ⟨h1, h2⟩, fun _ => by omega, fun _ => by omega⟩
    · exact ⟨fun _ => by omega, fun _ _ => ⟨h1, h2⟩, fun _ _ => by omega⟩
    · exact ⟨fun _ => by omega, fun _ _ => by omega, fun _ _ => ⟨h1, h2⟩⟩
  · rcases putData_cases s.rx v with hv | ⟨cs, ce, ps, pe, col, page, hm, hcs, hce, hps, hpe, hcol, hpage⟩
    · rw [exec_data, hv, panelDo_havoc]; rfl
    · simp [hm, hcs, hce, hps, hpe, hcol, hpage] at h

/-- Settles O37, command by command. -/
theorem otherCommands : Obligations.OtherCommands := by
  refine fun a args b s => ⟨fun hf => ⟨exec_addrmode_act hf [0x00#8] s.rx, fun ha => ?_, exec_dispoff_act hf args s.rx,
    exec_dispon_act hf args s.rx⟩, fun hl => ?_, rfl, rfl, rfl, rfl, rfl, rfl, rfl, rfl, rfl⟩
  · refine (exec_addrmode_act hf [a] s.rx).trans ?_
    rw [Receiver.setMode, if_neg ha]
    rfl
  · rw [exec_addrmode, setMode_havoc _ hl, fieldDo_havoc]
    rfl

/-- Settles O38: where an instruction does not act, `panelDo` and `fieldDo` are havoc. -/
theorem beforeFirstInit : Obligations.BeforeFirstInit := by
  intro s v a b args hp hi
  have hr : s.initReached = false := initReached_eq_false.2 ⟨hp, hi⟩
  refine ⟨?_, ?_, ?_, fun hc => ?_⟩
  · rw [exec_data, panelDo_before hr]; rfl
  · rw [exec_coladdr, panelDo_before hr]; rfl
  · rw [exec_pageaddr, panelDo_before hr]; rfl
  · have hf : s.fieldsAct = false := fieldsAct_eq_false.2 ⟨hc, hi⟩
    rw [exec_addrmode, exec_dispoff, exec_dispon, fieldDo_cutOff hf, fieldDo_cutOff hf, fieldDo_cutOff hf]
    exact ⟨rfl, rfl, rfl⟩

/-! ### What any of them can do -/

/-- What an instruction of the wire can make of the receiver of `s`: havoc, nothing, another mode and `on` where these
act, another window and pointer where window commands act, or a byte stored where data frames act. -/
inductive RxChange (s : State) : Instr → Receiver → Prop where
  | havoc (i : Instr) : RxChange s i s.rx.havoc
  | keep (i : Instr) : RxChange s i s.rx
  | fields (i : Instr) (act : s.fieldsAct = true) (am : Drawn AddrMode) (on : Drawn Bool) :
      RxChange s i { s.rx with am := am, on := on }
  | window (i : Instr) (reached : s.initReached = true) (cs ce col : Drawn (Fin 128)) (ps pe page : Drawn (Fin 8)) :
      RxChange s i { s.rx with cs := cs, ce := ce, col := col, ps := ps, pe := pe, page := page }
  | store (v : Byte) (reached : s.initReached = true) (gd : List Host.Cell) (col : Drawn (Fin 128))
      (page : Drawn (Fin 8)) : RxChange s (.data v) { s.rx with gd := gd, col := col, page := page }

theorem rxChange_fieldDo {i : Instr} {r : Receiver} (h : s.fieldsAct = true → RxChange s i r) :
    RxChange s i (s.fieldDo r).rx := by
  cases hf : s.fieldsAct with
  | true => rw [fieldDo_act hf]; exact h hf
  | false => rw [fieldDo_cutOff hf]; exact .havoc i

theorem rxChange_panelDo {i : Instr} {r : Receiver} (h : s.initReached = true → RxChange s i r) :
    RxChange s i (s.panelDo r).rx := by
  cases hf : s.initReached with
  | true => rw [panelDo_reached hf]; exact h hf
  | false => rw [panelDo_before hf]; exact .havoc i

/-- Every instruction of the wire changes the receiver alone, in one of these ways. -/
theorem exec_rxChange {i : Instr} (hi : isRequest i = false) (h : exec i s = .next t) :
    t = s.withRx t.rx ∧ RxChange s i t.rx := by
  refine ⟨?_, ?_⟩
  · obtain ⟨r, hr⟩ := exec_wire hi s
    rw [hr] at h
    cases h
    rfl
  · cases i with
    | dispoff _ | dispon _ => cases h; exact rxChange_fieldDo fun hf => .fields _ hf _ _
    | addrmode args =>
      cases h
      refine rxChange_fieldDo fun hf => ?_
      unfold Receiver.setMode
      split
      · exact .fields _ hf _ _
      · exact .havoc _
    | coladdr a b =>
      cases h
      refine rxChange_panelDo fun hr => ?_
      unfold Receiver.setColumns
      split
      · exact .window _ hr _ _ _ _ _ _
      · exact .havoc _
    | pageaddr a b =>
      cases h
      refine rxChange_panelDo fun hr => ?_
      unfold Receiver.setPages
      split
      · exact .window _ hr _ _ _ _ _ _
      · exact .havoc _
    | data v =>
      cases h
      refine rxChange_panelDo fun hr => ?_
      unfold Receiver.putData
      split
      · exact .store v hr _ _ _
      · exact .havoc _
    | writeByte _ _ | init | setWindow | drawText _ _ _ => cases hi
    | _ => cases h; exact .keep _

/-- Settles O40: of the changes of `RxChange` only havoc and a stored byte touch the memory. -/
theorem wireFrame : Obligations.WireFrame := by
  intro i s t hi h
  obtain ⟨ht, hc⟩ := exec_rxChange hi h
  refine ⟨ht, fun hd hne => ?_⟩
  generalize t.rx = r at hc hne
  cases hc with
  | havoc => exact absurd rfl hne
  | store v => exact absurd rfl (hd v)
  | _ => exact ⟨rfl, rfl, fun _ _ => rfl⟩

/-! ### What stays unknown -/

theorem panelUnknown_unknown (n : Nat) : (Receiver.unknown n).panelUnknown :=
  ⟨rfl, ⟨n, rfl⟩, ⟨n, rfl⟩, ⟨n, rfl⟩, ⟨n, rfl⟩, ⟨n, rfl⟩, ⟨n, rfl⟩⟩

theorem fieldsUnknown_unknown (n : Nat) : (Receiver.unknown n).fieldsUnknown := ⟨⟨n, rfl⟩, ⟨n, rfl⟩⟩

theorem panelUnknown_pending {r : Receiver} (h : r.panelUnknown) (p : Drawn (List Byte)) :
    ({ r with pending := p } : Receiver).panelUnknown := ⟨h.gd, h.cs, h.ce, h.ps, h.pe, h.col, h.page⟩

theorem fieldsUnknown_pending {r : Receiver} (h : r.fieldsUnknown) (p : Drawn (List Byte)) :
    ({ r with pending := p } : Receiver).fieldsUnknown := ⟨h.am, h.on⟩

/-- Before an INIT no instruction settles the window, the pointer or the memory (R256). -/
theorem panelUnknown_rxChange {i : Instr} {r : Receiver} (hr : s.initReached = false) (h : s.rx.panelUnknown)
    (hc : RxChange s i r) : r.panelUnknown := by
  cases hc with
  | havoc => exact panelUnknown_unknown _
  | keep => exact h
  | fields => exact ⟨h.gd, h.cs, h.ce, h.ps, h.pe, h.col, h.page⟩
  | window _ reached => simp [hr] at reached
  | store _ reached => simp [hr] at reached

/-- After a cut-off frame none settles the mode or `on` (U11). -/
theorem fieldsUnknown_rxChange {i : Instr} {r : Receiver} (hf : s.fieldsAct = false) (h : s.rx.fieldsUnknown)
    (hc : RxChange s i r) : r.fieldsUnknown := by
  cases hc with
  | havoc => exact fieldsUnknown_unknown _
  | keep => exact h
  | fields _ act => simp [hf] at act
  | window => exact ⟨h.am, h.on⟩
  | store => exact ⟨h.am, h.on⟩

/-- The host's share of an edge keeps the panel's note, and an INIT that runs. -/
theorem hostShare_initRuns {busy : Bool} (hb : busy = false → u.busy = false) (h : HostShare busy u t) :
    u.panel = t.panel ∧ (u.eng.curOp = some .init → t.eng.curOp = some .init) := by
  refine ⟨(hostShare_trace h).2.2.1.symm, ?_⟩
  cases h with
  | store => exact id
  | accept i l idle => simp [(busy_eq_false_iff u).1 (hb idle)]

section Keeps
variable {P : Receiver → Prop} (hunknown : ∀ n, P (Receiver.unknown n))
  (hpending : ∀ r p, P r → P { r with pending := p })
include hunknown hpending

/-- What havoc, the parse state and the wire instructions keep, taking a frame keeps. -/
theorem takeFrame_keeps {f : Frame} (hexec : ∀ r i r', P r → RxChange (s.withRx r) i r' → P r') (h : P s.rx)
    (ht : (takeFrame f s).finish = .next t) : P t.rx := by
  unfold takeFrame at ht
  split at ht
  next hd => exact hexec _ _ _ (hpending _ _ h) (exec_rxChange (decodeFrames_not_request hd) ht).2
  next => cases ht; exact hunknown _
  next => cases ht; exact hpending _ _ h
  next => cases ht; exact hunknown _

/-- So does a step, if the instructions keep it that run under the note the step ends with, before or in an INIT. -/
theorem step_keeps_rx (h : step s = .next t)
    (hexec : ∀ (u : State) i r, u.panel = t.panel → (u.eng.curOp = some .init → t.eng.curOp = some .init) → P u.rx →
      RxChange u i r → P r) (hs : P s.rx) : P t.rx := by
  rcases step_cases h with ⟨-, rfl⟩ | ⟨hr, -⟩
  · rw [resetBlock_rx]
    split
    · exact hunknown _
    · exact hs
  · obtain ⟨r, hw, hsh⟩ := step_shares hr h
    have hbusy : s.busy = false → (s.afterWire r).busy = false := transportEdge_busy s
    obtain ⟨hpanel, hinit⟩ := hostShare_initRuns hbusy hsh
    obtain ⟨-, hrx, -⟩ := transportEdge_frame s.presented
    have hedge : (transportEdge s.presented).1.panel = (s.afterWire r).panel
        ∧ (transportEdge s.presented).1.eng = (s.afterWire r).eng := by
      rw [State.presented, transportEdge_host]; exact ⟨rfl, rfl⟩
    rw [(hostShare_rx hsh).2]
    unfold wireEvent at hw
    rcases he : transportEdge s.presented with ⟨u, _ | f⟩ <;> rw [he] at hw hrx hedge
    · rw [← Host.Outcome.next.inj hw]
      exact hrx.symm ▸ hs
    · obtain ⟨hp, he⟩ := hedge
      exact takeFrame_keeps hunknown hpending
        (fun r i r' => hexec (u.withRx r) i r' (hp.trans hpanel) fun hi => hinit (he ▸ hi)) (hrx.symm ▸ hs) hw

end Keeps

/-- Settles O39: while no INIT runs or has completed, no instruction that a step runs acts. -/
theorem unknownUntilInit : Obligations.UnknownUntilInit := by
  refine fun s t h => ⟨fun hs ht => ?_, fun hs ht => ?_⟩
  · refine step_keeps_rx panelUnknown_unknown (fun _ p h => panelUnknown_pending h p) h
      (fun u i r hp hi hu hc => panelUnknown_rxChange ?_ hu hc) hs
    obtain ⟨hpanel, hinit⟩ := initReached_eq_false.1 ht
    exact initReached_eq_false.2 ⟨hp ▸ hpanel, mt hi hinit⟩
  · refine step_keeps_rx fieldsUnknown_unknown (fun _ p h => fieldsUnknown_pending h p) h
      (fun u i r hp hi hu hc => fieldsUnknown_rxChange ?_ hu hc) hs
    obtain ⟨hpanel, hinit⟩ := fieldsAct_eq_false.1 ht
    exact fieldsAct_eq_false.2 ⟨hp.trans hpanel, mt hi hinit⟩

/-! ### Reset -/

/-- Settles O50, by whether a frame is on the wire. -/
theorem resetAndReceiver : Obligations.ResetAndReceiver := by
  intro s t hr h
  rw [step_reset hr] at h
  cases h
  have hw : s.presented.frameOnWire = true ↔ s.tx.tstate = .dc ∨ s.tx.tstate = .shift ∨ s.tx.tstate = .settle :=
    frameOnWire_iff s.presented
  rw [resetBlock_rx, resetBlock_panel]
  refine ⟨fun ht => ?_, fun ht => ?_⟩
  · have hf := hw.2 (by tauto)
    exact ⟨if_pos hf, if_pos hf⟩
  · have hf : ¬ s.presented.frameOnWire = true := by
      rw [hw]; rcases ht with ht | ht <;> simp [ht]
    rw [if_neg hf]
    rcases noteAfterReset_cases s.presented with ⟨hf', -⟩ | ⟨-, -, hset, hn⟩ | ⟨-, hset, hn⟩
    · exact absurd hf' hf
    · rw [hn]
      exact ⟨rfl, fun h => absurd (hset.symm.trans h) (by decide), fun _ => by decide⟩
    · rw [hn]
      exact ⟨rfl, fun _ => rfl, fun h hp => absurd (h.symm.trans (hset hp)) (by decide)⟩

end Sys2Proof.Machine

/-! ## The receiver's parse, and the frames of an INIT

A command in progress is an opcode byte and fewer arguments than it counts (`opened_of_need`); how the next frame is parsed
follows from how many are missing. A whole command's frames fed one after another run it (`feed_command`), and the zero bytes
of an INIT clear the memory cell by cell (`Cleared`). -/

namespace Sys2Proof.Machine

variable {s t : State} {o : Opcodes}

/-! ### The argument frames -/

/-- Fewer Command frames than are counted leave the rest expected. -/
theorem takeArgs_short (args : List Byte) (k : Nat) :
    takeArgs (args.length + (k + 1)) (args.map cmdFrame) = .more (k + 1) := by
  induction args with
  | nil => simp [takeArgs]
  | cons a args ih =>
    rw [List.length_cons, show args.length + 1 + (k + 1) = args.length + (k + 1) + 1 by omega]
    simp only [List.map_cons, cmdFrame, takeArgs] at ih ⊢
    rw [ih]

/-- A Data frame among them is no argument (R82). -/
theorem takeArgs_short_data (args : List Byte) (k : Nat) (v : Byte) (rest : List Frame) :
    takeArgs (args.length + (k + 1)) (args.map cmdFrame ++ dataFrame v :: rest) = .data := by
  induction args with
  | nil => simp [takeArgs, dataFrame]
  | cons a args ih =>
    rw [List.length_cons, show args.length + 1 + (k + 1) = args.length + (k + 1) + 1 by omega]
    simp only [List.map_cons, List.cons_append, cmdFrame, takeArgs] at ih ⊢
    rw [ih]

/-! ### A command in progress -/

/-- An opcode of the table and arguments, k short of what it counts. -/
structure Opened (o : Opcodes) (v : Byte) (args : List Byte) (c : CommandShape) (k : Nat) : Prop where
  opcode : commandOf o v = some c
  count : c.args.val = args.length + k

/-- An argument byte more. -/
theorem Opened.snoc {v : Byte} {args : List Byte} {c : CommandShape} {k : Nat} (h : Opened o v args c (k + 1))
    (a : Byte) : Opened o v (args ++ [a]) c k :=
  ⟨h.opcode, by rw [h.count, List.length_append, List.length_singleton]; omega⟩

/-- What a command is parsed as by what its arguments come to. -/
def parsedAs (c : CommandShape) : ArgParse → WireParse
  | .all args rest => .complete (c.make args) rest
  | .more need => .more need
  | .data => .reject .dataInArguments

/-- A command's frames are parsed by its arguments. -/
theorem decodeFrames_opcode {v : Byte} {args : List Byte} {c : CommandShape} {k : Nat} (h : Opened o v args c k)
    (rest : List Frame) : decodeFrames o ((v :: args).map cmdFrame ++ rest) =
      parsedAs c (takeArgs (args.length + k) (args.map cmdFrame ++ rest)) := by
  rw [← h.count, List.map_cons, List.cons_append, cmdFrame, decodeFrames, h.opcode]
  rfl

theorem decodeFrames_opened {v : Byte} {args : List Byte} {c : CommandShape} {k : Nat}
    (h : Opened o v args c (k + 1)) : decodeFrames o ((v :: args).map cmdFrame) = .more (k + 1) := by
  have hd := decodeFrames_opcode h []
  rw [List.append_nil, List.append_nil, takeArgs_short] at hd
  exact hd

theorem decodeFrames_whole {v : Byte} {args : List Byte} {c : CommandShape} (h : Opened o v args c 0) :
    decodeFrames o ((v :: args).map cmdFrame) = .complete (c.make args) [] := by
  have hd := decodeFrames_opcode h []
  rw [Nat.add_zero, show takeArgs args.length (args.map cmdFrame ++ []) = _ from takeArgs_commands args []] at hd
  rw [List.append_nil] at hd
  exact hd

theorem decodeFrames_opened_data {v : Byte} {args : List Byte} {c : CommandShape} {k : Nat}
    (h : Opened o v args c (k + 1)) (d : Byte) :
    decodeFrames o ((v :: args).map cmdFrame ++ [dataFrame d]) = .reject .dataInArguments := by
  rw [decodeFrames_opcode h, takeArgs_short_data]
  rfl

theorem map_cmdFrame_snoc (bytes : List Byte) (v : Byte) :
    bytes.map cmdFrame ++ [cmdFrame v] = (bytes ++ [v]).map cmdFrame := by simp

theorem need_opened {r : Receiver} {v : Byte} {args : List Byte} {c : CommandShape} {k : Nat}
    (h : Opened o v args c k) (hb : r.bytes = v :: args) : r.need o = k := by
  cases k with
  | zero => rw [Receiver.need, hb, decodeFrames_whole h]
  | succ k => rw [Receiver.need, hb, decodeFrames_opened h]

/-- Where arguments are expected a command is in progress (R82). -/
theorem opened_of_need {r : Receiver} (h : 0 < r.need o) :
    ∃ v args c, r.bytes = v :: args ∧ Opened o v args c (r.need o) := by
  obtain ⟨n, hd, hn⟩ : ∃ n, decodeFrames o (r.bytes.map cmdFrame) = .more n ∧ r.need o = n := by
    unfold Receiver.need at h
    split at h
    next n hn => exact ⟨n, hn, by rw [Receiver.need, hn]⟩
    next => cases h
    next => cases h
  rw [hn] at h ⊢
  cases hb : r.bytes with
  | nil => rw [hb] at hd; cases hd; omega
  | cons v args =>
    rw [hb, List.map_cons, cmdFrame, decodeFrames] at hd
    split at hd
    next => cases hd
    next c hc =>
      refine ⟨v, args, c, rfl, hc, ?_⟩
      rcases takeArgs_cases c.args.val (args.map cmdFrame) with
        ⟨_, _, he, -⟩ | ⟨args', k, he, hk, hf⟩ | ⟨he, -⟩ <;> rw [he] at hd <;> cases hd
      rw [hk, show args.length = args'.length by simpa using congrArg List.length hf]

/-! ### Taking a frame -/

/-- The state with these bytes pending at the receiver. -/
def State.withPending (s : State) (bytes : List Byte) : State := s.withRx { s.rx with pending := .known bytes }

theorem withPending_withPending (s : State) (a b : List Byte) : (s.withPending a).withPending b = s.withPending b := rfl

theorem withPending_of_pending {bytes : List Byte} (hp : s.rx.pending = .known bytes) : s.withPending bytes = s := by
  rw [State.withPending, ← hp]; rfl

theorem bytes_of_pending {bytes : List Byte} (hp : s.rx.pending = .known bytes) : s.rx.bytes = bytes := by
  rw [Receiver.bytes, hp]; rfl

/-- A frame that completes an instruction leaves it to run, with nothing pending. -/
theorem takeFrame_complete {f : Frame} {i : Instr}
    (h : decodeFrames s.cfg.opc (s.rx.bytes.map cmdFrame ++ [f]) = .complete i []) :
    (takeFrame f s).finish = exec i (s.withPending []) := by
  simp only [takeFrame, h]; rfl

/-- A frame inside a command is kept. -/
theorem takeFrame_more {f : Frame} {n : Nat}
    (h : decodeFrames s.cfg.opc (s.rx.bytes.map cmdFrame ++ [f]) = .more n) :
    (takeFrame f s).finish = .next (s.withPending (s.rx.bytes ++ [f.value])) := by
  simp only [takeFrame, h]; rfl

/-- A frame that fits no command is havoc. -/
theorem takeFrame_reject {f : Frame} {e : DecodeError}
    (h : decodeFrames s.cfg.opc (s.rx.bytes.map cmdFrame ++ [f]) = .reject e) :
    (takeFrame f s).finish = .next (s.withRx s.rx.havoc) := by
  simp only [takeFrame, h]; rfl

/-- An argument byte, not the last. -/
theorem takeFrame_argument {v : Byte} {args : List Byte} {c : CommandShape} {k : Nat}
    (h : Opened s.cfg.opc v args c (k + 2)) (hb : s.rx.bytes = v :: args) (a : Byte) :
    (takeFrame (cmdFrame a) s).finish = .next (s.withPending (s.rx.bytes ++ [a])) :=
  takeFrame_more (by rw [map_cmdFrame_snoc, hb]; exact decodeFrames_opened (h.snoc a))

/-- The last argument byte. -/
theorem decodeFrames_last {v : Byte} {args : List Byte} {c : CommandShape} (h : Opened o v args c 1) (a : Byte) :
    decodeFrames o ((v :: args).map cmdFrame ++ [cmdFrame a]) = .complete (c.make (args ++ [a])) [] := by
  rw [map_cmdFrame_snoc]; exact decodeFrames_whole (h.snoc a)

/-- Settles O8: the receiver takes the frame of the transport's edge, and the host does nothing in the cycle. -/
theorem stepRunsWire : Obligations.StepRunsWire := by
  intro s t f i hin he hd
  obtain ⟨hcfg, hrx, -⟩ := transportEdge_frame s.presented
  rw [he] at hcfg hrx
  have hrx : t.rx = s.rx := hrx
  have hd' : decodeFrames t.cfg.opc (t.rx.bytes.map cmdFrame ++ [f]) = .complete i [] := by
    rw [show t.cfg = s.cfg from hcfg, hrx]; exact hd
  have hw : (wireEvent s.presented).finish = exec i (t.withRx { s.rx with pending := .known [] }) := by
    simp only [wireEvent, he]
    rw [takeFrame_complete hd', State.withPending, hrx]
  obtain ⟨r, hr⟩ := exec_wire (decodeFrames_not_request hd) (t.withRx { s.rx with pending := .known [] })
  simp only [step, hin]
  rw [show (wireEvent { s with host := s.retire }).finish = _ from hw, hr]
  rfl

/-- Settles O41: with nothing pending a frame is an opcode; else a command is in progress, by `opened_of_need`. -/
theorem receiverParses : Obligations.ReceiverParses := by
  intro s v bytes hp
  obtain rfl := bytes_of_pending hp
  refine ⟨fun hnil hc => ?_, fun c hnil hc hpos => ?_, fun h => ?_, fun h => ?_, fun h => ?_⟩
  · refine takeFrame_reject (e := .unknownOpcode) ?_
    rw [hnil]
    simp [decodeFrames, hc]
  · obtain ⟨k, hk⟩ := Nat.exists_eq_add_of_le' hpos
    have hopen : Opened s.cfg.opc v [] c (k + 1) := ⟨hc, by simp [hk]⟩
    refine ⟨_, takeFrame_more (n := k + 1) ?_, ?_, ?_⟩
    · rw [hnil]; exact decodeFrames_opened hopen
    · rw [hk]; exact need_opened hopen (by rw [hnil]; rfl)
    · rw [hnil]; rfl
  · obtain ⟨w, args, c, hb, hopen⟩ := opened_of_need (Nat.zero_lt_of_lt h)
    obtain ⟨k, hk⟩ := Nat.exists_eq_add_of_le' h
    rw [hk] at hopen ⊢
    exact ⟨_, takeFrame_argument hopen hb v, congrArg Nat.succ (need_opened (hopen.snoc v) (by rw [hb]; rfl)), rfl⟩
  · obtain ⟨w, args, c, hb, hopen⟩ := opened_of_need (h ▸ Nat.one_pos)
    rw [h] at hopen
    have hd : decodeFrames s.cfg.opc (s.rx.bytes.map cmdFrame ++ [⟨.command, v⟩]) = _ := hb ▸ decodeFrames_last hopen v
    exact ⟨_, hd, takeFrame_complete hd⟩
  · obtain ⟨w, args, c, hb, hopen⟩ := opened_of_need h
    obtain ⟨k, hk⟩ := Nat.exists_eq_add_of_le' h
    rw [hk] at hopen
    exact takeFrame_reject (hb ▸ decodeFrames_opened_data hopen v)

/-! ### A whole command -/

/-- The missing arguments fed one after another run the command. -/
theorem feed_arguments {v : Byte} {c : CommandShape} (done args : List Byte) (a : Byte) (rest : List Frame) (s : State)
    (h : Opened s.cfg.opc v done c (args.length + 1)) (hb : s.rx.bytes = v :: done) :
    feed ((a :: args).map cmdFrame ++ rest) s =
      andThen (exec (c.make (done ++ a :: args)) (s.withPending [])) (feed rest) := by
  induction args generalizing done a s with
  | nil =>
    have hf : (takeFrame (cmdFrame a) s).finish = _ := takeFrame_complete (hb ▸ decodeFrames_last h a)
    rw [List.map_cons, List.cons_append, feed, hf]
    rfl
  | cons b args ih =>
    rw [List.map_cons, List.cons_append, feed, takeFrame_argument h hb a]
    refine (ih (done ++ [a]) b (s.withPending (s.rx.bytes ++ [a])) (h.snoc a)
      (congrArg (· ++ [a]) hb)).trans ?_
    rw [List.append_assoc]
    rfl

/-- The frames of a whole command, nothing pending, run it. -/
theorem feed_command {v : Byte} {args : List Byte} {c : CommandShape} (hp : s.rx.pending = .known [])
    (hc : commandOf s.cfg.opc v = some c) (hn : c.args.val = args.length) (rest : List Frame) :
    feed ((v :: args).map cmdFrame ++ rest) s = andThen (exec (c.make args) s) (feed rest) := by
  have hopen : Opened s.cfg.opc v [] c args.length := ⟨hc, by simp [hn]⟩
  have hb := bytes_of_pending hp
  rw [List.map_cons, List.cons_append, feed]
  cases args with
  | nil =>
    rw [takeFrame_complete (i := c.make []) (by rw [hb]; exact decodeFrames_whole hopen), withPending_of_pending hp]
    rfl
  | cons a args =>
    rw [takeFrame_more (n := args.length + 1) (by rw [hb]; exact decodeFrames_opened hopen), hb]
    refine (feed_arguments [] args a rest (s.withPending [v]) hopen rfl).trans ?_
    rw [withPending_withPending, withPending_of_pending hp]
    rfl

/-! ### The commands of an INIT -/

/-- With nothing pending, these frames, whatever follows them, take the receiver of `s` from `r` to `r'` and leave nothing
pending. -/
def FeedsTo (s : State) (fs : List Frame) (r r' : Receiver) : Prop :=
  r.pending = .known [] →
    r'.pending = .known [] ∧ ∀ rest, feed (fs ++ rest) (s.withRx r) = feed rest (s.withRx r')

theorem FeedsTo.append {fs gs : List Frame} {r r' r'' : Receiver} (h : FeedsTo s fs r r') (h' : FeedsTo s gs r' r'') :
    FeedsTo s (fs ++ gs) r r'' := fun hp => by
  obtain ⟨hp', hfs⟩ := h hp
  obtain ⟨hp'', hgs⟩ := h' hp'
  exact ⟨hp'', fun rest => by rw [List.append_assoc, hfs, hgs]⟩

/-- A whole command that keeps the parse state. -/
theorem FeedsTo.command {v : Byte} {args : List Byte} {c : CommandShape} {r r' : Receiver} (ho : s.cfg.opc = o)
    (hc : commandOf o v = some c) (hn : c.args.val = args.length)
    (hx : exec (c.make args) (s.withRx r) = .next (s.withRx r')) (hr : r'.pending = r.pending) :
    FeedsTo s ((v :: args).map cmdFrame) r r' := fun hp => by
  have hc' : commandOf (s.withRx r).cfg.opc v = some c := ho.symm ▸ hc
  exact ⟨hr.trans hp, fun rest => by rw [feed_command hp hc' hn, hx]; rfl⟩

/-- The receiver as the commands of an INIT leave it (R89). -/
def Receiver.setUp (r : Receiver) : Receiver :=
  { r with
    am := .known .horizontal
    on := .known true
    cs := .known 0
    ce := .known 127
    col := .known 0
    ps := .known 0
    pe := .known 7
    page := .known 0 }

section Commands
variable (ho : s.cfg.opc = Opcodes.default) (hr : s.initReached = true) (r : Receiver)
include ho

/-- set-clock-divider and enable-charge-pump. -/
theorem feedsTo_power : FeedsTo s ([0xD5#8, 0x80#8, 0x8D#8, 0x14#8].map cmdFrame) r r :=
  FeedsTo.append (fs := [0xD5#8, 0x80#8].map cmdFrame) (.command ho rfl rfl rfl rfl) (.command ho rfl rfl rfl rfl)

/-- set-segment-remap, set-scan-direction and set-common-pin-config. -/
theorem feedsTo_layout : FeedsTo s ([0xA1#8, 0xC8#8, 0xDA#8, 0x12#8].map cmdFrame) r r :=
  FeedsTo.append (fs := [0xA1#8].map cmdFrame) (.command ho rfl rfl rfl rfl) <|
    FeedsTo.append (fs := [0xC8#8].map cmdFrame) (.command ho rfl rfl rfl rfl) (.command ho rfl rfl rfl rfl)

/-- set-contrast, set-precharge-period, set-deselect-level and resume-display. -/
theorem feedsTo_levels :
    FeedsTo s ([0x81#8, 0xCF#8, 0xD9#8, 0xF1#8, 0xDB#8, 0x40#8, 0xA4#8].map cmdFrame) r r :=
  FeedsTo.append (fs := [0x81#8, 0xCF#8].map cmdFrame) (.command ho rfl rfl rfl rfl) <|
    FeedsTo.append (fs := [0xD9#8, 0xF1#8].map cmdFrame) (.command ho rfl rfl rfl rfl) <|
      FeedsTo.append (fs := [0xDB#8, 0x40#8].map cmdFrame) (.command ho rfl rfl rfl rfl) (.command ho rfl rfl rfl rfl)

include hr

theorem feedsTo_displayOff : FeedsTo s ([0xAE#8].map cmdFrame) r { r with on := .known false } :=
  .command ho rfl rfl (exec_dispoff_act (fieldsAct_of_initReached hr) [] r) rfl

theorem feedsTo_displayOn : FeedsTo s ([0xAF#8].map cmdFrame) r { r with on := .known true } :=
  .command ho rfl rfl (exec_dispon_act (fieldsAct_of_initReached hr) [] r) rfl

theorem feedsTo_horizontal : FeedsTo s ([0x20#8, 0x00#8].map cmdFrame) r { r with am := .known .horizontal } :=
  .command ho rfl rfl (exec_addrmode_act (fieldsAct_of_initReached hr) [0x00#8] r) rfl

theorem feedsTo_columns : FeedsTo s ([0x21#8, 0x00#8, 0x7F#8].map cmdFrame) r
    { r with cs := .known 0, ce := .known 127, col := .known 0 } :=
  .command ho rfl rfl ((columnAddress 0x00#8 0x7F#8 (s.withRx r)).1 (by decide) hr) rfl

theorem feedsTo_pages : FeedsTo s ([0x22#8, 0x00#8, 0x07#8].map cmdFrame) r
    { r with ps := .known 0, pe := .known 7, page := .known 0 } :=
  .command ho rfl rfl ((pageAddress 0x00#8 0x07#8 (s.withRx r)).1 (by decide) hr) rfl

/-- The default `INIT_ROM` and the full window, command by command. -/
theorem feedsTo_setUp :
    FeedsTo s (Config.defaultInitRom.map cmdFrame ++ windowFrames Opcodes.default 0x00#8 0x7F#8 0x00#8 0x07#8)
      r r.setUp :=
  (feedsTo_displayOff ho hr _).append <| (feedsTo_power ho _).append <| (feedsTo_horizontal ho hr _).append <|
    (feedsTo_layout ho _).append <| (feedsTo_levels ho _).append <| (feedsTo_displayOn ho hr _).append <|
    (feedsTo_columns ho hr _).append (feedsTo_pages ho hr _)

end Commands

/-! ### Its zero bytes -/

/-- The receiver n zero bytes into the clearing of the memory: the first n cells are 0, and the pointer is at cell n. -/
structure Cleared (n : Nat) (r : Receiver) : Prop where
  am : r.am = .known .horizontal
  on : r.on = .known true
  cs : r.cs = .known 0
  ce : r.ce = .known 127
  ps : r.ps = .known 0
  pe : r.pe = .known 7
  col : r.col = .known ⟨n % 128, Nat.mod_lt _ (by decide)⟩
  page : r.page = .known ⟨n / 128 % 8, Nat.mod_lt _ (by decide)⟩
  pending : r.pending = .known []
  cells : ∀ a, a < n → Memory.read r.gd a = some 0x00#8

theorem cleared_setUp {r : Receiver} (hp : r.pending = .known []) : Cleared 0 r.setUp :=
  ⟨rfl, rfl, rfl, rfl, rfl, rfl, rfl, rfl, hp, fun _ h => absurd h (Nat.not_lt_zero _)⟩

/-- In the full window the pointer goes through the cells in the order of their addresses. -/
theorem advance_full (n : Nat) :
    advance 0 127 0 7 ⟨n % 128, Nat.mod_lt _ (by decide)⟩ ⟨n / 128 % 8, Nat.mod_lt _ (by decide)⟩ =
      (⟨(n + 1) % 128, Nat.mod_lt _ (by decide)⟩, ⟨(n + 1) / 128 % 8, Nat.mod_lt _ (by decide)⟩) := by
  unfold advance
  split_ifs with h1 h2
  · have h1 : n % 128 + 1 ≤ 127 := h1
    exact Prod.ext (Fin.ext (by dsimp; omega)) (Fin.ext (by dsimp; omega))
  · have h1 : ¬ n % 128 + 1 ≤ 127 := h1
    have h2 : n / 128 % 8 + 1 ≤ 7 := h2
    exact Prod.ext (Fin.ext (by dsimp; omega)) (Fin.ext (by dsimp; omega))
  · have h1 : ¬ n % 128 + 1 ≤ 127 := h1
    have h2 : ¬ n / 128 % 8 + 1 ≤ 7 := h2
    exact Prod.ext (Fin.ext (by dsimp; omega)) (Fin.ext (by dsimp; omega))

/-- A zero byte more. -/
theorem Cleared.putData {n : Nat} {r : Receiver} (h : Cleared n r) (hn : n < 1024) :
    Cleared (n + 1) (r.putData 0x00#8) := by
  have haddr : cellAddr ⟨n / 128 % 8, Nat.mod_lt _ (by decide)⟩ ⟨n % 128, Nat.mod_lt _ (by decide)⟩ = n := by
    simp only [cellAddr]; omega
  rw [putData_known h.am h.cs h.ce h.ps h.pe h.col h.page, advance_full, haddr]
  refine ⟨h.am, h.on, h.cs, h.ce, h.ps, h.pe, rfl, rfl, h.pending, fun a ha => ?_⟩
  rcases Nat.lt_succ_iff_lt_or_eq.1 ha with ha | rfl
  · exact (Memory.read_write_other r.gd _ ha.ne).trans (h.cells a ha)
  · exact Memory.read_write_same r.gd a _

/-- A data frame, nothing pending. -/
theorem takeFrame_data (hp : s.rx.pending = .known []) (v : Byte) :
    (takeFrame (dataFrame v) s).finish = exec (.data v) s := by
  rw [takeFrame_complete (i := .data v) (by rw [bytes_of_pending hp]; rfl), withPending_of_pending hp]

/-- Zero bytes fed one after another. -/
theorem feed_zeros (k n : Nat) (s : State) (hr : s.initReached = true) (h : Cleared n s.rx) (hk : n + k ≤ 1024) :
    ∃ r, feed (List.replicate k (dataFrame 0x00#8)) s = .next (s.withRx r) ∧ Cleared (n + k) r := by
  induction k generalizing n s with
  | zero => exact ⟨s.rx, rfl, h⟩
  | succ k ih =>
    obtain ⟨r, hfeed, hc⟩ := ih (n + 1) (s.withRx (s.rx.putData 0x00#8)) hr (h.putData (by omega)) (by omega)
    refine ⟨r, ?_, by rwa [Nat.add_right_comm, Nat.add_assoc] at hc⟩
    rw [List.replicate_succ, feed, takeFrame_data h.pending, exec_data, panelDo_reached hr]
    exact hfeed

/-- Settles O42: the commands set the panel up, and 1024 zero bytes fill it and bring the pointer home. -/
theorem initClearsPanel : Obligations.InitClearsPanel := by
  intro s ho hrom hr hp
  obtain ⟨-, hsetUp⟩ := feedsTo_setUp ho hr s.rx hp
  obtain ⟨r, hfeed, h⟩ := feed_zeros 1024 0 (s.withRx s.rx.setUp) hr (cleared_setUp hp) le_rfl
  have hinit : feed (initFrames s.cfg) s = .next (s.withRx r) := by
    rw [initFrames, hrom, ho]
    exact (hsetUp _).trans hfeed
  refine ⟨_, hinit, rfl, h.am, h.on, h.cs, h.ce, h.ps, h.pe, fun p c => ?_, h.col, h.page, h.pending⟩
  simp [Receiver.cell, h.cells _ (cellAddr_lt p c)]

end Sys2Proof.Machine

/-! ## The wire's encoding

The table of R160 is read twice: from the opcode to the command (`encodes_of_commandOf`) and from the command to its opcode
(`exists_opened_of_fits`). `decodeFrames_complete` says what a run that decodes begins with; the round trips follow. -/

namespace Sys2Proof.Machine

variable {o : Opcodes}

/-! ### The command table -/

/-- What an opcode begins, with as many argument bytes as it counts, is encoded as that opcode and those bytes. -/
theorem encodes_of_commandOf {v : Byte} {c : CommandShape} (h : commandOf o v = some c) {args : List Byte}
    (hn : args.length = c.args.val) :
    encode o (c.make args) = commandCode (v :: args) ∧ (c.make args).fits o = true := by
  unfold commandOf at h
  iterate 14
    rcases ite_eq_iff.1 h with ⟨rfl, hc⟩ | ⟨-, h⟩
    · cases hc
      exact ⟨rfl, beq_iff_eq.2 hn⟩
  iterate 2
    rcases ite_eq_iff.1 h with ⟨rfl, hc⟩ | ⟨-, h⟩
    · cases hc
      obtain ⟨a, b, rfl⟩ := List.length_eq_two.1 hn
      exact ⟨rfl, rfl⟩
  cases h

/-- A command that has the arguments its configuration counts is what its opcode begins (R110, R160). -/
theorem exists_opened_of_fits (ho : o.wellFormed = true) {i : Instr} (hi : isRequest i = false) (hf : i.fits o = true) :
    (∃ v, i = .data v) ∨ ∃ v args c, Opened o v args c 0 ∧ c.make args = i := by
  cases i with
  | data v => exact .inl ⟨v, rfl⟩
  | dispoff args => exact .inr ⟨_, args, _, ⟨commandOf_dispoff, (beq_iff_eq.1 hf).symm⟩, rfl⟩
  | dispon args => exact .inr ⟨_, args, _, ⟨commandOf_dispon ho, (beq_iff_eq.1 hf).symm⟩, rfl⟩
  | clkdiv args => exact .inr ⟨_, args, _, ⟨commandOf_clkdiv ho, (beq_iff_eq.1 hf).symm⟩, rfl⟩
  | chgpump args => exact .inr ⟨_, args, _, ⟨commandOf_chgpump ho, (beq_iff_eq.1 hf).symm⟩, rfl⟩
  | addrmode args => exact .inr ⟨_, args, _, ⟨commandOf_addrmode ho, (beq_iff_eq.1 hf).symm⟩, rfl⟩
  | segremap r args =>
    cases r
    · exact .inr ⟨_, args, _, ⟨commandOf_segremap_false ho, (beq_iff_eq.1 hf).symm⟩, rfl⟩
    · exact .inr ⟨_, args, _, ⟨commandOf_segremap_true ho, (beq_iff_eq.1 hf).symm⟩, rfl⟩
  | comscan d args =>
    cases d
    · exact .inr ⟨_, args, _, ⟨commandOf_comscan_false ho, (beq_iff_eq.1 hf).symm⟩, rfl⟩
    · exact .inr ⟨_, args, _, ⟨commandOf_comscan_true ho, (beq_iff_eq.1 hf).symm⟩, rfl⟩
  | compins args => exact .inr ⟨_, args, _, ⟨commandOf_compins ho, (beq_iff_eq.1 hf).symm⟩, rfl⟩
  | contrast args => exact .inr ⟨_, args, _, ⟨commandOf_contrast ho, (beq_iff_eq.1 hf).symm⟩, rfl⟩
  | prechg args => exact .inr ⟨_, args, _, ⟨commandOf_prechg ho, (beq_iff_eq.1 hf).symm⟩, rfl⟩
  | vcomdesel args => exact .inr ⟨_, args, _, ⟨commandOf_vcomdesel ho, (beq_iff_eq.1 hf).symm⟩, rfl⟩
  | resume args => exact .inr ⟨_, args, _, ⟨commandOf_resume ho, (beq_iff_eq.1 hf).symm⟩, rfl⟩
  | coladdr a b => exact .inr ⟨_, [a, b], _, ⟨commandOf_coladdr ho, rfl⟩, rfl⟩
  | pageaddr a b => exact .inr ⟨_, [a, b], _, ⟨commandOf_pageaddr ho, rfl⟩, rfl⟩
  | writeByte _ _ | init | setWindow | drawText _ _ _ => cases hi

/-! ### Frames and frame words -/

/-- The frames of a command's frame words. -/
theorem map_ofWord_command (bytes : List Byte) :
    (bytes.map fun v => Frame.toWord ⟨.command, v⟩).map Frame.ofWord = bytes.map cmdFrame := by
  simp [cmdFrame]

/-- A whole command decodes and leaves what follows it. -/
theorem decodeFrames_whole_append {v : Byte} {args : List Byte} {c : CommandShape} (h : Opened o v args c 0)
    (rest : List Frame) : decodeFrames o ((v :: args).map cmdFrame ++ rest) = .complete (c.make args) rest := by
  have ht : takeArgs args.length (args.map cmdFrame ++ rest) = .all args rest := takeArgs_commands args rest
  rw [decodeFrames_opcode h, Nat.add_zero, ht]
  rfl

/-- What a run of frames that decodes begins with: a data frame, or a whole command. -/
theorem decodeFrames_complete {fs rest : List Frame} {i : Instr} (h : decodeFrames o fs = .complete i rest) :
    (∃ v, i = .data v ∧ fs = dataFrame v :: rest)
      ∨ ∃ v args c, Opened o v args c 0 ∧ i = c.make args ∧ fs = (v :: args).map cmdFrame ++ rest := by
  unfold decodeFrames at h
  split at h
  next => cases h
  next v _ => cases h; exact .inl ⟨v, rfl, rfl⟩
  next v gs =>
    split at h
    next => cases h
    next c hc =>
      rcases takeArgs_cases c.args.val gs with ⟨args, rest', he, hn, hgs⟩ | ⟨_, _, he, -⟩ | ⟨he, -⟩ <;> rw [he] at h <;>
        cases h
      exact .inr ⟨v, args, c, ⟨hc, hn.symm⟩, rfl, congrArg (cmdFrame v :: ·) hgs⟩

/-- Settles O3: a data frame ends at once, and a command's opcode tells how many frames follow. -/
theorem wireSelfDelimiting : Obligations.WireSelfDelimiting := by
  intro o i ws rest ho hf he
  have hi : isRequest i = false := by
    cases i with
    | writeByte _ _ | init | setWindow | drawText _ _ _ => cases he
    | _ => rfl
  rcases exists_opened_of_fits ho hi hf with ⟨v, rfl⟩ | ⟨v, args, c, hopen, rfl⟩
  · cases he
    rw [List.map_singleton, Frame.ofWord_toWord]
    rfl
  · rw [(encodes_of_commandOf hopen.opcode hopen.count.symm).1] at he
    cases he
    rw [map_ofWord_command]
    exact decodeFrames_whole_append hopen rest

/-- Settles O4: the frames taken are a data frame, or an opcode and as many arguments as it counts. -/
theorem wireHasOneEncoding : Obligations.WireHasOneEncoding := by
  intro o fs rest i h
  rcases decodeFrames_complete h with ⟨v, rfl, rfl⟩ | ⟨v, args, c, hopen, rfl, rfl⟩
  · refine ⟨rfl, _, rfl, by simp, by simp, ?_⟩
    rw [List.map_singleton, Frame.ofWord_toWord]
    rfl
  · obtain ⟨he, hf⟩ := encodes_of_commandOf hopen.opcode hopen.count.symm
    have hn : c.args.val = args.length := hopen.count
    refine ⟨hf, _, he, ?_, ?_, by rw [map_ofWord_command]⟩
    · simp
    · simp only [List.length_map, List.length_cons]
      omega

end Sys2Proof.Machine

/-! ## The request words

`RequestForm` reads R102 to R105 as fields of a word. A word decodes to the request whose form it has (`decodeRequest_ok_iff`);
a form fixes the word (`encode_of_form`), every request's word has its form (`exists_form_word`), and the words of R108 are the
ones of no form. -/

namespace Sys2Proof.Machine

variable {w : Word} {i : Instr}

/-! ### The fields of a word -/

/-- A word from its four lanes (R62). -/
theorem ofLanes_byteLane (w : Word) : ofLanes (byteLane w 3) (byteLane w 2) (byteLane w 1) (byteLane w 0) = w := by
  simp only [ofLanes, byteLane]
  rw [BitVec.extractLsb'_append_extractLsb'_eq_extractLsb' (by rfl),
    BitVec.extractLsb'_append_extractLsb'_eq_extractLsb' (by rfl),
    BitVec.extractLsb'_append_extractLsb'_eq_extractLsb' (by rfl)]
  simp

/-- The byte P1 by which WRITE_BYTE gives its kind (R102). -/
def kindByte : Kind → Byte
  | .command => 0x00#8
  | .data => 0x01#8

/-- P1 is the kind's byte when its bits 7:1 are 0 and bit 0 is the kind (R102). -/
theorem byte_eq_kindByte_iff : ∀ (b : Byte) (k : Kind),
    b = kindByte k ↔ b.extractLsb' 1 7 = 0#7 ∧ b.getLsbD 0 = k.isData := by
  intro b k
  cases k <;> revert b <;> decide

/-- P1 by its bits. -/
theorem lane_two_eq_kindByte_iff (w : Word) (k : Kind) :
    byteLane w 2 = kindByte k ↔ w.extractLsb' 17 7 = 0#7 ∧ w.getLsbD 16 = k.isData := by
  have hp1 : (byteLane w 2).extractLsb' 1 7 = w.extractLsb' 17 7 :=
    BitVec.eq_of_getLsbD_eq fun i hi => by simp [byteLane, hi, ← Nat.add_assoc]; omega
  rw [byte_eq_kindByte_iff, hp1, byteLane, BitVec.getLsbD_extractLsb']
  rfl

/-- The lowest lane from RSV and OP (R100). -/
theorem lane_zero_of_op {n : BitVec 4} (rsv : w.extractLsb' 4 4 = 0#4) (op : w.extractLsb' 0 4 = n) :
    byteLane w 0 = 0#4 ++ n := by
  rw [← rsv, ← op, BitVec.extractLsb'_append_extractLsb'_eq_extractLsb' (by rfl)]
  rfl

/-- A word from RSV, OP and the operand bits above them (R100). -/
theorem eq_of_operands {n : BitVec 4} {a : BitVec 24} (rsv : w.extractLsb' 4 4 = 0#4) (op : w.extractLsb' 0 4 = n)
    (operands : w.extractLsb' 8 24 = a) : w = a ++ ((0#4 ++ n : Byte)) := by
  rw [← lane_zero_of_op rsv op, ← operands, byteLane, BitVec.extractLsb'_append_extractLsb'_eq_extractLsb' (by rfl)]
  simp

/-! ### The forms -/

/-- A word without reserved bits has the form of a request (R102 to R105). -/
inductive RequestForm (w : Word) : Instr → Prop where
  | writeByte (v : Byte) (k : Kind) (op : w.extractLsb' 0 4 = 0x1#4) (value : byteLane w 1 = v)
      (kind : byteLane w 2 = kindByte k) (p2 : byteLane w 3 = 0x00#8) : RequestForm w (.writeByte v k)
  | init (op : w.extractLsb' 0 4 = 0x2#4) (operands : w.extractLsb' 8 24 = 0#24) : RequestForm w .init
  | setWindow (op : w.extractLsb' 0 4 = 0x3#4) (operands : w.extractLsb' 8 24 = 0#24) : RequestForm w .setWindow
  | drawText (x y len : Byte) (op : w.extractLsb' 0 4 = 0x4#4) (p0 : byteLane w 1 = x) (p1 : byteLane w 2 = y)
      (p2 : byteLane w 3 = len) : RequestForm w (.drawText x y len)

/-- OP from its number, by which `decodeRequest` matches. -/
theorem op_of_toNat {n : Nat} (h : (w.extractLsb' 0 4).toNat = n) : w.extractLsb' 0 4 = BitVec.ofNat 4 n := by
  rw [← h, BitVec.ofNat_toNat, BitVec.setWidth_eq]

/-- A word decodes to the request whose form it has (R106). -/
theorem decodeRequest_ok_iff : decodeRequest w = .ok i ↔ w.extractLsb' 4 4 = 0#4 ∧ RequestForm w i := by
  constructor
  · intro h
    unfold decodeRequest at h
    split at h
    next => cases h
    next rsv =>
      refine ⟨not_not.1 rsv, ?_⟩
      split at h
      next op =>
        split at h <;> cases h
        next hp =>
          obtain ⟨p2, p1⟩ := hp
          refine .writeByte _ _ (op_of_toNat op) rfl ((lane_two_eq_kindByte_iff w _).2 ⟨p1, ?_⟩) p2
          cases w.getLsbD 16 <;> rfl
      next op => split at h <;> cases h; exact .init (op_of_toNat op) ‹_›
      next op => split at h <;> cases h; exact .setWindow (op_of_toNat op) ‹_›
      next op => cases h; exact .drawText _ _ _ (op_of_toNat op) rfl rfl rfl
      next => cases h
  · rintro ⟨rsv, form⟩
    rw [decodeRequest, if_neg (not_not.2 rsv)]
    cases form with
    | writeByte v k op value kind p2 =>
      obtain ⟨p1, bit⟩ := (lane_two_eq_kindByte_iff w k).1 kind
      have hp : w.extractLsb' 24 8 = 0#8 ∧ w.extractLsb' 17 7 = 0#7 := ⟨p2, p1⟩
      rw [op, value, bit]
      refine (if_pos hp).trans ?_
      cases k <;> rfl
    | init op operands => rw [op]; exact if_pos operands
    | setWindow op operands => rw [op]; exact if_pos operands
    | drawText x y len op p0 p1 p2 => rw [op, p0, p1, p2]; rfl

/-- A word of a form is the encoding of its request. -/
theorem encode_of_form (o : Opcodes) (rsv : w.extractLsb' 4 4 = 0#4) (form : RequestForm w i) :
    encode o i = .request w := by
  cases form with
  | writeByte v k op value kind p2 =>
    rw [← ofLanes_byteLane w, p2, kind, value, lane_zero_of_op rsv op]
    cases k <;> rfl
  | init op operands => rw [eq_of_operands rsv op operands]; rfl
  | setWindow op operands => rw [eq_of_operands rsv op operands]; rfl
  | drawText x y len op p0 p1 p2 =>
    rw [← ofLanes_byteLane w, p2, p1, p0, lane_zero_of_op rsv op]
    rfl

/-- A request is encoded as a word of its form. -/
theorem exists_form_word (o : Opcodes) (hi : isRequest i = true) :
    ∃ w, encode o i = .request w ∧ w.extractLsb' 4 4 = 0#4 ∧ RequestForm w i := by
  cases i with
  | writeByte v k =>
    refine ⟨ofLanes 0x00#8 (kindByte k) v 0x01#8, by cases k <;> rfl, extract_ofLanes_low _ _ _ _ (by decide), ?_⟩
    exact .writeByte v k (extract_ofLanes_low _ _ _ _ (by decide)) (by simp) (by simp) (by simp)
  | init => exact ⟨_, rfl, rfl, .init rfl rfl⟩
  | setWindow => exact ⟨_, rfl, rfl, .setWindow rfl rfl⟩
  | drawText x y len =>
    refine ⟨_, rfl, extract_ofLanes_low _ _ _ _ (by decide), ?_⟩
    exact .drawText x y len (extract_ofLanes_low _ _ _ _ (by decide)) (by simp) (by simp) (by simp)
  | _ => cases hi

/-- A request's word decodes to it. -/
theorem exists_word_decodes (o : Opcodes) (hi : isRequest i = true) :
    ∃ w, encode o i = .request w ∧ decodeRequest w = .ok i := by
  obtain ⟨w, he, hform⟩ := exists_form_word o hi
  exact ⟨w, he, decodeRequest_ok_iff.2 hform⟩

/-- Settles O5: the word decodes to the request of its form, which fixes it. -/
theorem requestWordsUnique : Obligations.RequestWordsUnique := by
  intro o w i h
  obtain ⟨rsv, form⟩ := decodeRequest_ok_iff.1 h
  exact ⟨isRequest_of_decodeRequest h, encode_of_form o rsv form⟩

/-- Settles O2: a request by its word's form, and an instruction of the wire as the case of O3 where nothing follows. -/
theorem decodeEncode : Obligations.DecodeEncode := by
  intro o ho i hf
  by_cases hi : isRequest i = true
  · obtain ⟨w, he, hd⟩ := exists_word_decodes o hi
    rw [he]
    exact hd
  · obtain ⟨ws, he⟩ : ∃ ws, encode o i = .wire ws := by
      cases i with
      | writeByte _ _ | init | setWindow | drawText _ _ _ => exact absurd rfl hi
      | _ => exact ⟨_, rfl⟩
    have hd := wireSelfDelimiting o i ws [] ho hf he
    rw [List.append_nil] at hd
    rw [he, decode, hd]

/-- Settles O59: the expansion is the write of the request's word. -/
theorem mnemonicsAssemble : Obligations.MnemonicsAssemble := by
  intro i hi
  obtain ⟨w, he, hd⟩ := exists_word_decodes Opcodes.default hi
  refine ⟨w, ?_, hd⟩
  simp only [Pseudo.expand, requestWord, he]
  rfl

/-! ### The words of R108 -/

/-- No word of a form is one that R108 calls illegal. -/
theorem not_illegalWord_of_form (rsv : w.extractLsb' 4 4 = 0#4) (form : RequestForm w i) : ¬ illegalWord w := by
  cases form with
  | writeByte v k op value kind p2 => cases k <;> simp [illegalWord, rsv, op, kind, kindByte, p2]
  | init op operands => simp [illegalWord, rsv, op, operands]
  | setWindow op operands => simp [illegalWord, rsv, op, operands]
  | drawText x y len op p0 p1 p2 => simp [illegalWord, rsv, op]

/-- The four OPs of a request (R101). -/
theorem op_cases : ∀ n : BitVec 4, n ≠ 0x0#4 → ¬ 0x5#4 ≤ n → n = 0x1#4 ∨ n = 0x2#4 ∨ n = 0x3#4 ∨ n = 0x4#4 := by
  decide

/-- Every word that R108 does not call illegal has the form of a request. -/
theorem exists_form_of_not_illegalWord (h : ¬ illegalWord w) : w.extractLsb' 4 4 = 0#4 ∧ ∃ i, RequestForm w i := by
  simp only [illegalWord, not_or, not_and, not_not] at h
  obtain ⟨rsv, hzero, hfive, hbyte, hplain⟩ := h
  refine ⟨rsv, ?_⟩
  rcases op_cases _ hzero hfive with op | op | op | op
  · obtain ⟨p1, p2⟩ := hbyte op
    rcases or_iff_not_imp_left.2 p1 with kind | kind
    · exact ⟨_, .writeByte _ .command op rfl kind p2⟩
    · exact ⟨_, .writeByte _ .data op rfl kind p2⟩
  · exact ⟨_, .init op (hplain (.inl op))⟩
  · exact ⟨_, .setWindow op (hplain (.inr op))⟩
  · exact ⟨_, .drawText _ _ _ op rfl rfl rfl⟩

/-- A word that is no request, written to REQ of an idle block (R108). -/
theorem hostWrite_req_error (h : ∀ i, decodeRequest w ≠ .ok i) : hostWrite false Offset.req 2#2 w = .raise .op := by
  cases hd : decodeRequest w with
  | ok i => exact absurd hd (h i)
  | error e => simp [hostWrite, aligned, Offset.req, hd]

/-- Settles O6: at rest the step is the host's share, and the word written has a form or is one of R108. -/
theorem illegalWordsRaiseErrOp : Obligations.IllegalWordsRaiseErrOp := by
  intro s w h hin
  have hi : s.inputs = .writeWord Offset.req w := hin
  have hs : step s = ((hostWrite false Offset.req 2#2 w).event s.presented).finish := by
    rw [step_atRest h (by rw [hi]; rfl), hi, hostAction_writeWord]
  rw [hs]
  constructor
  · intro hw
    have hn : ∀ i, decodeRequest w ≠ .ok i := fun i hd =>
      have ⟨rsv, form⟩ := decodeRequest_ok_iff.1 hd
      not_illegalWord_of_form rsv form hw
    rw [hostWrite_req_error hn]
    rfl
  · intro hw
    obtain ⟨rsv, i, form⟩ := exists_form_of_not_illegalWord hw
    have hd : decodeRequest w = .ok i := decodeRequest_ok_iff.2 ⟨rsv, form⟩
    refine ⟨i, isRequest_of_decodeRequest hd, hd, ?_⟩
    rw [hostWrite_req hd]
    rfl

end Sys2Proof.Machine

/-! ## The host's operations and the assembler -/

namespace Sys2Proof.Machine

variable {s t u : State}

/-! ### What the host goes on with -/

/-- The host's share of an edge leaves the host's side. -/
theorem hostShare_host {busy : Bool} (h : HostShare busy u t) : t.host = u.host := by
  cases h with
  | store => rfl
  | accept => exact accept_host ..

/-- A step leaves the host with its operation done. -/
theorem step_host (h : step s = .next t) : t.host = s.retire := by
  rcases step_cases h with ⟨-, rfl⟩ | ⟨hr, -⟩
  · rfl
  · obtain ⟨r, -, hs⟩ := step_shares hr h
    exact hostShare_host hs

/-- Settles O33: a step leaves what `State.retire` says, operation by operation. -/
theorem hostGoesOn : Obligations.HostGoesOn := by
  intro s t op rest hp h
  rw [step_host h, State.retire, hp]
  refine ⟨?_, fun hn => ?_⟩
  · rintro off mask val rfl
    rw [State.inputs, hp]
    rfl
  · cases op with
    | poll off mask val => exact absurd rfl (hn off mask val)
    | port _ | sw _ _ | lw _ _ => rfl

/-! ### The words and the characters of the spec -/

/-- Settles O1: the decoder run on each word. -/
theorem decodesSpecWords : Obligations.DecodesSpecWords :=
  ⟨rfl, rfl, rfl, rfl, rfl, rfl, rfl, rfl, rfl⟩

/-- The characters that have a glyph, in the order of their indices (R115). -/
def alphabet : List Char := "0123456789ABCDEFGHIJKLMNOPQRSTUVWXYZ.: %".toList

/-- The digits and the letters stand in the order of their codes. -/
theorem alphabet_digit {n : Nat} (hn : n < 10) : alphabet[n]? = some (Char.ofNat ('0'.toNat + n)) := by
  interval_cases n <;> rfl
theorem alphabet_letter {n : Nat} (hn : n < 26) : alphabet[10 + n]? = some (Char.ofNat ('A'.toNat + n)) := by
  interval_cases n <;> rfl

/-- A character from its distance to the first of its range. -/
theorem ofNat_add_sub_toNat {first c : Char} (h : first.toNat ≤ c.toNat) :
    Char.ofNat (first.toNat + (c.toNat - first.toNat)) = c := by
  rw [Nat.add_sub_cancel' h, Char.ofNat_toNat]

/-- A character's index is its place in the alphabet. -/
theorem alphabet_charIndex {c : Char} {i : Byte} (h : charIndex c = some i) : alphabet[i.toNat]? = some c := by
  unfold charIndex at h
  split at h
  next hc =>
    have hn : c.toNat - '0'.toNat < 10 := Nat.lt_of_le_of_lt (Nat.sub_le_sub_right hc.2 _) (by decide)
    cases h
    rw [BitVec.toNat_ofNat, Nat.mod_eq_of_lt (by omega), alphabet_digit hn, ofNat_add_sub_toNat hc.1]
  next =>
    split at h
    next hc =>
      have hn : c.toNat - 'A'.toNat < 26 := Nat.lt_of_le_of_lt (Nat.sub_le_sub_right hc.2 _) (by decide)
      cases h
      rw [BitVec.toNat_ofNat, Nat.mod_eq_of_lt (by omega), alphabet_letter hn, ofNat_add_sub_toNat hc.1]
    next =>
      split_ifs at h
      all_goals
        subst c
        cases h
        rfl

/-- Settles O58: the values read off the definition; by `alphabet_charIndex` an index is below the alphabet's length and
gives its character back. -/
theorem characterIndices : Obligations.CharacterIndices := by
  have hlt : ∀ c i, charIndex c = some i → i.toNat < 40 := fun c i h =>
    (List.getElem?_eq_some_iff.1 (alphabet_charIndex h)).1
  refine ⟨fun c h0 h9 => if_pos ⟨h0, h9⟩, fun c hA hZ => ?_, rfl, rfl, rfl, rfl, hlt, fun c d i hc hd => ?_⟩
  · have hdigit : ¬ ('0'.toNat ≤ c.toNat ∧ c.toNat ≤ '9'.toNat) := fun h => absurd (hA.trans h.2) (by decide)
    rw [charIndex, if_neg hdigit, if_pos ⟨hA, hZ⟩]
  · exact Option.some.inj ((alphabet_charIndex hc).symm.trans (alphabet_charIndex hd))

end Sys2Proof.Machine

/-! ## Requests while BUSY, the pins of a frame, and a frame as one engine step

The pins of a shift, a settle interval and a release are those of the transport's registers (`pins_shift`,
`pins_afterShift`), so the waveform follows the transport's edges. `State.stepDue` is the engine step that the frame on the
transport comes to; it stands still up to the release cycle, whose edge then makes it. -/

namespace Sys2Proof.Machine

variable {s t u : State}

/-! ### Requests while BUSY -/

/-- Settles O16: every request comes to a plan, and a busy block refuses any plan; for an INIT before it looks at the ROM. -/
theorem busyDiscardsRequests : Obligations.BusyDiscardsRequests := by
  intro i s hi hb
  cases i with
  | writeByte v k => rw [exec, execWriteByte, perform_busy _ _ hb]
  | init => rw [exec, execInit, hb, Bool.true_or, if_pos rfl, perform_busy _ _ hb]
  | setWindow => rw [exec, execSetWindow, perform_busy _ _ hb]
  | drawText x y len => rw [exec, execDrawText, perform_busy _ _ hb]
  | _ => cases hi

/-! ### The pins of the transport's registers -/

/-- The pins in a cycle of the shift. -/
theorem pins_shift (h : PinsOk s) (ht : s.tx.tstate = .shift) :
    s.pins = ⟨false, s.tx.fk.isData, decide (s.tx.ph = .hi), s.tx.sh.getLsbD s.tx.nb.val⟩ := by
  have hcs : s.pins.csN = false := by simpa [ht] using h.csN
  have hdc : s.pins.dc = s.tx.fk.isData := h.dcFrame (by simp [ht])
  have hsclk : s.pins.sclk = decide (s.tx.ph = .hi) := by
    rw [Bool.eq_iff_iff, h.sclk]; simp [ht]
  rw [← hcs, ← hdc, ← hsclk, ← h.mosiShift ht]

/-- The pins after the shift: `cs_n` tells the release cycle from the settle interval. -/
theorem pins_afterShift (h : Inv s) (ht : s.tx.tstate = .settle ∨ s.tx.tstate = .rel) :
    s.pins = ⟨decide (s.tx.tstate = .rel), s.tx.fk.isData, false, s.tx.sh.getLsbD 0⟩ := by
  have hcs : s.pins.csN = decide (s.tx.tstate = .rel) := by
    rw [Bool.eq_iff_iff, h.pins.csN]; rcases ht with ht | ht <;> simp [ht]
  have hdc : s.pins.dc = s.tx.fk.isData := h.pins.dcFrame (by rcases ht with ht | ht <;> simp [ht])
  have hsclk : s.pins.sclk = false := by
    rw [← Bool.not_eq_true, h.pins.sclk]; rcases ht with ht | ht <;> simp [ht]
  have hmosi : s.pins.mosi = s.tx.sh.getLsbD 0 := by
    rcases ht with ht | ht
    · exact h.pins.mosiSettle ht
    · rw [h.pins.mosiBetween (.inr (.inl ht)), mosiAfter, h.counters.released ht]
  rw [← hcs, ← hdc, ← hsclk, ← hmosi]

/-! ### The waveform -/

/-- A cycle of a busy block, no reset ahead: from `s` to `t`, whose transport has the registers `tx`. -/
structure Cycle (s t : State) (tx : Transport) : Prop where
  step : step s = .next t
  inv : Inv t
  noResetAhead : t.noResetAhead
  tx : t.tx = tx
  settle : t.regs.settle = s.regs.settle

/-- Every cycle of a busy block takes the transport over its edge, whatever the host does in it. -/
theorem exists_cycle (h : Inv s) (hn : s.noResetAhead) (ht : s.tx.tstate ≠ .idle) :
    ∃ t, Cycle s t (transportEdge s).1.tx := by
  obtain ⟨b, r, hs⟩ := busy_step hn (h.block.busy_iff.2 ht)
  obtain ⟨-, -, -, -, -, -, hsettle, -⟩ := transportEdge_frame s
  exact ⟨_, hs, stepKeepsInv s _ h hs, noResetAhead_retire hn rfl, rfl, hsettle⟩

theorem Cycle.pinsOver {tx : Transport} (h : Cycle s t tx) (n : Nat) : pinsOver (n + 1) s = t.pins :: pinsOver n t := by
  rw [Machine.pinsOver, h.step]

/-- The two cycles of a bit (R142), where an edge brings the transport to its LO phase. -/
theorem Cycle.pinsOver_bit {tx : Transport} (h : Cycle s t tx) (ht : tx.tstate = .shift) (hp : tx.ph = .lo) :
    ∃ u, Cycle t u { tx with ph := .hi }
      ∧ ∀ k, Machine.pinsOver (k + 2) s = ⟨false, tx.fk.isData, false, tx.sh.getLsbD tx.nb.val⟩
          :: ⟨false, tx.fk.isData, true, tx.sh.getLsbD tx.nb.val⟩ :: Machine.pinsOver k u := by
  obtain rfl := h.tx
  obtain ⟨u, hu⟩ := exists_cycle h.inv h.noResetAhead (by simp [ht])
  rw [transportEdge_lo ht hp, clockHigh_tx] at hu
  refine ⟨u, hu, fun k => ?_⟩
  rw [h.pinsOver, hu.pinsOver, pins_shift h.inv.pins ht, pins_shift hu.inv.pins (by rw [hu.tx]; exact ht), hu.tx]
  simp [hp]

/-- From the HI phase of bit n: the bits below it, and then `sclk` low again. -/
theorem pinsOver_hi (n : Nat) (s : State) (h : Inv s) (hn : s.noResetAhead) (ht : s.tx.tstate = .shift)
    (hp : s.tx.ph = .hi) (hb : s.tx.nb.val = n) :
    pinsOver (2 * n + 1) s = shiftPins s.tx.fk.isData s.tx.sh n
      ++ [⟨decide (s.regs.settle = 0#32), s.tx.fk.isData, false, s.tx.sh.getLsbD 0⟩] := by
  induction n generalizing s with
  | zero =>
    obtain ⟨t, hc⟩ := exists_cycle h hn (by simp [ht])
    rw [transportEdge_last ht hp hb] at hc
    rcases endShift_cases s with ⟨h0, e⟩ | ⟨h0, e⟩ <;> rw [e] at hc
    · rw [hc.pinsOver, pins_afterShift hc.inv (.inr (by rw [hc.tx]; rfl)), hc.tx]
      simp [h0, shiftPins, pinsOver]
    · rw [hc.pinsOver, pins_afterShift hc.inv (.inl (by rw [hc.tx])), hc.tx]
      simp [h0, shiftPins, pinsOver]
  | succ n ih =>
    obtain ⟨t, hc⟩ := exists_cycle h hn (by simp [ht])
    rw [transportEdge_hi ht hp (by omega), nextBit_tx] at hc
    obtain ⟨u, hu, hbit⟩ := hc.pinsOver_bit ht rfl
    have hrest := ih u hu.inv hu.noResetAhead (by rw [hu.tx]; exact ht) (by rw [hu.tx]) (by rw [hu.tx]; simp [hb])
    rw [show 2 * (n + 1) + 1 = 2 * n + 1 + 2 by omega, hbit, hrest, hu.settle, hc.settle, hu.tx]
    simp [shiftPins, hb]

/-- Settles O43: the select cycle's edge begins bit 7, and `pinsOver_hi` goes on from its HI phase. -/
theorem shiftWaveform : Obligations.ShiftWaveform := by
  intro s h ht hn
  have hdc : s.pins.dc = s.tx.fk.isData := h.pins.dcFrame (by simp [ht])
  have hnb : s.tx.nb.val = 7 := congrArg Fin.val (h.counters.select ht).1
  obtain ⟨t, hc⟩ := exists_cycle h hn (by simp [ht])
  rw [transportEdge_dc ht, startShift_tx] at hc
  obtain ⟨u, hu, hbit⟩ := hc.pinsOver_bit rfl rfl
  have hrest := pinsOver_hi 7 u hu.inv hu.noResetAhead (by rw [hu.tx]) (by rw [hu.tx]) (by rw [hu.tx]; exact hnb)
  rw [hbit, hrest, hu.settle, hc.settle, hu.tx, hdc, hnb]
  rfl

/-- Settles O44, by induction on `sc`: the interval goes on while `sc` is not 1, and then the frame is released. -/
theorem settleWaveform : Obligations.SettleWaveform := by
  intro s n h ht hsc hn
  have hdc : s.pins.dc = s.tx.fk.isData := h.pins.dcFrame (by simp [ht])
  rw [hdc]
  induction n generalizing s with
  | zero => exact absurd (h.counters.settle ht).1 (by omega)
  | succ n ih =>
    obtain ⟨t, hc⟩ := exists_cycle h hn (by simp [ht])
    rw [transportEdge_settle ht, settleEdge] at hc
    split at hc
    next h1 =>
      have hn0 : n = 0 := by simpa [h1] using hsc.symm
      subst n
      rw [hc.pinsOver, pins_afterShift hc.inv (.inr (by rw [hc.tx]; rfl)), hc.tx]
      rfl
    next h1 =>
      have htx := hc.tx
      have htt : t.tx.tstate = .settle := by rw [htx]; exact ht
      have hn0 : n ≠ 0 := fun h0 => h1 (BitVec.eq_of_toNat_eq (by rw [hsc, h0]; rfl))
      obtain ⟨m, rfl⟩ := Nat.exists_eq_succ_of_ne_zero hn0
      have hsct : t.tx.sc.toNat = m + 1 := by rw [htx]; simp only [toNat_sub_one (h.counters.settle ht).1]; omega
      have hrest := ih t hc.inv htt hsct hc.noResetAhead (hc.inv.pins.dcFrame (by simp [htt]))
      rw [hc.pinsOver, hrest, pins_afterShift hc.inv (.inl htt), htx]
      simp [ht, List.replicate_succ]

/-! ### The engine step of a frame -/

/-- The end of a request whose frames are all sent, at transaction level (R133, R167). -/
def Dpe.endIfSent (d : Dpe) : Dpe :=
  if d.eng.pos = d.eng.frames.length then
    { d with
      regs := { d.regs with initDone := if d.eng.curOp = some .init then true else d.regs.initDone }
      eng := { d.eng with curOp := none } }
  else d

/-- The engine step: the frame is sent, and the request ends if it was the last. -/
theorem engineStep_eq {d : Dpe} {f : Frame} (hb : d.busy = true) (hf : d.eng.frames[d.eng.pos]? = some f) :
    d.engineStep = some ({ d.emit f with eng := { d.eng with pos := d.eng.pos + 1 } } : Dpe).endIfSent := by
  simp only [Dpe.engineStep, hb, hf, if_true]
  exact (apply_ite some ..).symm

/-- What the frame on the transport comes to at transaction level: the engine step, and in the release cycle, the frame sent
already, what is left of it. -/
def State.stepDue (s : State) : Option Dpe := if s.frameOnWire then s.txn.engineStep else some s.txn.endIfSent

/-- The step due is read off the engine, the registers, the trace and whether the frame is on the wire. -/
theorem stepDue_of_eq (heng : u.eng = s.eng) (hregs : u.regs = s.regs) (htrace : u.trace = s.trace)
    (hw : u.frameOnWire = s.frameOnWire) : u.stepDue = s.stepDue := by
  simp only [State.stepDue, State.txn, State.completed, heng, hregs, htrace, hw]

/-- The release sends the frame, the first part of the engine step. -/
theorem release_stepDue (he : EngineOk s) (hb : s.busy = true) (hw : s.frameOnWire = true) :
    (release s).1.stepDue = s.stepDue := by
  obtain ⟨hpos, -⟩ := he.pos hb
  have hbt : s.txn.busy = true := hb
  have hf : s.txn.eng.frames[s.txn.eng.pos]? = some ⟨s.tx.fk, s.tx.sh⟩ := by
    simpa [State.txn, State.completed, hw] using he.current hb
  have hrel : (release s).1.frameOnWire = false := rfl
  rw [State.stepDue, State.stepDue, hrel, hw, if_pos rfl, engineStep_eq hbt hf]
  simp [State.txn, State.completed, hw, hrel, Dpe.emit, Nat.sub_add_cancel hpos]

/-- The edge out of T_REL is the rest of the engine step. -/
theorem afterRelease_txn (h : BlockOk s) (ht : s.tx.tstate = .rel) : (afterRelease s).txn = s.txn.endIfSent := by
  have hw : s.frameOnWire = false := by simp [State.frameOnWire, ht]
  obtain ⟨-, hle⟩ := h.engine.pos (h.busy_iff.2 (by simp [ht]))
  rcases afterRelease_cases s with ⟨f, hf, e⟩ | ⟨hge, e⟩ <;> rw [e]
  · have hlt : s.eng.pos < s.eng.frames.length := (List.getElem?_eq_some_iff.1 hf).1
    simp [State.txn, State.completed, State.frameOnWire, ht, Dpe.endIfSent, hlt.ne]
  · simp [State.txn, State.completed, State.frameOnWire, ht, Dpe.endIfSent, Nat.le_antisymm hle hge]

theorem BlockOk.busy_of_frameOnWire (h : BlockOk s) (hw : s.frameOnWire = true) : s.busy = true :=
  h.busy_iff.2 fun ht => by simp [State.frameOnWire, ht] at hw

/-- Every edge of a frame on the wire leaves the step due. -/
theorem transportEdge_stepDue (h : BlockOk s) (hw : s.frameOnWire = true) :
    (transportEdge s).1.stepDue = s.stepDue := by
  have hb := h.busy_of_frameOnWire hw
  rcases transportEdge_cases s with ⟨-, e⟩ | ⟨-, e⟩ | ⟨-, -, e⟩ | ⟨-, -, -, e⟩ | ⟨-, -, -, e⟩ | ⟨-, e⟩ | ⟨hr, -⟩
  · rw [e]
  · rw [e]; exact stepDue_of_eq rfl rfl rfl (by rw [hw]; rfl)
  · rw [e]; exact stepDue_of_eq rfl rfl rfl rfl
  · rw [e]; exact stepDue_of_eq rfl rfl rfl rfl
  · rw [e]
    rcases endShift_cases s with ⟨-, e⟩ | ⟨-, e⟩ <;> rw [e]
    · exact release_stepDue (h.engine.of_eq rfl rfl rfl rfl) hb hw
    · exact stepDue_of_eq rfl rfl rfl (by rw [hw]; rfl)
  · rw [e, settleEdge]
    split
    · exact release_stepDue h.engine hb hw
    · exact stepDue_of_eq rfl rfl rfl rfl
  · simp [State.frameOnWire, hr] at hw

/-- Every edge of a frame on the wire takes one cycle off the frame and leaves the engine. -/
theorem transportEdge_frameCyclesLeft (h : BlockOk s) (hw : s.frameOnWire = true) :
    (transportEdge s).1.eng = s.eng ∧ (transportEdge s).1.frameCyclesLeft + 1 = s.frameCyclesLeft := by
  have hb := h.busy_of_frameOnWire hw
  rcases transportEdge_engine s with ⟨heng, -⟩ | ⟨hr, -⟩
  · have hbu : (transportEdge s).1.busy = true := by rw [State.busy, heng]; exact hb
    obtain ⟨-, -, -, -, -, -, hsettle, -⟩ := transportEdge_frame s
    have hc := (transportEdge_advances h hb).cycles
    rw [cyclesLeft_busy hb, cyclesLeft_busy hbu, heng, hsettle] at hc
    exact ⟨heng, by omega⟩
  · simp [State.frameOnWire, hr] at hw

/-! ### A frame without host access -/

/-- With no host operation to come a step is the wire's share alone. -/
theorem step_noHost (hp : s.host.program = []) : ∃ r, step s = .next (s.afterWire r) := by
  have hi : s.inputs = .idle := by simp [State.inputs, hp]
  obtain ⟨r, -, hs⟩ := step_beside (s := s) (by rw [hi]; rfl)
  rw [hi] at hs
  exact ⟨r, hs⟩

theorem retire_noHost (hp : s.host.program = []) : s.retire.program = [] := by simp [State.retire, hp]

/-- A running request has a frame on the wire or is in a release cycle. -/
theorem BlockOk.rel_or_frameOnWire (h : BlockOk s) (hb : s.busy = true) : s.tx.tstate = .rel ∨ s.frameOnWire = true := by
  rw [frameOnWire_iff]
  cases ht : s.tx.tstate with
  | idle => exact absurd ht (h.busy_iff.1 hb)
  | _ => simp

/-- The cycles left of a frame come to the next frame's select cycle or to rest, and make the step due. -/
theorem run_frameCyclesLeft (k : Nat) (s : State) (h : Inv s) (hb : s.busy = true) (hp : s.host.program = [])
    (hk : s.frameCyclesLeft = k) :
    ∃ t : State, Sys2Proof.core.run k s = .next t ∧ s.stepDue = some t.txn
      ∧ (t.tx.tstate = .dc ∨ t.tx.tstate = .idle) ∧ t.host.program = [] := by
  induction k generalizing s with
  | zero =>
    rcases h.block.rel_or_frameOnWire hb with ht | hw
    · simp [State.frameCyclesLeft, ht] at hk
    · have hc := (transportEdge_frameCyclesLeft h.block hw).2
      omega
  | succ k ih =>
    obtain ⟨r, hs⟩ := step_noHost hp
    rcases h.block.rel_or_frameOnWire hb with ht | hw
    · have hk0 : k = 0 := by simpa [State.frameCyclesLeft, ht] using hk.symm
      subst k
      have hedge : (transportEdge s).1 = afterRelease s := congrArg Prod.fst (transportEdge_rel ht)
      have hdue : s.stepDue = some s.txn.endIfSent := by simp [State.stepDue, State.frameOnWire, ht]
      refine ⟨_, core_run_succ 0 hs, ?_, ?_, retire_noHost hp⟩
      · rw [hdue, ← afterRelease_txn h.block ht, ← hedge]
        rfl
      · rw [State.afterWire, hedge]
        rcases afterRelease_cases s with ⟨f, -, e⟩ | ⟨-, e⟩ <;> rw [e]
        · exact .inl rfl
        · exact .inr rfl
    · obtain ⟨heng, hc⟩ := transportEdge_frameCyclesLeft h.block hw
      have hbt : (transportEdge s).1.busy = true := by rw [State.busy, heng]; exact hb
      have hct : (transportEdge s).1.frameCyclesLeft = k := by omega
      obtain ⟨t, hrun, hdue, hend⟩ := ih (s.afterWire r) (stepKeepsInv s _ h hs) hbt (retire_noHost hp) hct
      exact ⟨t, (core_run_succ k hs).trans hrun, (transportEdge_stepDue h.block hw).symm.trans hdue, hend⟩

/-- Settles O45: in the select cycle `18 + SETTLE` cycles of the frame are left and the whole engine step is due. -/
theorem frameIsEngineStep : Obligations.FrameIsEngineStep := by
  intro s h ht hp
  have hdue : s.stepDue = s.txn.engineStep := by simp [State.stepDue, State.frameOnWire, ht]
  rw [← hdue]
  exact run_frameCyclesLeft _ s h (h.block.busy_iff.2 (by simp [ht])) hp (by simp [State.frameCyclesLeft, ht])

end Sys2Proof.Machine

/-! ## The controller's requests, and the one step that is refused

A request goes on but for an INIT of other hardware (`exec_request_outcome`), and so does every step. A request other than
WRITE_BYTE sends one shape of frame list: the power-up bytes in an INIT, the window it records, and data
(`requestPlan_start_frames`). -/

namespace Sys2Proof.Machine

variable {s t : State}

/-! ### INIT of other hardware -/

/-- Settles O12: the check of `INIT_ROM` at an idle block. -/
theorem initRefusesOtherHardware : Obligations.InitRefusesOtherHardware := by
  intro s hb hrom
  have hcheck : ¬ (s.busy || s.cfg.initRomOk) = true := by simp [hb, hrom]
  rw [exec, execInit, if_neg hcheck]

/-- A request goes on, or is the INIT of an idle block under another hardware's `INIT_ROM` (R162). -/
theorem exec_request_outcome {i : Instr} (hi : isRequest i = true) (s : State) :
    (∃ t, exec i s = .next t)
    ∨ (i = .init ∧ s.busy = false ∧ s.cfg.initRomOk = false ∧ exec i s = .refused .notThisHardware) := by
  cases i with
  | writeByte v k => exact .inl ⟨_, rfl⟩
  | setWindow => exact .inl ⟨_, rfl⟩
  | drawText x y len => exact .inl ⟨_, rfl⟩
  | init =>
    by_cases hcheck : (s.busy || s.cfg.initRomOk) = true
    · exact .inl ⟨_, if_pos hcheck⟩
    · obtain ⟨hb, hrom⟩ : s.busy = false ∧ s.cfg.initRomOk = false := by simpa using hcheck
      exact .inr ⟨rfl, hb, hrom, initRefusesOtherHardware s hb hrom⟩
  | _ => cases hi

/-- A request is judged only where the port is selected for a write (R40). -/
theorem hostAction_request_write {busy : Bool} {p : PortCycle} {i : Instr} (h : hostAction busy p = .request i) :
    p.sel = true ∧ p.we = true := by
  unfold hostAction at h
  split at h
  next hwrite => exact Bool.and_eq_true_iff.1 hwrite
  next => cases h

/-- Settles O9: reset and the wire's share go on, the host's stores too, and of its requests all but INIT. -/
theorem stepStopsOnlyForOtherHardware : Obligations.StepStopsOnlyForOtherHardware := by
  intro s
  cases hr : s.inputs.rst with
  | true => exact .inl ⟨_, step_reset hr⟩
  | false =>
    obtain ⟨r, hs, -⟩ := step_run hr
    by_cases hq : ∃ i, hostAction s.busy s.inputs = .request i
    · obtain ⟨i, ha⟩ := hq
      obtain ⟨hb, hd, haddr, halign⟩ := hostAction_request ha
      obtain ⟨hsel, hwe⟩ := hostAction_request_write ha
      have hsize : s.inputs.size = 2#2 := ((aligned_iff _ _).1 halign).1
      have hcfg : ((transportEdge s.presented).1.withRx r).cfg = s.cfg := (transportEdge_frame s.presented).1
      rw [ha] at hs
      rcases exec_request_outcome (isRequest_of_decodeRequest hd) ((transportEdge s.presented).1.withRx r) with
        ⟨t, ht⟩ | ⟨rfl, -, hrom, href⟩
      · exact .inl ⟨t, hs.trans ht⟩
      · exact .inr ⟨hs.trans href, hcfg ▸ hrom, hb, rfl, hsel, hwe, haddr, hsize, hd⟩
    · exact .inl ⟨_, hs.trans (event_regs _ _ fun i hi => hq ⟨i, hi⟩)⟩

/-! ### SET_WINDOW -/

/-- Settles O13: the plan of SET_WINDOW started, WIN taken lane by lane. -/
theorem setWindowAccepted : Obligations.SetWindowAccepted := by
  intro s hb
  have he : exec .setWindow s = .next (perform (planSetWindow s.cfg s.regs.win) s) := rfl
  rw [he, planSetWindow, perform_start s _ hb]
  rfl

/-- Settles O18: the frames of `setWindowAccepted` name WIN and the two opcodes alone. -/
theorem setWindowPure : Obligations.SetWindowPure := by
  intro s s' hb hb' hwin hcol hpage
  refine ⟨_, _, setWindowAccepted s hb, setWindowAccepted s' hb', ?_⟩
  simp only [hwin, hcol, hpage]

/-! ### Command bytes -/

/-- The window command of a window recorded in CURWIN is that of its four columns and pages (R31, R169). -/
theorem setWindowFrames_windowWord (cfg : Params) (a b c d : Byte) :
    setWindowFrames cfg (windowWord a b c d) = windowFrames cfg.opc a b c d := by
  simp [setWindowFrames, windowWord]

/-- The frames of a run of glyphs are Data frames (R196). -/
theorem exists_glyph_bytes (cfg : Params) (run : List (Fin 41)) :
    ∃ pixels : List Byte, run.flatMap (glyphFrames cfg) = pixels.map dataFrame := by
  refine ⟨run.flatMap fun i => (List.finRange 6).map (glyphRead cfg i), ?_⟩
  rw [List.map_flatMap]
  exact List.flatMap_congr fun i _ => by rw [glyphFrames, List.map_map]; rfl

/-- What a request other than WRITE_BYTE sends: the power-up bytes if it is an INIT, the command of the window it records,
and data bytes (R166, R169, R196). -/
theorem requestPlan_start_frames {cfg : Params} {r : Regs} {i : Instr} {l : Launch} (hi : ∀ v k, i ≠ .writeByte v k)
    (h : requestPlan cfg r i = some (.start l)) :
    ∃ (w : Word) (powerUp pixels : List Byte), l.note = .record w
      ∧ l.frames = powerUp.map cmdFrame ++ setWindowFrames cfg w ++ pixels.map dataFrame
      ∧ (powerUp = [] ∨ i = .init ∧ powerUp = cfg.initRom) := by
  cases i with
  | writeByte v k => exact absurd rfl (hi v k)
  | init =>
    simp only [requestPlan] at h
    split at h <;> cases h
    refine ⟨_, cfg.initRom, List.replicate Config.clearBytes 0x00#8, rfl, ?_, .inr ⟨rfl, rfl⟩⟩
    rw [setWindowFrames_windowWord, List.map_replicate]
    rfl
  | setWindow =>
    cases h
    exact ⟨r.win, [], [], rfl, rfl, .inl rfl⟩
  | drawText x y len =>
    simp only [requestPlan, planDrawText, Option.some.injEq] at h
    split at h
    next => cases h
    next =>
      split at h
      next => cases h
      next run _ =>
        cases h
        obtain ⟨pixels, hpixels⟩ := exists_glyph_bytes cfg run
        refine ⟨_, [], pixels, rfl, ?_, .inl rfl⟩
        rw [setWindowFrames_windowWord, ← hpixels]
        rfl
  | _ => cases h

/-- An idle block that a request leaves busy has accepted it. -/
theorem accepted_of_exec_busy {i : Instr} (hi : isRequest i = true) (hb : s.busy = false) (h : exec i s = .next t)
    (ht : t.busy = true) : ∃ l, requestPlan s.cfg s.regs i = some (.start l) ∧ t = accept l s := by
  obtain ⟨p, hp, rfl⟩ := exec_request hi hb h
  cases p with
  | reject e =>
    rw [perform_reject s e hb, busy_raiseErr, hb] at ht
    cases ht
  | start l => exact ⟨l, hp, perform_start s l hb⟩

/-- Settles O21: a frame is a power-up byte, one of the window command, or a Data frame. -/
theorem commandBytesSent : Obligations.CommandBytesSent := by
  intro i s t hi hne hb h ht f hf hk
  obtain ⟨l, hl, rfl⟩ := accepted_of_exec_busy hi hb h ht
  obtain ⟨w, powerUp, pixels, hnote, hframes, hpower⟩ := requestPlan_start_frames hne hl
  have hcurwin : (accept l s).regs.curwin = w := by rw [accept_regs, (noteLaunch_record hnote).2]
  rw [hcurwin]
  rw [(accept_eng s l).2, hframes, List.append_assoc] at hf
  rcases List.mem_append.1 hf with hf | hf
  · obtain ⟨v, hv, rfl⟩ := List.mem_map.1 hf
    rcases hpower with rfl | ⟨hinit, rfl⟩
    · cases hv
    · exact .inl ⟨hinit, hv⟩
  rcases List.mem_append.1 hf with hf | hf
  · exact .inr hf
  · obtain ⟨v, -, rfl⟩ := List.mem_map.1 hf
    cases hk

end Sys2Proof.Machine

/-! ## The checks of DRAW_TEXT and the frames it sends

The plan of a DRAW_TEXT turns on LEN, then on the run of its examined cells: a length refused (`planDrawText_length`), no run
(`planDrawText_index`), or a run started (`planDrawText_start`), which has LEN rows (`textRun_length`) and six Data frames
for each row (`dataCount_drawTextFrames`). -/

namespace Sys2Proof.Machine

variable {s t : State} {cfg : Params} {tb : Vector Byte 32} {x y len : Byte} {run : List (Fin 41)}

/-! ### The operand checks -/

/-- Check 1 of R194. -/
theorem planDrawText_length (h : len.toNat = 0 ∨ 32 < len.toNat) : planDrawText cfg tb x y len = .reject .len := by
  rw [planDrawText, if_pos h]

/-- An examined cell above 40 leaves no run to draw (R194). -/
theorem textRun_eq_none (h32 : len.toNat ≤ 32) (h : ∃ k, k < len.toNat ∧ 40 < (tb.toList.getD k 0#8).toNat) :
    textRun tb len = none := by
  obtain ⟨k, hk, h40⟩ := h
  refine glyphRun_eq_none ⟨_, ?_, h40⟩
  rw [take_eq_map_range tb.toList 0#8 (by simpa using h32)]
  exact List.mem_map.2 ⟨k, List.mem_range.2 hk, rfl⟩

/-- Check 2 of R194. -/
theorem planDrawText_index (h1 : 1 ≤ len.toNat) (h32 : len.toNat ≤ 32) (hrun : textRun tb len = none) :
    planDrawText cfg tb x y len = .reject .idx := by
  rw [planDrawText, if_neg (by omega), hrun]

/-- What a DRAW_TEXT that passes its checks starts (R194, R196). -/
def drawTextLaunch (cfg : Params) (x y len : Byte) (run : List (Fin 41)) : Launch :=
  ⟨.drawText, drawTextFrames cfg x y len run, .record (windowWord x (endColumn x len) y y)⟩

/-- Only a legal length and a run of legal cells are started (R194). -/
theorem planDrawText_start_inv {l : Launch} (h : planDrawText cfg tb x y len = .start l) :
    1 ≤ len.toNat ∧ len.toNat ≤ 32 ∧ ∃ run, textRun tb len = some run ∧ l = drawTextLaunch cfg x y len run := by
  by_cases hlen : len.toNat = 0 ∨ 32 < len.toNat
  · rw [planDrawText_length hlen] at h
    cases h
  have h1 : 1 ≤ len.toNat := by omega
  have h32 : len.toNat ≤ 32 := by omega
  cases hrun : textRun tb len with
  | none =>
    rw [planDrawText_index h1 h32 hrun] at h
    cases h
  | some run =>
    rw [planDrawText_start h1 h32 hrun] at h
    cases h
    exact ⟨h1, h32, run, rfl, rfl⟩

/-- An idle block that passes the checks of R194 accepts (R224). -/
theorem exec_drawText_accept (hb : s.busy = false) (h1 : 1 ≤ len.toNat) (h32 : len.toNat ≤ 32)
    (hrun : textRun s.regs.tb len = some run) :
    exec (.drawText x y len) s = .next (accept (drawTextLaunch s.cfg x y len run) s) := by
  rw [exec, execDrawText, planDrawText_start h1 h32 hrun, perform_start s _ hb, drawTextLaunch]

/-- Acceptance leaves the block busy (R224). -/
theorem busy_accept (l : Launch) (s : State) : (accept l s).busy = true := by
  rw [State.busy, (accept_eng s l).1, Option.isSome_some]

/-- Settles O15: each check in its turn, and acceptance where both pass. -/
theorem drawTextChecks : Obligations.DrawTextChecks := by
  intro x y len s
  refine ⟨fun hb => ?_, fun hb => ⟨fun hlen => ?_, fun h1 h32 hcell => ?_, fun h1 h32 hcells => ?_⟩⟩
  · exact busyDiscardsRequests (.drawText x y len) s rfl hb
  · rw [exec, execDrawText, planDrawText_length hlen, perform_reject s _ hb]
  · rw [exec, execDrawText, planDrawText_index h1 h32 (textRun_eq_none h32 hcell), perform_reject s _ hb]
  · obtain ⟨run, hrun, -⟩ := textRun_eq_some h32 hcells
    exact ⟨_, exec_drawText_accept hb h1 h32 hrun, busy_accept _ s, by rw [accept_regs, noteLaunch_err]⟩

/-! ### The number of Data frames, and the width of the window -/

/-- A run has a row for each of its cells. -/
theorem glyphRun_length {l : List Byte} (h : glyphRun l = some run) : run.length = l.length := by
  by_cases hcells : ∀ b ∈ l, b.toNat ≤ 40
  · obtain ⟨run', hrun', hval⟩ := glyphRun_eq_some hcells
    obtain rfl : run' = run := Option.some.inj (hrun'.symm.trans h)
    simpa using congrArg List.length hval
  · rw [glyphRun_eq_none (by simpa using hcells)] at h
    cases h

theorem textRun_length (h32 : len.toNat ≤ 32) (h : textRun tb len = some run) : run.length = len.toNat := by
  simpa [h32] using glyphRun_length h

theorem dataCount_append (fs gs : List Frame) : dataCount (fs ++ gs) = dataCount fs + dataCount gs := List.countP_append

@[simp] theorem dataCount_windowFrames (o : Opcodes) (a b c d : Byte) : dataCount (windowFrames o a b c d) = 0 := rfl

@[simp] theorem dataCount_glyphFrames (cfg : Params) (i : Fin 41) : dataCount (glyphFrames cfg i) = 6 := rfl

/-- The window command holds no Data frame, and each row six. -/
theorem dataCount_drawTextFrames (cfg : Params) (x y len : Byte) (run : List (Fin 41)) :
    dataCount (drawTextFrames cfg x y len run) = 6 * run.length := by
  rw [drawTextFrames, dataCount_append, dataCount_windowFrames, Nat.zero_add]
  induction run with
  | nil => rfl
  | cons i rest ih =>
    rw [List.flatMap_cons, dataCount_append, ih, dataCount_glyphFrames, List.length_cons, Nat.mul_succ, Nat.add_comm]

/-- A run that does not pass column 255 ends at `X + 6·LEN − 1` (R195). -/
theorem endColumn_toNat (h : x.toNat + 6 * len.toNat - 1 ≤ 255) :
    (endColumn x len).toNat = x.toNat + 6 * len.toNat - 1 := by
  rw [endColumn, BitVec.toNat_ofNat, Nat.mod_eq_of_lt (by omega)]

/-- Settles O19: an accepted DRAW_TEXT has started a run of LEN rows, and CURWIN holds X and the end column. -/
theorem drawTextCounts : Obligations.DrawTextCounts := by
  intro x y len s t hb h ht
  obtain ⟨l, hl, rfl⟩ := accepted_of_exec_busy rfl hb h ht
  obtain ⟨h1, h32, run, hrun, rfl⟩ := planDrawText_start_inv (Option.some.inj hl)
  have hcurwin : (accept (drawTextLaunch s.cfg x y len run) s).regs.curwin = windowWord x (endColumn x len) y y := by
    rw [accept_regs]
    exact (noteLaunch_record rfl).2
  refine ⟨?_, fun hcol => ?_⟩
  · rw [(accept_eng s _).2, ← textRun_length h32 hrun]
    exact dataCount_drawTextFrames ..
  · rw [hcurwin, windowWord, byteLane_ofLanes_one, byteLane_ofLanes_zero, endColumn_toNat hcol]
    omega

/-! ### A single character -/

/-- The run of one legal cell is its row. -/
theorem textRun_single (i : Fin 41) (h : tb.toList.getD 0 0#8 = BitVec.ofNat 8 i.val) : textRun tb 1#8 = some [i] := by
  have hi : (tb.toList.getD 0 0#8).toNat = i.val := by rw [h, BitVec.toNat_ofNat, Nat.mod_eq_of_lt (by omega)]
  have hcell : ∀ k, k < (1#8).toNat → (tb.toList.getD k 0#8).toNat ≤ 40 := fun k hk => by
    obtain rfl : k = 0 := Nat.lt_one_iff.1 hk
    omega
  obtain ⟨run, hrun, hval⟩ := textRun_eq_some (by decide) hcell
  have hrow : run.map Fin.val = [i].map Fin.val := hval.trans (congrArg (fun n => [n]) hi)
  rw [hrun, List.map_injective_iff.2 Fin.val_injective hrow]

/-- One character ends five columns on, modulo 256. -/
theorem endColumn_single (x : Byte) : endColumn x 1#8 = x + 5#8 :=
  BitVec.eq_of_toNat_eq (by simp [endColumn])

/-- Settles O20: the run is row i alone, and its frames are the six bytes of that row. The end column X + 5 is taken modulo
256 on both sides, so the bound on X is not used. -/
theorem singleGlyph : Obligations.SingleGlyph := by
  intro i x y s hb _ hcell
  refine ⟨_, exec_drawText_accept hb (by decide) (by decide) (textRun_single i hcell), ?_⟩
  rw [(accept_eng s _).2, drawTextLaunch, drawTextFrames, endColumn_single, List.flatMap_singleton]
  rfl

end Sys2Proof.Machine

/-! ## Errors, and the checks of a host write

A cycle with a host write is the edge with no access, followed by what the write comes to (`step_write`), so each check of
R229 is one value of `hostWrite`. The error bits stand in no plan and no check, and acceptance keeps them
(`accept_withErrs`). -/

namespace Sys2Proof.Machine

variable {s : State}

/-! ### The error bits -/

/-- Settles O22, error by error and bit by bit. -/
theorem raiseErrSetsOneBit : Obligations.RaiseErrSetsOneBit := by
  refine fun e s => ⟨BitVec.eq_of_getLsbD_eq fun i hi => ?_, rfl⟩
  simp only [BitVec.getLsbD_or, getLsbD_statusWord _ _ hi, raiseErr_regs]
  cases e
  all_goals interval_cases i <;> simp [ErrBits.set, Err.bit]

theorem noteLaunch_withErr (r : Regs) (b : ErrBits) (l : Launch) :
    ({ r with err := b } : Regs).noteLaunch l = { r.noteLaunch l with err := b } := by
  cases l with | mk op fs note => cases note <;> cases op <;> rfl

/-- Acceptance neither reads nor writes the error bits. -/
theorem accept_withErrs (l : Launch) (b : ErrBits) (s : State) : accept l (withErrs b s) = withErrs b (accept l s) := by
  rw [accept, withErrs, noteLaunch_withErr, accept]
  cases l.frames <;> rfl

/-- A plan carried out comes to the same but for the error bits. -/
theorem perform_withErrs (p : Plan) (b : ErrBits) (s : State) :
    withErrs b (perform p (withErrs b s)) = withErrs b (perform p s) := by
  cases hb : s.busy with
  | true => rw [perform_busy s p hb, perform_busy (withErrs b s) p hb]; rfl
  | false =>
    cases p with
    | reject e => rw [perform_reject s e hb, perform_reject (withErrs b s) e hb]; rfl
    | start l => rw [perform_start s l hb, perform_start (withErrs b s) l hb, accept_withErrs]; rfl

/-- The check of `INIT_ROM` before an INIT (R162): BUSY comes first, and an idle block looks at the ROM. -/
theorem exec_init_next (h : (s.busy || s.cfg.initRomOk) = true) :
    exec .init s = .next (perform (planInit s.cfg) s) := if_pos h
theorem exec_init_refused (h : ¬ (s.busy || s.cfg.initRomOk) = true) : exec .init s = .refused .notThisHardware :=
  if_neg h

/-- Settles O24: a request carries out the same plan, and an instruction of the wire reads no register. -/
theorem errorBitsBlockNothing : Obligations.ErrorBitsBlockNothing := by
  intro i s b
  cases i with
  | writeByte v k => exact congrArg Host.Outcome.next (perform_withErrs (planWriteByte v k) b s)
  | setWindow => exact congrArg Host.Outcome.next (perform_withErrs (planSetWindow s.cfg s.regs.win) b s)
  | drawText x y len =>
    exact congrArg Host.Outcome.next (perform_withErrs (planDrawText s.cfg s.regs.tb x y len) b s)
  | init =>
    by_cases hcheck : (s.busy || s.cfg.initRomOk) = true
    · rw [exec_init_next hcheck, exec_init_next (s := withErrs b s) hcheck]
      exact congrArg Host.Outcome.next (perform_withErrs (planInit s.cfg) b s)
    · rw [exec_init_refused hcheck, exec_init_refused (s := withErrs b s) hcheck, andThen]
  | _ => rfl

/-! ### The edge of a write -/

/-- A cycle with a write is the same edge without an access, and then what the write comes to (R67, R229). -/
theorem step_write (hr : s.inputs.rst = false) (hs : s.inputs.sel = true) (hw : s.inputs.we = true) :
    step s = andThen (step s.withoutAccess) fun t =>
      ((hostWrite s.busy s.inputs.addr s.inputs.size s.inputs.wdata).event t).finish := by
  obtain ⟨r, hwithout, hstep⟩ := step_beside hr
  rw [hstep, hwithout, hostAction, hs, hw, retire_write hs hw]
  rfl

/-- The edge of a word write to the offset `off`, by what such a write comes to. -/
theorem step_writeWord (off : BitVec 6) (a : HostAction) (hr : s.inputs.rst = false) (hs : s.inputs.sel = true)
    (hw : s.inputs.we = true) (hsize : s.inputs.size = 2#2) (hoff : s.inputs.addr.toNat = off.toNat)
    (ha : hostWrite s.busy off 2#2 s.inputs.wdata = a) :
    step s = andThen (step s.withoutAccess) fun t => (a.event t).finish := by
  rw [step_write hr hs hw, hsize, BitVec.eq_of_toNat_eq hoff, ha]

/-- While BUSY an aligned word write is refused, but to a read-only offset or to STATUS (R227; R229, check 4). -/
theorem hostWrite_busy {addr : BitVec 6} {size : BitVec 2} (h : aligned addr size = true)
    (hro : ¬(addr.toNat = 0x00 ∨ addr.toNat = 0x10 ∨ addr.toNat = 0x18 ∨ addr.toNat = 0x1C))
    (hst : addr.toNat ≠ 0x04) (v : Word) : hostWrite true addr size v = .raise .busy := by
  simp only [not_or] at hro
  obtain ⟨h00, h10, h18, h1C⟩ := hro
  rw [hostWrite, h, if_neg (by decide)]
  split
  next ho => exact absurd ho h00
  next ho => exact absurd ho h10
  next ho => exact absurd ho h18
  next ho => exact absurd ho h1C
  next ho => exact absurd ho hst
  next => rfl

/-- A word of R108 decodes to no request. -/
theorem decodeRequest_illegalWord {w : Word} (h : illegalWord w) (i : Instr) : decodeRequest w ≠ .ok i := fun hd =>
  have ⟨rsv, form⟩ := decodeRequest_ok_iff.1 hd
  not_illegalWord_of_form rsv form h

/-- Settles O27: each check is the value of `hostWrite` at its offset, and those of DRAW_TEXT are O15's. -/
theorem writePriority : Obligations.WritePriority := by
  intro s p hs hw
  refine ⟨fun hr => step_reset hr, fun hr => ⟨fun hword => ?misaligned, fun hword hro => ?readOnly,
    fun hword ho => ?status, fun hword hro hst hb => ?busy, fun hword hb ho => ?win, fun hword hb ho => ?settle,
    fun w hword hb ho => ?textbuf, fun hword hb ho hill => ?illegal, fun i hword hb ho hd => ?request,
    fun x y len t hb => ?drawText⟩⟩
  case misaligned =>
    have ha : aligned p.addr p.size = false := by rwa [← Bool.not_eq_true, aligned_iff]
    rw [step_write hr hs hw, hostWrite_unaligned ha]
    rfl
  case readOnly =>
    rcases hro with ho | ho | ho | ho
    · exact step_writeWord Offset.id (.raise .addr) hr hs hw hword.1 ho rfl
    · exact step_writeWord Offset.curwin (.raise .addr) hr hs hw hword.1 ho rfl
    · exact step_writeWord Offset.txcount (.raise .addr) hr hs hw hword.1 ho rfl
    · exact step_writeWord 0x1C#6 (.raise .addr) hr hs hw hword.1 ho rfl
  case status => exact step_writeWord Offset.status (.clear p.wdata) hr hs hw hword.1 ho rfl
  case busy =>
    rw [step_write hr hs hw, hb, hostWrite_busy ((aligned_iff _ _).2 hword) hro hst]
    rfl
  case win => exact step_writeWord Offset.win (.setWin p.wdata) hr hs hw hword.1 ho (by rw [hb]; rfl)
  case settle => exact step_writeWord Offset.settle (.setSettle p.wdata) hr hs hw hword.1 ho (by rw [hb]; rfl)
  case textbuf =>
    have hoff : p.addr.toNat = (Offset.textbuf w.val).toNat := by
      rw [Offset.textbuf, BitVec.toNat_ofNat, Nat.mod_eq_of_lt (by omega)]
      exact ho
    exact step_writeWord _ (.setText w p.wdata) hr hs hw hword.1 hoff (by rw [hb, hostWrite_textbuf])
  case illegal =>
    have ha : hostWrite s.busy Offset.req 2#2 p.wdata = .raise .op := by
      rw [hb, hostWrite_req_error (decodeRequest_illegalWord hill)]
    exact step_writeWord Offset.req (.raise .op) hr hs hw hword.1 ho ha
  case request => exact step_writeWord Offset.req (.request i) hr hs hw hword.1 ho (by rw [hb, hostWrite_req hd])
  case drawText =>
    obtain ⟨hlen, hidx, -⟩ := (drawTextChecks x y len t).2 hb
    exact ⟨hlen, fun hl hcell => hidx (by omega) (by omega) hcell⟩

/-- Settles O28: the checks of O27 for the offsets that BUSY protects, and for STATUS. -/
theorem busyRefusesHostWrites : Obligations.BusyRefusesHostWrites := by
  intro s hb hr hs hw hsize off
  obtain ⟨-, -, hstatus, hbusy, -⟩ := (writePriority s hs hw).2 hr
  refine ⟨fun hoff => ?refused, fun hoff => ?status⟩
  case refused =>
    have hn : s.inputs.addr.toNat = 0x08 ∨ s.inputs.addr.toNat = 0x0C ∨ s.inputs.addr.toNat = 0x14
        ∨ 0x20 ≤ s.inputs.addr.toNat ∧ s.inputs.addr.toNat % 4 = 0 :=
      hoff.imp (congrArg BitVec.toNat) (.imp (congrArg BitVec.toNat) (.imp (congrArg BitVec.toNat) id))
    exact hbusy ⟨hsize, by omega⟩ (by omega) (by omega) hb
  case status =>
    have hn : s.inputs.addr.toNat = 0x04 := congrArg BitVec.toNat hoff
    exact hstatus ⟨hsize, by rw [hn]⟩ hn

end Sys2Proof.Machine

/-! ## Reset, and the block at rest

A reset edge is `resetBlock`, whatever the host presents. Out of reset a step at rest is the host's share alone
(`step_atRest`), and of the host's actions only a request starts anything. -/

namespace Sys2Proof.Machine

variable {s t u : State}

/-! ### Nothing unbidden -/

/-- From a block at rest, the host's share that starts no request leaves it at rest. -/
theorem hostShare_atRest {busy : Bool} (h : HostShare busy u t) (hu : u.atRest) (ht : t.busy = false) : t.atRest := by
  cases h with
  | store => exact hu
  | accept i l => simp [busy_accept] at ht

/-- Only a request makes an idle block busy. -/
theorem request_of_event_busy {a : HostAction} (hu : u.busy = false) (h : (a.event u).finish = .next t)
    (ht : t.busy = true) : ∃ i, a = .request i := by
  by_contra hn
  rw [event_regs a u fun i hi => hn ⟨i, hi⟩] at h
  cases h
  exact absurd (hu.symm.trans ht) Bool.false_ne_true

/-- Settles O56: a reset leaves the block at rest, and out of reset the step is the host's share. -/
theorem nothingUnbidden : Obligations.NothingUnbidden := by
  intro s t hrest hstep
  cases hr : s.inputs.rst with
  | true =>
    rw [step_reset hr] at hstep
    cases hstep
    exact ⟨.inr ⟨rfl, rfl⟩, fun _ => ⟨rfl, rfl⟩, fun hb => absurd hb Bool.false_ne_true⟩
  | false =>
    rw [step_atRest hrest hr] at hstep
    have hidle : s.presented.busy = false := hrest.1
    have hshare : HostShare false s.presented t := hostShare_of_event (fun _ => hidle) hstep
    obtain ⟨htrace, -⟩ := hostShare_trace hshare
    refine ⟨.inl htrace, hostShare_atRest hshare hrest, fun hb => ?_⟩
    obtain ⟨i, ha⟩ := request_of_event_busy hidle hstep hb
    obtain ⟨-, hd, haddr, -⟩ := hostAction_request ha
    obtain ⟨hsel, hwe⟩ := hostAction_request_write ha
    exact ⟨hsel, hwe, haddr, i, hd⟩

/-! ### Reset -/

/-- The inputs of a cycle are those of the operation the host has next. -/
theorem inputs_of_program {op : HostOp} {rest : List HostOp} (h : s.host.program = op :: rest) : s.inputs = op.inputs := by
  rw [State.inputs, h]

/-- After reset STATUS reads 0: the engine idle and every flag cleared (R42). -/
theorem statusWord_reset (settle : Word) : statusWord false (Regs.reset settle) = 0#32 := by
  simp [statusWord, Regs.reset]

/-- Settles O49: the step is `resetBlock`, of whose values only the STATUS word is computed. -/
theorem resetEdge : Obligations.ResetEdge := by
  intro s p rest hprog hrst
  have hr : s.inputs.rst = true := by rw [inputs_of_program hprog]; exact hrst
  exact ⟨resetBlock s.presented, step_reset hr, statusWord_reset s.cfg.settleReset,
    rfl, rfl, rfl, rfl, rfl, rfl, rfl, rfl, rfl, rfl⟩

end Sys2Proof.Machine
